-- ==== Sys2Proof/Word.lean ====
section
/-! DEFINITION. The words of the block: bytes, the 32-bit index words, the four encoded words of
spec/30_encoding.md, and the two records that travel between the extractor and the demodulators. -/

namespace Sys2Proof

/-- A byte of a BitBuffer (R23). -/
abbrev Byte := BitVec 8

/-- A sample index, a length, a gap or a limit, as the 32-bit fields of R22, R64, R67 and R68 hold it. Its own
width is the parameter `IDX_W` (R3): `Config.wrap` reduces to it. -/
abbrev Word := BitVec 32

/-- A sample or the level limit, as the 16-bit fields of R22 and R60 hold it. Its own width is the parameter
`SAMPLE_W` (R3): `sampleValue` reads that many bits. -/
abbrev Sample := BitVec 16

/-- The command word `cmd[18:0]` (R60). -/
abbrev CmdWord := BitVec 19

/-- The edge word `{hi, pulse_open}` (R62). -/
abbrev EdgeWord := BitVec 2

/-- The protocol descriptor `CFG_DESC[p]` (R64). -/
abbrev DescWord := BitVec 100

/-- A `read_bits` request `{width, off}` (R71). -/
abbrev RdbWord := BitVec 21

/-- A completed pulse as the table holds it (R18). `stop` is the spec's field `end`. -/
structure PulseEvent where
  start  : Word
  stop   : Word
  length : Word
  deriving DecidableEq, Repr

/-- What the extractor passes to the demodulators (R67). `stop` is the spec's field `end`; `gap = none`
is the spec's `gap_valid = 0`, with which the packed `gap` field is 0. -/
structure PulseRecord where
  start  : Word
  stop   : Word
  length : Word
  gap    : Option Word
  deriving DecidableEq, Repr

/-- The three fields of a record that the table keeps (R106). -/
def PulseRecord.event (r : PulseRecord) : PulseEvent :=
  { start := r.start, stop := r.stop, length := r.length }

end Sys2Proof
end

