-- ==== Sys2Proof/Config.lean ====
section
/-! DEFINITION. The configuration record of spec/00_scope.md R3: what a run of the block holds fixed.
No rule writes it (R11); the machine carries it beside its state (log entry 1). -/

namespace Sys2Proof

/-- The modulations of R65. The code `0b11` is no modulation: decoding refuses it. -/
inductive Modulation where
  | pwmD | pwmP | manch
  deriving DecidableEq, Repr

/-- The verifiers of R66. -/
inductive VSel where
  | vNone | vRed | vXor8 | vNibsum
  deriving DecidableEq, Repr

/-- The timing limits of a protocol, in samples, unsigned, as the 32-bit fields of R64 hold them. Their own width is
`IDX_W` (R3): `Config.wrapLimits` reads that many bits. -/
structure Limits where
  short : Word
  long  : Word
  reset : Word
  deriving DecidableEq, Repr

/-- A protocol descriptor (R64): `MOD[p]`, `VSEL[p]`, `SHORT[p]`, `LONG[p]`, `RESET[p]`. -/
structure Desc where
  modulation : Modulation
  vsel       : VSel
  limits     : Limits
  deriving DecidableEq, Repr

/-- The parameters of R3, under their own names in lower camel case. `N_PROTO` is the length of `descs`.
`SAMPLE_W` and `IDX_W` go up to the widths of the fields that hold a sample (R60) and an index (R67); what a
narrower one means is read from R3 and R6 (DEDUCED, unsafe below the defaults: log entry 7). -/
structure Config where
  sampleW     : Fin 17
  idxW        : Fin 33
  levelLimit  : Sample
  quietWindow : Word
  tblCap      : Word
  descs       : List Desc
  bbRows      : Nat
  bbCols      : Nat
  pwmdLongBit  : Bool
  pwmpLongBit  : Bool
  manchRiseBit : Bool
  redMinRows  : Nat
  redHdrCols  : List Nat
  tempNib     : Nat
  majRows     : Nat
  xor8Start   : Nat
  xor8NBytes  : Nat
  nibStart    : Nat
  nibLongType : Nat
  nibShortLen : Nat
  nibLongLen  : Nat
  nibSumConst : Nat
  deriving DecidableEq, Repr

namespace Config

/-- `N_PROTO` (R3). -/
def nProto (c : Config) : Nat := c.descs.length

/-- The defaults of R3. The two OPEN rows of R3 have none: level limit 0 and no protocol are this
model's choice (DESIGN CHOICE, unsafe: log entry 2), and no statement rests on them. -/
def reference : Config where
  sampleW     := 16
  idxW        := 32
  levelLimit  := 0
  quietWindow := 50000
  tblCap      := 1000
  descs       := []
  bbRows      := 12
  bbCols      := 34
  pwmdLongBit  := true
  pwmpLongBit  := false
  manchRiseBit := false
  redMinRows  := 2
  redHdrCols  := [0]
  tempNib     := 3
  majRows     := 3
  xor8Start   := 18
  xor8NBytes  := 9
  nibStart    := 11
  nibLongType := 4
  nibShortLen := 8
  nibLongLen  := 12
  nibSumConst := 5

/-- FREE VALUE (DESIGN CHOICE, safe: log entry 12). What `SEXT` answers for `N` and `v` outside
`1 ≤ N ≤ 16`, `v < 2^N`: R95 states no result there. -/
opaque sextOutside : Nat → BitVec 16 → BitVec 16

end Config

end Sys2Proof
end

