-- ==== Sys2Proof/Syntax.lean ====
section
/-! DEFINITION. The instructions: one constructor per row of spec/opcode_table.json, in the table's order,
with the operands the row's rule gives it. -/

namespace Sys2Proof

/-- The operations of the block. `p` is a protocol index; a `DESC` row carries the descriptor fields its
word holds beside the one that selects it, and the operands its rule names; an `RDB` request and `NIB`
carry the byte sequence they read. -/
inductive Instr where
  -- format CMD (R61)
  | idle
  | sample (data : Sample)
  | eos
  | stop
  | rst
  | rsv5
  | rsv6
  | rsv7
  -- format EDGE (R62): the sample index is the state's `idx`
  | rise
  | hold
  | fall
  | low
  -- format DESC, selected by `mod` (R65)
  | pwmD (v : VSel) (lim : Limits) (p : Nat) (r : PulseRecord)
  | pwmP (v : VSel) (lim : Limits) (p : Nat) (r : PulseRecord)
  | manch (v : VSel) (lim : Limits) (p : Nat) (r : PulseRecord)
  -- format DESC, selected by `vsel` (R66)
  | vNone (m : Modulation) (lim : Limits) (p : Nat)
  | vRed (m : Modulation) (lim : Limits) (p : Nat)
  | vXor8 (m : Modulation) (lim : Limits) (p : Nat)
  | vNibsum (m : Modulation) (lim : Limits) (p : Nat)
  -- format RDB (R71)
  | rdbits (width : BitVec 5) (off : BitVec 16) (buf : List Byte)
  -- format SUBOP (spec/30_encoding.md section 5)
  | sigOpen (r : PulseRecord)
  | tblAppend (r : PulseRecord)
  | tblAbort (n : Word)
  | sigClose (closeIdx : Word)
  | demod (p : Nat) (r : PulseRecord)
  | rowAdv (p : Nat) (r : PulseRecord)
  | addBit (p : Nat) (b : Bool)
  | nextRow (p : Nat)
  | bbDone (p : Nat)
  | bbClear (p : Nat)
  | sext (n : Nat) (v : BitVec 16)
  | nib (buf : List Byte) (j : Nat)
  | rowVote (p : Nat)
  deriving DecidableEq, Repr

end Sys2Proof
end

