-- ==== Sys2Proof/WellFormed.lean ====
section
/-! DEFINITION. When an instruction's operands are ones its rule gives it, and when a configuration is
well formed (R4). -/

namespace Sys2Proof

/-- The operand ranges of an instruction under a configuration: a protocol index is below `N_PROTO` (R3);
`SEXT` takes `1 ≤ N ≤ 16` and `v < 2^N` (R95); `NIB` takes `j div 2 < nbytes` (R96). Every other operand
is bounded by its type. -/
def Instr.wf (c : Config) : Instr → Bool
  | .idle | .sample _ | .eos | .stop | .rst | .rsv5 | .rsv6 | .rsv7 => true
  | .rise | .hold | .fall | .low => true
  | .pwmD _ _ p _ | .pwmP _ _ p _ | .manch _ _ p _ => decide (p < c.nProto)
  | .vNone _ _ p | .vRed _ _ p | .vXor8 _ _ p | .vNibsum _ _ p => decide (p < c.nProto)
  | .rdbits _ _ _ => true
  | .sigOpen _ | .tblAppend _ | .tblAbort _ | .sigClose _ => true
  | .demod p _ | .rowAdv p _ | .addBit p _ | .nextRow p => decide (p < c.nProto)
  | .bbDone p | .bbClear p | .rowVote p => decide (p < c.nProto)
  | .sext n v => decide (1 ≤ n ∧ n ≤ 16 ∧ v.toNat < 2 ^ n)
  | .nib buf j => decide (j / 2 < buf.length)

/-- The first five conditions of R4, with which every rule has a meaning. `N_PROTO ≥ 0` and "every `MOD`
and `VSEL` is one of the listed ones" hold of every `Config` by its types: a descriptor word with the
reserved modulation does not decode (R65). -/
def Config.admissible (c : Config) : Bool :=
  decide (1 ≤ c.tblCap.toNat ∧ 1 ≤ c.bbRows ∧ 1 ≤ c.bbCols)

/-- All the conditions of R4. -/
def Config.wellFormed (c : Config) : Bool :=
  c.admissible &&
  c.redHdrCols.all (fun col => decide (col < c.bbCols)) &&
  decide ((c.tempNib + 2) / 2 < c.bbCols ∧
    c.xor8Start + 9 * c.xor8NBytes + 8 ≤ 8 * c.bbCols ∧
    c.nibStart + 5 * (c.nibLongLen + 1) + 4 ≤ 8 * c.bbCols ∧
    c.nibStart + 5 * (c.nibShortLen + 1) + 4 ≤ 8 * c.bbCols ∧
    2 ≤ c.majRows ∧ 2 ≤ c.redMinRows)

end Sys2Proof
end

