-- ==== Sys2Proof/Decode.lean ====
section
/-! DEFINITION. The decoders of the four encoded formats (spec/30_encoding.md R60 to R71) and, after them,
the encoder, written from the same tables. -/

namespace Sys2Proof

/-- Why a word does not decode. `reservedModulation`: the descriptor's `mod` is `0b11` (R65, R73 (c)). -/
inductive DecodeError where
  | reservedModulation
  deriving DecidableEq, Repr

/-- An encoded operation: the word of its format and what the spec presents beside the word. A descriptor
word selects two operations (R64), its modulation, run for protocol `p` on a record `r` (R120), and its
verifier, run for `p` (R128): `modOp` and `verOp` name which of the two is meant. A `read_bits` request comes with the
byte sequence it reads (R71). -/
inductive Code where
  | cmd (w : CmdWord)
  | edge (w : EdgeWord)
  | modOp (w : DescWord) (p : Nat) (r : PulseRecord)
  | verOp (w : DescWord) (p : Nat)
  | rdb (w : RdbWord) (buf : List Byte)
  deriving DecidableEq, Repr

/-! ## Format CMD -/

/-- `op`, bits 18:16 of a command word (R60). -/
def cmdOp (w : CmdWord) : BitVec 3 := w.extractLsb' 16 3

/-- `data`, bits 15:0 of a command word (R60). -/
def cmdData (w : CmdWord) : Sample := w.extractLsb' 0 16

/-- The command a command word means (R61). The `data` field of every command but `SAMPLE` is ignored
(R73 (b)). -/
def decodeCmd (w : CmdWord) : Instr :=
  match (cmdOp w).toNat with
  | 0 => .idle
  | 1 => .sample (cmdData w)
  | 2 => .eos
  | 3 => .stop
  | 4 => .rst
  | 5 => .rsv5
  | 6 => .rsv6
  | _ => .rsv7

/-! ## Format EDGE -/

/-- The operation the edge detector decodes from `{hi, pulse_open}` (R62). -/
def decodeEdge (w : EdgeWord) : Instr :=
  match w.toNat with
  | 0 => .low
  | 1 => .fall
  | 2 => .rise
  | _ => .hold

/-! ## Format DESC -/

/-- The modulation codes of R65. -/
def decodeModulation (m : BitVec 2) : Except DecodeError Modulation :=
  match m.toNat with
  | 0 => .ok .pwmD
  | 1 => .ok .pwmP
  | 2 => .ok .manch
  | _ => .error .reservedModulation

/-- The verifier select codes of R66. -/
def decodeVSel (v : BitVec 2) : VSel :=
  match v.toNat with
  | 0 => .vNone
  | 1 => .vRed
  | 2 => .vXor8
  | _ => .vNibsum

/-- The limits of a descriptor word: `short` 95:64, `long` 63:32, `reset` 31:0 (R64). -/
def descLimits (w : DescWord) : Limits where
  short := w.extractLsb' 64 32
  long  := w.extractLsb' 32 32
  reset := w.extractLsb' 0 32

/-- The descriptor a descriptor word presents: `mod` 99:98, `vsel` 97:96 and the limits (R64). -/
def decodeDesc (w : DescWord) : Except DecodeError Desc :=
  match decodeModulation (w.extractLsb' 98 2) with
  | .ok m => .ok { modulation := m, vsel := decodeVSel (w.extractLsb' 96 2), limits := descLimits w }
  | .error e => .error e

/-- The modulation operation a descriptor selects, for protocol `p` and record `r` (R65, R120). -/
def Desc.modInstr (d : Desc) (p : Nat) (r : PulseRecord) : Instr :=
  match d.modulation with
  | .pwmD  => .pwmD d.vsel d.limits p r
  | .pwmP  => .pwmP d.vsel d.limits p r
  | .manch => .manch d.vsel d.limits p r

/-- The verifier operation a descriptor selects, for protocol `p` (R66, R128). -/
def Desc.verInstr (d : Desc) (p : Nat) : Instr :=
  match d.vsel with
  | .vNone   => .vNone d.modulation d.limits p
  | .vRed    => .vRed d.modulation d.limits p
  | .vXor8   => .vXor8 d.modulation d.limits p
  | .vNibsum => .vNibsum d.modulation d.limits p

/-! ## Format RDB -/

/-- A `read_bits` request: `width` 20:16, `off` 15:0 (R71), for the byte sequence beside it. -/
def decodeRdb (w : RdbWord) (buf : List Byte) : Instr :=
  .rdbits (w.extractLsb' 16 5) (w.extractLsb' 0 16) buf

/-! ## All formats -/

/-- The operation an encoded operation means, or the name of what is wrong with its word. -/
def decode : Code → Except DecodeError Instr
  | .cmd w => .ok (decodeCmd w)
  | .edge w => .ok (decodeEdge w)
  | .modOp w p r =>
    match decodeDesc w with
    | .ok d => .ok (d.modInstr p r)
    | .error e => .error e
  | .verOp w p =>
    match decodeDesc w with
    | .ok d => .ok (d.verInstr p)
    | .error e => .error e
  | .rdb w buf => .ok (decodeRdb w buf)

/-! ## The encoder -/

/-- The command word with operation code `op` and data `data` (R60). -/
def cmdWord (op : BitVec 3) (data : Sample) : CmdWord := op ++ data

/-- The codes of R65. -/
def Modulation.code : Modulation → BitVec 2
  | .pwmD => 0b00
  | .pwmP => 0b01
  | .manch => 0b10

/-- The codes of R66. -/
def VSel.code : VSel → BitVec 2
  | .vNone => 0b00
  | .vRed => 0b01
  | .vXor8 => 0b10
  | .vNibsum => 0b11

/-- The descriptor word `CFG_DESC[p]` of a descriptor (R64). -/
def encodeDesc (d : Desc) : DescWord :=
  d.modulation.code ++ (d.vsel.code ++ (d.limits.short ++ (d.limits.long ++ d.limits.reset)))

/-- The request word `{width, off}` (R71). -/
def rdbWord (width : BitVec 5) (off : BitVec 16) : RdbWord := width ++ off

/-- The canonical encoding of an operation; `none` for a `SUBOP` row, which has no encoding
(spec/30_encoding.md section 5). A command that ignores `data` has `data = 0` (R74). -/
def encode : Instr → Option Code
  | .idle => some (.cmd (cmdWord 0b000 0))
  | .sample data => some (.cmd (cmdWord 0b001 data))
  | .eos => some (.cmd (cmdWord 0b010 0))
  | .stop => some (.cmd (cmdWord 0b011 0))
  | .rst => some (.cmd (cmdWord 0b100 0))
  | .rsv5 => some (.cmd (cmdWord 0b101 0))
  | .rsv6 => some (.cmd (cmdWord 0b110 0))
  | .rsv7 => some (.cmd (cmdWord 0b111 0))
  | .rise => some (.edge 0b10)
  | .hold => some (.edge 0b11)
  | .fall => some (.edge 0b01)
  | .low => some (.edge 0b00)
  | .pwmD v lim p r => some (.modOp (encodeDesc ⟨.pwmD, v, lim⟩) p r)
  | .pwmP v lim p r => some (.modOp (encodeDesc ⟨.pwmP, v, lim⟩) p r)
  | .manch v lim p r => some (.modOp (encodeDesc ⟨.manch, v, lim⟩) p r)
  | .vNone m lim p => some (.verOp (encodeDesc ⟨m, .vNone, lim⟩) p)
  | .vRed m lim p => some (.verOp (encodeDesc ⟨m, .vRed, lim⟩) p)
  | .vXor8 m lim p => some (.verOp (encodeDesc ⟨m, .vXor8, lim⟩) p)
  | .vNibsum m lim p => some (.verOp (encodeDesc ⟨m, .vNibsum, lim⟩) p)
  | .rdbits width off buf => some (.rdb (rdbWord width off) buf)
  | .sigOpen _ => none
  | .tblAppend _ => none
  | .tblAbort _ => none
  | .sigClose _ => none
  | .demod _ _ => none
  | .rowAdv _ _ => none
  | .addBit _ _ => none
  | .nextRow _ => none
  | .bbDone _ => none
  | .bbClear _ => none
  | .sext _ _ => none
  | .nib _ _ => none
  | .rowVote _ => none

/-- The packed PulseRecord, 129 bits, most significant first (R67). -/
def PulseRecord.pack (r : PulseRecord) : BitVec 129 :=
  r.start ++ (r.stop ++ (r.length ++
    ((match r.gap with | some _ => 1#1 | none => 0#1) ++ (match r.gap with | some g => g | none => 0#32))))

/-! ## Words of the opcode table -/

/-- The encoded operation that a table word of `nbits` bits is, where a format has that width, or that
width in whole bytes: `EDGE` 2 (1 byte), `CMD` 19 and `RDB` 21 (3 bytes), `DESC` 100 (13 bytes). A 3-byte
word is a command where it fits a command's 19 bits and a reader request above that; a descriptor word
stands for its verifier when its `mod` is 0 and its `vsel` is not, and for its modulation otherwise; what the
spec presents beside a word is empty or zero (DESIGN CHOICE, log entry 6). -/
def tableCode (nbits w : Nat) : Option Code :=
  if nbits = 2 ∨ nbits = 8 then
    if w < 2 ^ 2 then some (.edge (BitVec.ofNat 2 w)) else none
  else if nbits = 19 then
    if w < 2 ^ 19 then some (.cmd (BitVec.ofNat 19 w)) else none
  else if nbits = 21 then
    if w < 2 ^ 21 then some (.rdb (BitVec.ofNat 21 w) []) else none
  else if nbits = 24 then
    if w < 2 ^ 19 then some (.cmd (BitVec.ofNat 19 w))
    else if w < 2 ^ 21 then some (.rdb (BitVec.ofNat 21 w) []) else none
  else if nbits = 100 ∨ nbits = 104 then
    if w < 2 ^ 100 then
      if 2 ^ 96 ≤ w ∧ w < 2 ^ 98 then some (.verOp (BitVec.ofNat 100 w) 0)
      else some (.modOp (BitVec.ofNat 100 w) 0 ⟨0, 0, 0, none⟩)
    else none
  else none

/-- The instruction the decoder reads from a table word. -/
def decodeTableWord (nbits w : Nat) : Option Instr :=
  match tableCode nbits w with
  | some code =>
    match decode code with
    | .ok i => some i
    | .error _ => none
  | none => none

end Sys2Proof
end

