-- ==== Sys2Proof/Machine/State.lean ====
section
/-! DEFINITION. The state of the block (spec/10_state.md R12 to R27), its output records
(spec/30_encoding.md R68 to R71), the reasons a step can stop, and the state after reset (R29). -/

namespace Sys2Proof.Machine

/-! ## Output records -/

/-- The reason codes of R70, in code order. -/
inductive Reason where
  | ok | noRows | rowMismatch | framingStop | framingCount | checksumXor | checksumSum | bounds
  deriving DecidableEq, Repr

/-- The `err` field of a `read_bits` response (R71). -/
inductive RdErr where
  | none | width | bounds
  deriving DecidableEq, Repr

/-- A `read_bits` response: `value` is 0 when there is an error (R71). -/
structure Response where
  err   : RdErr
  value : BitVec 16
  deriving DecidableEq, Repr

/-- The payload of a verdict (R69): none when rejected; the signed field of `V_RED` (R151); the data bytes of
`V_XOR8`; the nibbles of `V_NIBSUM`. -/
inductive Payload where
  | none
  | field (t : BitVec 16)
  | bytes (d : List Byte)
  | nibbles (d : List (BitVec 4))
  deriving DecidableEq, Repr

/-- How a verifier ends (R141). -/
inductive Judgement where
  | accept (payload : Payload)
  | reject (code : Reason) (info : Nat)
  deriving DecidableEq, Repr

/-- The `Verdict` record (R69), with its field widths. -/
structure Verdict where
  p       : BitVec 16
  vsel    : VSel
  accept  : Bool
  reason  : Reason
  info    : BitVec 4
  plen    : BitVec 4
  payload : Payload
  deriving DecidableEq, Repr

/-- The output events of R68. `bufferDone` is `BitBufferDone`; its `rows` are all `BB_ROWS` rows of all
`BB_COLS` columns. -/
inductive Event where
  | signalOpened (sigStart : Word)
  | pulse (r : PulseRecord)
  | tableOverflow (at_ : Word)
  | signalClosed (sigStart lastEnd closeIdx : Word) (count : Nat) (table : List PulseEvent)
  | bufferDone (p : BitVec 16) (rows : List (List Byte)) (rowBits : List Nat) (row col : Nat) (bitpos : Fin 8)
      (trunc : Bool)
  | verdict (v : Verdict)
  deriving DecidableEq, Repr

/-- The answer of an operation that returns a value and writes no state: `RDBITS` (R71), `SEXT` (R95, as a
16-bit two's-complement word), `NIB` (R96), `ROW_VOTE` (R145: the combined buffer). The last two can also
end in a reject. -/
inductive OpResult where
  | response (r : Response)
  | sext (v : BitVec 16)
  | nib (v : BitVec 4)
  | comb (buf : List Byte)
  | rejected (code : Reason)
  deriving DecidableEq, Repr

/-! ## Inputs -/

/-- The input pins in one clock cycle in which `in_ready` is 1 (R60, R190). -/
structure Pins where
  rst     : Bool
  inValid : Bool
  cmd     : CmdWord
  deriving DecidableEq, Repr

/-! ## State -/

/-- Byte storage as data: (address, byte) pairs, addresses strictly rising, no byte 0 listed; an
address that is not listed reads 0 (R48). The address of byte `(r, c)` of a BitBuffer is
`r * BB_COLS + c` (log entry 8). -/
abbrev Memory := List Host.Cell

/-- The state of one protocol's demodulator (R23 to R27). -/
structure Demod where
  bb      : Memory
  row     : Nat
  col     : Nat
  bitpos  : Fin 8
  rowBits : List Nat
  trunc   : Bool
  mValid  : Bool
  mLast   : Word
  deriving DecidableEq, Repr

/-- The demodulator after reset: an empty buffer of `rows` rows, cursor `(0, 0, 7)` (R29). -/
def Demod.reset (rows : Nat) : Demod where
  bb      := []
  row     := 0
  col     := 0
  bitpos  := 7
  rowBits := List.replicate rows 0
  trunc   := false
  mValid  := false
  mLast   := 0

/-- The state of the block (R12 to R27), the configuration it runs under (R11, log entry 1), and its
ports: the input cycles still to come (log entry 3), the events and the value of the latest step (log
entry 4). `tbl_count` is the length of `tbl` (R18, log entry 10); `demods` holds one demodulator per
protocol. -/
structure State where
  cfg        : Config
  input      : List Pins
  events     : List Event
  result     : Option OpResult
  idx        : Word
  pulseOpen  : Bool
  pulseStart : Word
  sigOpen    : Bool
  sigStart   : Word
  lastEnd    : Word
  tbl        : List PulseEvent
  halted     : Bool
  tblOvf     : Bool
  badcmd     : Bool
  demods     : List Demod
  deriving DecidableEq, Repr

/-- The state after reset under a configuration (R29); reset does not change the configuration (R191). -/
def State.resetWith (c : Config) : State where
  cfg        := c
  input      := []
  events     := []
  result     := none
  idx        := 0
  pulseOpen  := false
  pulseStart := 0
  sigOpen    := false
  sigStart   := 0
  lastEnd    := 0
  tbl        := []
  halted     := false
  tblOvf     := false
  badcmd     := false
  demods     := List.replicate c.nProto (Demod.reset c.bbRows)

/-- The machine right after reset, under the configuration of R3's defaults (the two OPEN parameters: log
entry 2). -/
def State.reset : State := State.resetWith Config.reference

/-! ## Stops -/

/-- Why the model stops with a fault. No command of a run raises one (R80): each is an internal operation
taken alone and named with an operand that the spec says does not exist. All are safe. -/
inductive Fault where
  /-- An operation names a protocol `p` that is not below `N_PROTO` (R120, R184). Raised by the meanings
  that take a `p`. Safe: nothing is claimed of a demodulator that does not exist (log entry 11). -/
  | noSuchProtocol
  /-- `TBL_APPEND` with a full table: slot `TBL_CAP` does not exist (R18, R44). Raised by `execTblAppend`.
  Safe; a `FALL` never appends to a full table (R109, log entry 13). -/
  | noTableSlot
  deriving DecidableEq, Repr

/-- Why the model has no meaning for a step. -/
inductive Refusal where
  /-- An instruction of the opcode table that has no meaning yet. Raised by `exec` only. Safe. -/
  | notModelled (mnemonic : String)
  /-- The configuration fails one of the first five conditions of R4: "A model refuses a configuration that
  fails one of the first five". Raised by `step`. Safe (log entry 20). -/
  | illFormedConfig
  deriving DecidableEq, Repr

/-- The outcome of a step or of one operation. -/
abbrev Result := Host.Outcome State Fault Refusal

end Sys2Proof.Machine
end

