-- ==== Sys2Proof/Machine/Ops.lean ====
section
/-! DEFINITION. The shared operations over storage, ports and state that the meanings are written with:
byte storage, the BitBuffer, the event list, the clear of a capture (R88, R129), and the recovery from
every exceptional condition (R170 to R181). The block has no trap entry and no return (R180, R181). -/

namespace Sys2Proof.Machine

/-! ## Byte storage -/

/-- The byte at an address; an address that is not listed reads 0 (R48). -/
def Memory.read : Memory → Nat → Byte
  | [], _ => 0
  | (a', v) :: m, a => if a = a' then v else Memory.read m a

/-- Store a byte, keeping addresses rising and zeros unlisted. -/
def Memory.write : Memory → Nat → Byte → Memory
  | [], a, v => if v = 0 then [] else [(a, v)]
  | (a', v') :: m, a, v =>
    if a < a' then (if v = 0 then (a', v') :: m else (a, v) :: (a', v') :: m)
    else if a = a' then (if v = 0 then m else (a, v) :: m)
    else (a', v') :: Memory.write m a v

/-- The canonical form: addresses strictly rising, no byte 0 listed. -/
def Memory.wf : Memory → Bool
  | [] => true
  | (a, v) :: m => decide (v ≠ 0) && m.all (fun cell => decide (a < cell.1)) && Memory.wf m

/-! ## The BitBuffer as bytes and bits -/

/-- The address of byte `(r, col)` in a BitBuffer's storage (R40, log entry 8). -/
def bbAddr (c : Config) (r col : Nat) : Nat := r * c.bbCols + col

/-- `bb[p][r][col]` (R23). -/
def Demod.byte (c : Config) (d : Demod) (r col : Nat) : Byte := d.bb.read (bbAddr c r col)

/-- Row `r` of a BitBuffer: its `BB_COLS` bytes in ascending column order (R41). -/
def Demod.rowBytes (c : Config) (d : Demod) (r : Nat) : List Byte :=
  (List.range c.bbCols).map (d.byte c r)

/-- All rows of a BitBuffer (R68, the field `bb[p]` of `BitBufferDone`). -/
def Demod.rows (c : Config) (d : Demod) : List (List Byte) :=
  (List.range c.bbRows).map (d.rowBytes c)

/-- Stream bit `k` of a byte sequence, most significant bit of a byte first (R41); 0 past its end, where
no rule reads (R44). -/
def streamBit (buf : List Byte) (k : Nat) : Bool := (buf.getD (k / 8) 0).getLsbD (7 - k % 8)

/-- `BBbit(p, r, k)` (R8): stream bit `k` of row `r`. -/
def Demod.bit (c : Config) (d : Demod) (r k : Nat) : Bool :=
  (d.byte c r (k / 8)).getLsbD (7 - k % 8)

/-- `row_bits[p][r]` (R25). -/
def Demod.rowBitsAt (d : Demod) (r : Nat) : Nat := d.rowBits.getD r 0

/-- The available rows `A`, ascending (R142). -/
def Demod.avail (c : Config) (d : Demod) : List Nat :=
  (List.range c.bbRows).filter (fun r => decide (0 < d.rowBitsAt r))

/-! ## Writing a BitBuffer -/

/-- The bit position after one bit (R121): 7 counts down to 0, and 0 goes back to 7. -/
def nextBitpos (b : Fin 8) : Fin 8 :=
  if b = 0 then 7 else ⟨b.val - 1, by omega⟩

/-- A bit that arrives past the end is dropped and leaves only `trunc` behind (R127). -/
def Demod.truncate (d : Demod) : Demod := { d with trunc := true }

/-- The cursor is past the last row or past the last column of its row (R24, R127). Written with `≥`, which
is the rule's `=` for every cursor the block can hold (log entry 16). -/
def Demod.pastEnd (c : Config) (d : Demod) : Bool := decide (c.bbRows ≤ d.row ∨ c.bbCols ≤ d.col)

/-- The byte at the cursor with the cursor's bit set (R121). -/
def Demod.orBit (c : Config) (d : Demod) : Memory :=
  d.bb.write (bbAddr c d.row d.col) (d.byte c d.row d.col ||| 1#8 <<< d.bitpos.val)

/-- Store one bit at the cursor and advance it (R121, the cursor not past the end). -/
def Demod.storeBit (c : Config) (b : Bool) (d : Demod) : Demod :=
  { d with
    bb      := if b then d.orBit c else d.bb
    rowBits := d.rowBits.modify d.row (· + 1)
    bitpos  := nextBitpos d.bitpos
    col     := if d.bitpos = 0 then d.col + 1 else d.col }

/-- `add_bit(p, b)` (R121). -/
def Demod.addBit (c : Config) (b : Bool) (d : Demod) : Demod :=
  if d.pastEnd c then d.truncate else d.storeBit c b

/-- `next_row(p)` (R122): the row saturates at `BB_ROWS`. -/
def Demod.nextRow (c : Config) (d : Demod) : Demod :=
  { d with
    row    := if d.row < c.bbRows then d.row + 1 else d.row
    col    := 0
    bitpos := 7 }

/-- `bb_clear(p)` (R129): `m_last` keeps its value. -/
def Demod.clear (c : Config) (d : Demod) : Demod :=
  { d with
    bb      := []
    row     := 0
    col     := 0
    bitpos  := 7
    rowBits := List.replicate c.bbRows 0
    trunc   := false
    mValid  := false }

/-! ## Ports -/

/-- `emit E` (R8): append an event to the step's ordered list. -/
def State.emit (e : Event) (s : State) : State := { s with events := s.events ++ [e] }

/-- Append several events in order. -/
def State.emitAll (es : List Event) (s : State) : State := { s with events := s.events ++ es }

/-- Answer with the value of an operation that writes no state. -/
def State.answer (v : OpResult) (s : State) : State := { s with result := some v }

/-- The command word presented in a clock cycle without reset: with `in_valid = 0` the cycle is the same as
an accepted `IDLE` (R60), whose word is 0 (R61). -/
def Pins.word (c : Pins) : CmdWord := if c.inValid then c.cmd else 0

/-- The state in which the command of the next cycle runs: the cycle is taken from the input, and the
outputs of the step before are gone, taken or not (R68, R178, R202). -/
def State.beginStep (rest : List Pins) (s : State) : State :=
  { s with input := rest, events := [], result := none }

/-! ## Demodulator updates -/

/-- Replace the demodulator of protocol `p`. -/
def State.setDemod (p : Nat) (d : Demod) (s : State) : State := { s with demods := s.demods.set p d }

/-- Run `k` with the descriptor and the demodulator of protocol `p`; a `p` that is not below `N_PROTO`
names no protocol (log entry 11). -/
def State.withProto (p : Nat) (s : State) (k : Desc → Demod → Result) : Result :=
  match s.cfg.descs[p]?, s.demods[p]? with
  | some desc, some d => k desc d
  | _, _ => .fault .noSuchProtocol

/-- `for p in 0 .. N_PROTO-1`: change every protocol's demodulator with its own descriptor (R106, R130). -/
def State.mapDemods (f : Desc → Demod → Demod) (s : State) : State :=
  { s with demods := s.demods.mapIdx (fun p d =>
      match s.cfg.descs[p]? with
      | some desc => f desc d
      | none => d) }

/-- `capture_clear()` (R88). -/
def State.captureClear (s : State) : State :=
  { s with
    tbl     := []
    sigOpen := false
    demods  := s.demods.map (·.clear s.cfg) }

/-! ## Exceptional conditions -/

/-- The conditions of R170. A rejected message names its reason; a reader error its kind. -/
inductive Condition where
  | rejected (code : Reason)
  | reader (e : RdErr)
  | tableOverflow (at_ : Word)
  | bufferOverflow (p : Nat)
  | reservedCommand
  deriving DecidableEq, Repr

/-- `raise X(info)` (R8): the recovery from a condition, its state after as R180 lists it. There is no trap
entry, no saved state and no return: the block is scanning again when the step ends (R181).
A rejected message and a reader error change no state (R171, R172, R175); a table overflow aborts the
signal (R173, R109); a BitBuffer overflow sets `trunc[p]` (R174); a reserved command sets `badcmd` (R176). -/
def State.raise : Condition → State → State
  | .rejected _, s => s
  | .reader _, s => s
  | .tableOverflow n, s => (({ s with tblOvf := true } : State).emit (.tableOverflow n)).captureClear
  | .bufferOverflow p, s => { s with demods := s.demods.modify p Demod.truncate }
  | .reservedCommand, s => { s with badcmd := true }

end Sys2Proof.Machine
end

