-- ==== Sys2Proof/Machine/Operands.lean ====
section
/-! DEFINITION. The operand forms: the sample, the comparisons of lengths and gaps with the limits, and the
three reads of a byte sequence (`read_bits`, `nib`, `sext`). -/

namespace Sys2Proof

/-- `x mod 2^IDX_W`: how every index, length and gap is reduced (R3, R6). The rules write it with R3's default,
`mod 2^32` (R12, R18, R19, R82, R103, R107, R126; log entry 7). -/
def Config.wrap (c : Config) (x : Word) : Word := (x.setWidth c.idxW).setWidth 32

/-- `SHORT[p]`, `LONG[p]`, `RESET[p]`: the unsigned `IDX_W`-bit numbers (R3) in the low bits of their fields (log
entry 7). -/
def Config.wrapLimits (c : Config) (lim : Limits) : Limits where
  short := c.wrap lim.short
  long  := c.wrap lim.long
  reset := c.wrap lim.reset

end Sys2Proof

namespace Sys2Proof.Machine

/-- The `SAMPLE` operand `v = sext_16(data)` (R63): the value of a `SAMPLE_W`-bit two's-complement number (R3),
in the low `SAMPLE_W` bits of the field (log entry 7). -/
def sampleValue (c : Config) (data : Sample) : Int := (data.setWidth c.sampleW).toInt

/-- The comparator: `hi = 1` when `v ≥ LEVEL_LIMIT`, both read as signed `SAMPLE_W`-bit numbers (R100). -/
def comparator (c : Config) (data : Sample) : Bool :=
  decide (sampleValue c c.levelLimit ≤ sampleValue c data)

/-- The edge word `{hi, pulse_open}` (R62). -/
def edgeWord (hi pulseOpen : Bool) : EdgeWord := BitVec.ofBool hi ++ BitVec.ofBool pulseOpen

/-- The midpoint test `2 × x ≥ SHORT + LONG`, on integers (R72, R124, R125): `x` is long. -/
def isLong (c : Config) (lim : Limits) (x : Word) : Bool :=
  decide ((c.wrapLimits lim).short.toNat + (c.wrapLimits lim).long.toNat ≤ 2 * x.toNat)

/-- A gap exceeds `RESET` (R123): strictly. -/
def exceedsReset (c : Config) (lim : Limits) (gap : Word) : Bool :=
  decide ((c.wrapLimits lim).reset.toNat < gap.toNat)

/-- More than one and a half half-bit windows, `2 × d > 3 × SHORT`, on integers (R72, R126). -/
def exceedsHalfBits (c : Config) (lim : Limits) (d : Word) : Bool :=
  decide (3 * (c.wrapLimits lim).short.toNat < 2 * d.toNat)

/-- The quiet count `(n + 1 - last_end) mod 2^IDX_W` exceeds `QUIET_WINDOW` (R107): strictly. -/
def exceedsQuiet (c : Config) (n lastEnd : Word) : Bool :=
  decide (c.quietWindow.toNat < (c.wrap (n + 1 - lastEnd)).toNat)

/-! ## Reading a byte sequence -/

/-- The loop of R90: stream bit `off + i` is worth `2^i`, for the `width` bits from `off` on. -/
def readLoop (buf : List Byte) : Nat → Nat → Nat
  | 0, _ => 0
  | width + 1, off => (streamBit buf off).toNat + 2 * readLoop buf width (off + 1)

/-- `read_bits(buf, width, off)` (R90) with its errors: `WIDTH` first (R91), then `BOUNDS` on the whole
field (R92); `value` is 0 with an error (R71). -/
def readBits (buf : List Byte) (width off : Nat) : Response :=
  if 16 < width then { err := .width, value := 0 }
  else if 8 * buf.length < off + width then { err := .bounds, value := 0 }
  else { err := .none, value := BitVec.ofNat 16 (readLoop buf width off) }

/-- Set stream bit `k` of a byte sequence. -/
def setStreamBit (buf : List Byte) (k : Nat) (b : Bool) : List Byte :=
  buf.modify (k / 8) (fun x =>
    let m := 1#8 <<< (7 - k % 8)
    if b then x ||| m else x &&& ~~~m)

/-- `write_bits(buf, width, off, val)` (R94): stream bit `off + i` becomes `val[i]`. No operation of the
block: it stands for the round-trip property only. -/
def writeBits (buf : List Byte) : Nat → Nat → Nat → List Byte
  | 0, _, _ => buf
  | width + 1, off, val => writeBits (setStreamBit buf off (val.testBit 0)) width (off + 1) (val / 2)

/-- `nib(row, j)` (R96): nibble `j` in stream order, not reversed. -/
def nibAt (row : List Byte) (j : Nat) : BitVec 4 :=
  if j % 2 = 0 then (row.getD (j / 2) 0).extractLsb' 4 4 else (row.getD (j / 2) 0).extractLsb' 0 4

/-- `sext_N(v)` (R95), on integers. -/
def sextN (n v : Nat) : Int := if v.testBit (n - 1) then (v : Int) - 2 ^ n else v

end Sys2Proof.Machine
end

