-- ==== Sys2Proof/Machine/Flags.lean ====
section
/-! DEFINITION. The flags and the read-only words that present them (R21, R22), and the codes and packed
forms of the output records (R67 to R71). -/

namespace Sys2Proof.Machine

/-- The status word `ST` (R22): bits 15:5 read as 0. -/
def State.st (s : State) : BitVec 16 :=
  0#11 ++ (BitVec.ofBool s.badcmd ++ (BitVec.ofBool s.tblOvf ++ (BitVec.ofBool s.halted ++
    (BitVec.ofBool s.sigOpen ++ BitVec.ofBool s.pulseOpen))))

/-- `CFG_LEVEL` (R22): `LEVEL_LIMIT`, a signed `SAMPLE_W`-bit number (R3), in 16 bits. -/
def State.cfgLevel (s : State) : BitVec 16 := BitVec.ofInt 16 (sampleValue s.cfg s.cfg.levelLimit)

/-- `CFG_QUIET` (R22). -/
def State.cfgQuiet (s : State) : BitVec 32 := s.cfg.quietWindow

/-- `CFG_TBLCAP` (R22). -/
def State.cfgTblCap (s : State) : BitVec 32 := s.cfg.tblCap

/-- `CFG_NPROTO` (R22), 16 bits; from 65536 protocols on, the low ones (log entry 17). -/
def State.cfgNProto (s : State) : BitVec 16 := BitVec.ofNat 16 s.cfg.nProto

/-- `CFG_DESC[p]` (R22, R64), with the limits of `IDX_W` bits (R3). -/
def State.cfgDesc (s : State) (p : Nat) : Option DescWord :=
  (s.cfg.descs[p]?).map fun d => encodeDesc { d with limits := s.cfg.wrapLimits d.limits }

/-- `gap[i] = (tbl[i+1].start - tbl[i].end) mod 2^IDX_W` for the slots of the table (R19). -/
def gapsOf (c : Config) : List PulseEvent → List Word
  | a :: b :: rest => c.wrap (b.start - a.stop) :: gapsOf c (b :: rest)
  | _ => []

/-- `tbl_count` (R18). -/
def State.tblCount (s : State) : Nat := s.tbl.length

/-- The codes of R70. -/
def Reason.code : Reason → BitVec 3
  | .ok => 0
  | .noRows => 1
  | .rowMismatch => 2
  | .framingStop => 3
  | .framingCount => 4
  | .checksumXor => 5
  | .checksumSum => 6
  | .bounds => 7

/-- The codes of the response's `err` field (R71). -/
def RdErr.code : RdErr → BitVec 2
  | .none => 0
  | .width => 1
  | .bounds => 2

/-- The response `{err, value}` (R71). -/
def Response.pack (r : Response) : BitVec 18 := r.err.code ++ r.value

/-- The tags of R68. -/
def Event.tag : Event → BitVec 3
  | .signalOpened _ => 0
  | .pulse _ => 1
  | .tableOverflow _ => 2
  | .signalClosed _ _ _ _ _ => 3
  | .bufferDone _ _ _ _ _ _ _ => 4
  | .verdict _ => 5

/-- The number of payload items (R69). -/
def Payload.count : Payload → Nat
  | .none => 0
  | .field _ => 1
  | .bytes d => d.length
  | .nibbles d => d.length

/-- The `Verdict` record of a verifier's end (R69, R141): `reason` is `OK` exactly when accepted; `plen` is 0
when rejected; `info` and `plen` are 4-bit fields (log entry 17). -/
def Verdict.ofJudgement (p : Nat) (v : VSel) : Judgement → Verdict
  | .accept payload =>
    { p := BitVec.ofNat 16 p, vsel := v, accept := true, reason := .ok, info := 0,
      plen := BitVec.ofNat 4 payload.count, payload := payload }
  | .reject code info =>
    { p := BitVec.ofNat 16 p, vsel := v, accept := false, reason := code,
      info := BitVec.ofNat 4 info, plen := 0, payload := .none }

end Sys2Proof.Machine
end

