-- ==== Sys2Proof/Machine/Reader.lean ====
section
/-! DEFINITION. The bitstream reader and the field helpers: `RDBITS`, `SEXT`, `NIB`
(spec/41_bitstream_reader.md). They write no state; the value goes to the model's port `result` (log
entry 4). -/

namespace Sys2Proof.Machine

/-- `RDBITS` (R90 to R93). -/
def execRdbits (width : BitVec 5) (off : BitVec 16) (buf : List Byte) (s : State) : Result :=
  .next (s.answer (.response (readBits buf width.toNat off.toNat)))

/-- The value `SEXT` answers (R95), as a 16-bit two's-complement word. Outside `1 ≤ N ≤ 16`, `v < 2^N` the rule
states no result: a free value (log entry 12). -/
def sextResult (n : Nat) (v : BitVec 16) : BitVec 16 :=
  if 1 ≤ n ∧ n ≤ 16 ∧ v.toNat < 2 ^ n then BitVec.ofInt 16 (sextN n v.toNat) else Config.sextOutside n v

/-- `SEXT` (R95). -/
def execSext (n : Nat) (v : BitVec 16) (s : State) : Result := .next (s.answer (.sext (sextResult n v)))

/-- `NIB` (R96). A nibble past the end of the sequence is an out-of-bounds read: `BOUNDS` and no data
(R44; DEDUCED, log entry 14). -/
def execNib (buf : List Byte) (j : Nat) (s : State) : Result :=
  if j / 2 < buf.length then .next (s.answer (.nib (nibAt buf j)))
  else .next (s.answer (.rejected .bounds))

end Sys2Proof.Machine
end

