-- ==== Sys2Proof/Machine/Verifiers.lean ====
section
/-! DEFINITION. The verifiers `V_NONE`, `V_RED`, `V_XOR8` (with `ROW_VOTE`) and `V_NIBSUM`
(spec/44_verifiers.md): pure functions of a BitBuffer and the configuration (R140). The checks stand in
the order of their rules and the first that fails gives the reason (R141, R149). -/

namespace Sys2Proof.Machine

/-- A sequence of checks: a value, or the code and info of the first check that failed (R141). -/
abbrev Check := Except (Reason × Nat)

/-- A check: go on when the condition holds, else `reject(code, info)`. -/
def require (cond : Bool) (code : Reason) (info : Nat) : Check Unit :=
  if cond then .ok () else .error (code, info)

/-- How a verifier ends (R141). -/
def Check.judge : Check Payload → Judgement
  | .ok payload => .accept payload
  | .error (code, info) => .reject code info

/-- A `read_bits` of a verifier; an error of the reader is `reject(BOUNDS, 0)` (R146; `WIDTH`
cannot arise there, log entry 19). -/
def readField (buf : List Byte) (width off : Nat) : Check (BitVec 16) :=
  match (readBits buf width off).err with
  | .none => .ok (readBits buf width off).value
  | _ => .error (.bounds, 0)

/-- One framed item: `width` bits and a stop bit that must be 1, else `reject(FRAMING_STOP, i)`
(R147 step 4, R148 steps 3 and 6). -/
def readItem (buf : List Byte) (width i bit : Nat) : Check (BitVec 16) := do
  let v ← readField buf width bit
  let stop ← readField buf 1 (bit + width)
  require (stop != 0) .framingStop i
  .ok v

/-- `count` framed items from `bit` on, numbered from `i`. -/
def readItems (buf : List Byte) (width : Nat) : Nat → Nat → Nat → Check (List (BitVec 16))
  | 0, _, _ => .ok []
  | count + 1, i, bit => do
    let v ← readItem buf width i bit
    let vs ← readItems buf width count (i + 1) (bit + width + 1)
    .ok (v :: vs)

/-! ## V_RED -/

/-- `T12` of R151: nibbles `TEMP_NIB`, `+1`, `+2` of a row, most significant first. -/
def redField12 (c : Config) (row : List Byte) : BitVec 12 :=
  nibAt row c.tempNib ++ (nibAt row (c.tempNib + 1) ++ nibAt row (c.tempNib + 2))

/-- `T = sext_12(T12)` as a signed 16-bit word (R151). -/
def redValue (t12 : BitVec 12) : BitVec 16 := BitVec.ofInt 16 (sextN 12 t12.toNat)

/-- Every row of `rows` agrees with row `a` in every header column (R144 step 3). -/
def redAgree (c : Config) (d : Demod) (a : Nat) (rows : List Nat) : Bool :=
  c.redHdrCols.all (fun col => rows.all (fun r => d.byte c r col == d.byte c a col))

/-- `V_RED` (R144, R151). Without an available row it rejects with `NO_ROWS` whatever `RED_MIN_ROWS` is (R128). -/
def checkRed (c : Config) (d : Demod) : Check Payload :=
  match d.avail c with
  | [] => .error (.noRows, 0)
  | a :: rest => do
    require (decide (c.redMinRows ≤ (a :: rest).length)) .noRows 0
    require (c.redHdrCols.all (fun col => decide (col < c.bbCols)) &&
      decide ((c.tempNib + 2) / 2 < c.bbCols)) .bounds 0
    require (redAgree c d a (a :: rest)) .rowMismatch 0
    .ok (.field (redValue (redField12 c (d.rowBytes c a))))

/-! ## V_XOR8 -/

/-- The pairs of a list, sorted by first and then by second position (R145, pair order). -/
def rowPairs : List Nat → List (Nat × Nat)
  | [] => []
  | a :: rest => rest.map (fun b => (a, b)) ++ rowPairs rest

/-- The byte of column `col` that the first agreeing pair of the voting rows holds (R145 step 3). -/
def voteByte (c : Config) (d : Demod) (voters : List Nat) (col : Nat) : Option Byte :=
  ((rowPairs voters).find? (fun ij => d.byte c ij.1 col == d.byte c ij.2 col)).map
    (fun ij => d.byte c ij.1 col)

/-- `NB`, the number of columns a message of `V_XOR8` spans (R145 step 2). -/
def voteCols (c : Config) : Nat := (c.xor8Start + 9 * c.xor8NBytes + 8 + 7) / 8

/-- `ROW_VOTE` (R145): the combined buffer. -/
def checkVote (c : Config) (d : Demod) : Check (List Byte) := do
  let voters := (d.avail c).take c.majRows
  require (decide (2 ≤ voters.length)) .noRows 0
  require (decide (voteCols c ≤ c.bbCols)) .bounds 0
  match (List.range (voteCols c)).mapM (voteByte c d voters) with
  | some comb => .ok comb
  | none => .error (.rowMismatch, 0)

/-- The running XOR of the values as read (R147, R148), in 8 bits. -/
def xorAll (vs : List (BitVec 16)) : Byte := vs.foldl (fun x v => x ^^^ v.setWidth 8) 0

/-- `V_XOR8` (R145, R147). -/
def checkXor8 (c : Config) (d : Demod) : Check Payload := do
  let comb ← checkVote c d
  let items ← readItems comb 8 c.xor8NBytes 0 c.xor8Start
  let ck ← readField comb 8 (c.xor8Start + 9 * c.xor8NBytes)
  require (ck.setWidth 8 == xorAll items) .checksumXor 0
  .ok (.bytes (items.map (·.setWidth 8)))

/-! ## V_NIBSUM -/

/-- The running sum of the nibbles, in 8 bits (R148). -/
def sumAll (vs : List (BitVec 16)) : Byte := vs.foldl (fun x v => x + v.setWidth 8) 0

/-- The number of further nibbles the type nibble selects (R148 step 4). -/
def nibCount (c : Config) (typeNib : BitVec 16) : Nat :=
  if typeNib.toNat = c.nibLongType then c.nibLongLen else c.nibShortLen

/-- The bits of a message with `n` further nibbles, from the row's start (R148 step 4). -/
def nibTotal (c : Config) (n : Nat) : Nat := c.nibStart + 5 * (n + 1) + 4

/-- `V_NIBSUM` on row `a` (R148 steps 2 to 9). -/
def checkNibsumRow (c : Config) (d : Demod) (a : Nat) : Check Payload := do
  let row := d.rowBytes c a
  require (decide (c.nibStart + 5 ≤ 8 * c.bbCols)) .bounds 0
  let dec0 ← readItem row 4 0 c.nibStart
  let n := nibCount c dec0
  require (decide (nibTotal c n ≤ 8 * c.bbCols)) .bounds 0
  require (decide (nibTotal c n ≤ d.rowBitsAt a)) .framingCount 0
  let rest ← readItems row 4 n 1 (c.nibStart + 5)
  require (xorAll (dec0 :: rest) == 0) .checksumXor 0
  let sr ← readField row 4 (c.nibStart + 5 * (n + 1))
  require (decide (sr.toNat = ((sumAll (dec0 :: rest)).toNat + c.nibSumConst) % 16)) .checksumSum 0
  .ok (.nibbles ((dec0 :: rest).map (·.setWidth 4)))

/-- `V_NIBSUM` (R148): only the lowest available row is examined. -/
def checkNibsum (c : Config) (d : Demod) : Check Payload :=
  match d.avail c with
  | [] => .error (.noRows, 0)
  | a :: _ => checkNibsumRow c d a

/-! ## The selected verifier

Taken alone, a verifier operation is what `BB_DONE` does after its `BitBufferDone` event: it emits the verdict
(log entry 21). -/

/-- `verify(VSEL[p], p)` (R140); `V_NONE` gives no verdict (R143). -/
def verify (c : Config) (d : Demod) : VSel → Option Judgement
  | .vNone => none
  | .vRed => some (checkRed c d).judge
  | .vXor8 => some (checkXor8 c d).judge
  | .vNibsum => some (checkNibsum c d).judge

/-- The `Verdict` event of protocol `p`, when its verifier gives one (R128, R143). -/
def verdictEvents (c : Config) (p : Nat) (v : VSel) (d : Demod) : List Event :=
  match verify c d v with
  | some j => [.verdict (Verdict.ofJudgement p v j)]
  | none => []

/-- `V_NONE` (R143): no verifier runs. -/
def execVNone (_m : Modulation) (_lim : Limits) (p : Nat) (s : State) : Result :=
  s.withProto p fun _ d => .next (s.emitAll (verdictEvents s.cfg p .vNone d))

/-- `V_RED` (R144) on protocol `p`'s BitBuffer: its verdict is emitted (R128, R141). -/
def execVRed (_m : Modulation) (_lim : Limits) (p : Nat) (s : State) : Result :=
  s.withProto p fun _ d => .next (s.emitAll (verdictEvents s.cfg p .vRed d))

/-- `V_XOR8` (R145, R147) on protocol `p`'s BitBuffer: its verdict is emitted (R128, R141). -/
def execVXor8 (_m : Modulation) (_lim : Limits) (p : Nat) (s : State) : Result :=
  s.withProto p fun _ d => .next (s.emitAll (verdictEvents s.cfg p .vXor8 d))

/-- `V_NIBSUM` (R148) on protocol `p`'s BitBuffer: its verdict is emitted (R128, R141). -/
def execVNibsum (_m : Modulation) (_lim : Limits) (p : Nat) (s : State) : Result :=
  s.withProto p fun _ d => .next (s.emitAll (verdictEvents s.cfg p .vNibsum d))

/-- The answer of `ROW_VOTE` taken alone: the combined buffer, or its reject. -/
def voteAnswer (c : Config) (d : Demod) : OpResult :=
  match checkVote c d with
  | .ok comb => .comb comb
  | .error (code, _) => .rejected code

/-- `ROW_VOTE` (R145). The combined buffer is not state: it goes to the port `result` (log entry 4). -/
def execRowVote (p : Nat) (s : State) : Result :=
  s.withProto p fun _ d => .next (s.answer (voteAnswer s.cfg d))

end Sys2Proof.Machine
end

