-- ==== Sys2Proof/Machine/Demodulator.lean ====
section
/-! DEFINITION. The bit-buffer demodulator (spec/43_demodulator.md): `DEMOD`, `ROW_ADV`, `PWM_D`, `PWM_P`,
`MANCH`, `ADD_BIT`, `NEXT_ROW`, `BB_DONE`, `BB_CLEAR`. -/

namespace Sys2Proof.Machine

/-! ## One protocol's demodulator -/

/-- `ROW_ADV` (R123): a gap above `RESET` starts a new row and forgets the last data edge. -/
def Demod.rowAdv (c : Config) (lim : Limits) (r : PulseRecord) (d : Demod) : Demod :=
  match r.gap with
  | some g => if exceedsReset c lim g then { d.nextRow c with mValid := false } else d
  | none => d

/-- `PWM_D` (R124): the gap gives the bit; a gap above `RESET` and a first pulse give none. -/
def Demod.pwmD (c : Config) (lim : Limits) (r : PulseRecord) (d : Demod) : Demod :=
  match r.gap with
  | some g =>
    if exceedsReset c lim g then d
    else d.addBit c (if isLong c lim g then c.pwmdLongBit else !c.pwmdLongBit)
  | none => d

/-- `PWM_P` (R125): the pulse length gives the bit. -/
def Demod.pwmP (c : Config) (lim : Limits) (r : PulseRecord) (d : Demod) : Demod :=
  d.addBit c (if isLong c lim r.length then c.pwmpLongBit else !c.pwmpLongBit)

/-- An edge at sample `t` is a data edge: the first of its row, or more than one and a half half-bit
windows, modulo `2^IDX_W`, after the last one (R126). -/
def Demod.isDataEdge (c : Config) (lim : Limits) (t : Word) (d : Demod) : Bool :=
  !d.mValid || exceedsHalfBits c lim (c.wrap (t - d.mLast))

/-- One edge of a pulse at sample `t`, whose bit is `b` (R126, the loop's body). -/
def Demod.manchEdge (c : Config) (lim : Limits) (t : Word) (b : Bool) (d : Demod) : Demod :=
  if d.isDataEdge c lim t then { d.addBit c b with mLast := t, mValid := true } else d

/-- `MANCH` (R126): the rising edge at `start`, then the falling edge at `end`. -/
def Demod.manch (c : Config) (lim : Limits) (r : PulseRecord) (d : Demod) : Demod :=
  (d.manchEdge c lim r.start c.manchRiseBit).manchEdge c lim r.stop (!c.manchRiseBit)

/-- The modulation a descriptor selects (R120). -/
def Demod.modulate (c : Config) (desc : Desc) (r : PulseRecord) (d : Demod) : Demod :=
  match desc.modulation with
  | .pwmD => d.pwmD c desc.limits r
  | .pwmP => d.pwmP c desc.limits r
  | .manch => d.manch c desc.limits r

/-- `DEMOD` (R120): the row advance, then the modulation. -/
def Demod.demodulate (c : Config) (desc : Desc) (r : PulseRecord) (d : Demod) : Demod :=
  (d.rowAdv c desc.limits r).modulate c desc r

/-- The events of `BB_DONE(p)` (R128): the completed buffer, then its verdict. The event's `p` is 16 bits wide
(log entry 17). -/
def bbDoneEvents (c : Config) (p : Nat) (desc : Desc) (d : Demod) : List Event :=
  .bufferDone (BitVec.ofNat 16 p) (d.rows c) d.rowBits d.row d.col d.bitpos d.trunc ::
    verdictEvents c p desc.vsel d

/-! ## All protocols -/

/-- `for p in 0 .. N_PROTO-1: DEMOD(p, rec)` (R106). -/
def State.demodAll (r : PulseRecord) (s : State) : State := s.mapDemods (fun desc d => d.demodulate s.cfg desc r)

/-- The events of `for p in 0 .. N_PROTO-1: BB_DONE(p)` (R108, R128), in ascending `p`. -/
def State.doneEvents (s : State) : List Event :=
  (List.range s.cfg.nProto).flatMap (fun p =>
    match s.cfg.descs[p]?, s.demods[p]? with
    | some desc, some d => bbDoneEvents s.cfg p desc d
    | _, _ => [])

/-! ## Meanings

Taken alone, a modulation uses the limits of its descriptor word; inside `DEMOD` these are the protocol's own
(log entry 21). -/

/-- `PWM_D` (R124) with the limits of its descriptor word. -/
def execPwmD (_v : VSel) (lim : Limits) (p : Nat) (r : PulseRecord) (s : State) : Result :=
  s.withProto p fun _ d => .next (s.setDemod p (d.pwmD s.cfg lim r))

/-- `PWM_P` (R125) with the limits of its descriptor word. -/
def execPwmP (_v : VSel) (lim : Limits) (p : Nat) (r : PulseRecord) (s : State) : Result :=
  s.withProto p fun _ d => .next (s.setDemod p (d.pwmP s.cfg lim r))

/-- `MANCH` (R126) with the limits of its descriptor word. -/
def execManch (_v : VSel) (lim : Limits) (p : Nat) (r : PulseRecord) (s : State) : Result :=
  s.withProto p fun _ d => .next (s.setDemod p (d.manch s.cfg lim r))

/-- `DEMOD` (R120) with the descriptor of protocol `p`. -/
def execDemod (p : Nat) (r : PulseRecord) (s : State) : Result :=
  s.withProto p fun desc d => .next (s.setDemod p (d.demodulate s.cfg desc r))

/-- `ROW_ADV` (R123) with `RESET[p]`. -/
def execRowAdv (p : Nat) (r : PulseRecord) (s : State) : Result :=
  s.withProto p fun desc d => .next (s.setDemod p (d.rowAdv s.cfg desc.limits r))

/-- `ADD_BIT` (R121, R127). -/
def execAddBit (p : Nat) (b : Bool) (s : State) : Result :=
  s.withProto p fun _ d => .next (s.setDemod p (d.addBit s.cfg b))

/-- `NEXT_ROW` (R122). -/
def execNextRow (p : Nat) (s : State) : Result :=
  s.withProto p fun _ d => .next (s.setDemod p (d.nextRow s.cfg))

/-- `BB_DONE` (R128). -/
def execBbDone (p : Nat) (s : State) : Result :=
  s.withProto p fun desc d => .next (s.emitAll (bbDoneEvents s.cfg p desc d))

/-- `BB_CLEAR` (R129). -/
def execBbClear (p : Nat) (s : State) : Result :=
  s.withProto p fun _ d => .next (s.setDemod p (d.clear s.cfg))

end Sys2Proof.Machine
end

