-- ==== Sys2Proof/Machine/Extractor.lean ====
section
/-! DEFINITION. The pulse extractor (spec/42_pulse_extractor.md): the edge operations `RISE`, `HOLD`, `FALL`,
`LOW` and the sub-operations `SIG_OPEN`, `TBL_APPEND`, `TBL_ABORT`, `SIG_CLOSE`. In all of them the sample
index `n` is the state's `idx`, which the `SAMPLE` around them advances afterwards (R82). -/

namespace Sys2Proof.Machine

/-! ## Signal boundary and table -/

/-- `SIG_OPEN(rec)` (R105). -/
def State.openSignal (r : PulseRecord) (s : State) : State :=
  ({ s with sigOpen := true, sigStart := r.start } : State).emit (.signalOpened r.start)

/-- `TBL_APPEND(rec)` (R106), the table not full. -/
def State.appendPulse (r : PulseRecord) (s : State) : State :=
  (({ s with tbl := s.tbl ++ [r.event], lastEnd := r.stop } : State).emit (.pulse r)).demodAll r

/-- `TBL_ABORT(n)` (R109): the recovery from a table overflow. -/
def State.abortSignal (n : Word) (s : State) : State := s.raise (.tableOverflow n)

/-- The `SignalClosed` event (R108). -/
def State.closedEvent (closeIdx : Word) (s : State) : Event :=
  .signalClosed s.sigStart s.lastEnd closeIdx s.tbl.length s.tbl

/-- `SIG_CLOSE(close_idx)` (R108). -/
def State.closeSignal (closeIdx : Word) (s : State) : State :=
  (s.emitAll (s.closedEvent closeIdx :: s.doneEvents)).captureClear

/-- The table is full (R103, R109). Written with `≥`, which is the rule's `=` for every table the block can
hold (log entry 16). -/
def State.tblFull (s : State) : Bool := decide (s.cfg.tblCap.toNat ≤ s.tbl.length)

/-- The quiet check (R107) for the sample with index `n`. -/
def State.quietCheck (n : Word) (s : State) : State :=
  if s.sigOpen && exceedsQuiet s.cfg n s.lastEnd then s.closeSignal n else s

/-! ## Edges -/

/-- The record of the pulse that a falling edge completes (R103, R104). -/
def State.fallRecord (s : State) : PulseRecord where
  start  := s.pulseStart
  stop   := s.idx
  length := s.cfg.wrap (s.idx - s.pulseStart)
  gap    := if s.sigOpen then some (s.cfg.wrap (s.pulseStart - s.lastEnd)) else none

/-- `RISE` (R101). -/
def State.risingEdge (s : State) : State := { s with pulseOpen := true, pulseStart := s.idx }

/-- `FALL` up to its table step (R103): close the pulse and open a signal when none is open. -/
def State.closePulse (s : State) : State :=
  if s.sigOpen then { s with pulseOpen := false }
  else ({ s with pulseOpen := false } : State).openSignal s.fallRecord

/-- `FALL` up to its quiet check (R103): a full table aborts, otherwise the pulse is appended. -/
def State.takePulse (s : State) : State :=
  if s.closePulse.tblFull then s.closePulse.abortSignal s.idx else s.closePulse.appendPulse s.fallRecord

/-- `FALL` (R103): the pulse, then the quiet check for the same sample. -/
def State.fallingEdge (s : State) : State := s.takePulse.quietCheck s.idx

/-- `extractor_step(n, hi)` (R113): the edge operation of `(hi, pulse_open)` (R62). -/
def State.extractorStep (hi : Bool) (s : State) : State :=
  match hi, s.pulseOpen with
  | true, false => s.risingEdge
  | true, true => s
  | false, true => s.fallingEdge
  | false, false => s.quietCheck s.idx

/-! ## Meanings -/

/-- `RISE` (R101). -/
def execRise (s : State) : Result := .next s.risingEdge

/-- `HOLD` (R102): nothing happens but `idx` advancing, which is the `SAMPLE`'s doing (R82). -/
def execHold (s : State) : Result := .next s

/-- `FALL` (R103). -/
def execFall (s : State) : Result := .next s.fallingEdge

/-- `LOW` (R107): the quiet check only. -/
def execLow (s : State) : Result := .next (s.quietCheck s.idx)

/-- `SIG_OPEN` (R105). -/
def execSigOpen (r : PulseRecord) (s : State) : Result := .next (s.openSignal r)

/-- `TBL_APPEND` (R106, "table not full"). A full table has no slot for the pulse (log entry 13). -/
def execTblAppend (r : PulseRecord) (s : State) : Result :=
  if s.tblFull then .fault .noTableSlot else .next (s.appendPulse r)

/-- `TBL_ABORT` (R109). -/
def execTblAbort (n : Word) (s : State) : Result := .next (s.abortSignal n)

/-- `SIG_CLOSE` (R108). -/
def execSigClose (closeIdx : Word) (s : State) : Result := .next (s.closeSignal closeIdx)

end Sys2Proof.Machine
end

