-- ==== Sys2Proof/Machine/Commands.lean ====
section
/-! DEFINITION. The commands (spec/40_commands.md): `IDLE`, `SAMPLE`, `EOS`, `STOP`, `RST` and the reserved
operation codes, with the halted behaviour of R87. -/

namespace Sys2Proof.Machine

/-- The sample index advances by one, modulo `2^IDX_W` (R12, R82). -/
def State.advance (s : State) : State := { s with idx := s.cfg.wrap (s.idx + 1) }

/-- A sample that is accepted while the block is not halted (R82). -/
def State.takeSample (data : Sample) (s : State) : State :=
  (s.extractorStep (comparator s.cfg data)).advance

/-- End of stream while not halted (R83): the incomplete pulse is dropped, an open signal closes at `idx`. -/
def State.endStream (s : State) : State :=
  let s' : State := { s with pulseOpen := false }
  { (if s.sigOpen then s'.closeSignal s.idx else s') with halted := true }

/-- Shutdown while not halted (R84): everything of the capture is dropped without an event. -/
def State.shutDown (s : State) : State :=
  { ({ s with pulseOpen := false } : State).captureClear with halted := true }

/-- Reset (R29, R85, R190): every state element takes its reset value; the configuration stays (R191), and
the ports are no state (log entries 3 and 4). -/
def State.resetAll (s : State) : State :=
  { State.resetWith s.cfg with input := s.input, events := s.events, result := s.result }

/-- `IDLE` (R81): nothing. -/
def execIdle (s : State) : Result := .next s

/-- `SAMPLE` (R82); nothing while halted (R87). -/
def execSample (data : Sample) (s : State) : Result :=
  if s.halted then .next s else .next (s.takeSample data)

/-- `EOS` (R83); nothing while halted (R87). -/
def execEos (s : State) : Result := if s.halted then .next s else .next s.endStream

/-- `STOP` (R84); nothing while halted (R87). -/
def execStop (s : State) : Result := if s.halted then .next s else .next s.shutDown

/-- `RST` (R85), halted or not. -/
def execRst (s : State) : Result := .next s.resetAll

/-- The reserved operation code `0b101` (R86): `badcmd` only, halted or not. -/
def execRsv5 (s : State) : Result := .next (s.raise .reservedCommand)

/-- The reserved operation code `0b110` (R86). -/
def execRsv6 (s : State) : Result := .next (s.raise .reservedCommand)

/-- The reserved operation code `0b111` (R86). -/
def execRsv7 (s : State) : Result := .next (s.raise .reservedCommand)

end Sys2Proof.Machine
end

