-- ==== Sys2Proof/Machine/Dispatch.lean ====
section
/-! DEFINITION. The dispatch: one arm per constructor of Instr, each one call of that instruction's meaning. -/

namespace Sys2Proof.Machine

def exec (i : Instr) (s : State) : Host.Outcome State Fault Refusal :=
  match i with
  -- format CMD
  | .idle => Sys2Proof.Machine.execIdle s
  | .sample data => Sys2Proof.Machine.execSample data s
  | .eos => Sys2Proof.Machine.execEos s
  | .stop => Sys2Proof.Machine.execStop s
  | .rst => Sys2Proof.Machine.execRst s
  | .rsv5 => Sys2Proof.Machine.execRsv5 s
  | .rsv6 => Sys2Proof.Machine.execRsv6 s
  | .rsv7 => Sys2Proof.Machine.execRsv7 s
  -- format EDGE
  | .rise => Sys2Proof.Machine.execRise s
  | .hold => Sys2Proof.Machine.execHold s
  | .fall => Sys2Proof.Machine.execFall s
  | .low => Sys2Proof.Machine.execLow s
  -- format DESC
  | .pwmD v lim p r => Sys2Proof.Machine.execPwmD v lim p r s
  | .pwmP v lim p r => Sys2Proof.Machine.execPwmP v lim p r s
  | .manch v lim p r => Sys2Proof.Machine.execManch v lim p r s
  | .vNone m lim p => Sys2Proof.Machine.execVNone m lim p s
  | .vRed m lim p => Sys2Proof.Machine.execVRed m lim p s
  | .vXor8 m lim p => Sys2Proof.Machine.execVXor8 m lim p s
  | .vNibsum m lim p => Sys2Proof.Machine.execVNibsum m lim p s
  -- format RDB
  | .rdbits width off buf => Sys2Proof.Machine.execRdbits width off buf s
  -- format SUBOP
  | .sigOpen r => Sys2Proof.Machine.execSigOpen r s
  | .tblAppend r => Sys2Proof.Machine.execTblAppend r s
  | .tblAbort n => Sys2Proof.Machine.execTblAbort n s
  | .sigClose closeIdx => Sys2Proof.Machine.execSigClose closeIdx s
  | .demod p r => Sys2Proof.Machine.execDemod p r s
  | .rowAdv p r => Sys2Proof.Machine.execRowAdv p r s
  | .addBit p b => Sys2Proof.Machine.execAddBit p b s
  | .nextRow p => Sys2Proof.Machine.execNextRow p s
  | .bbDone p => Sys2Proof.Machine.execBbDone p s
  | .bbClear p => Sys2Proof.Machine.execBbClear p s
  | .sext n v => Sys2Proof.Machine.execSext n v s
  | .nib buf j => Sys2Proof.Machine.execNib buf j s
  | .rowVote p => Sys2Proof.Machine.execRowVote p s

end Sys2Proof.Machine
end

