-- ==== Sys2Proof/Machine/Fetch.lean ====
section
/-! DEFINITION. The command port: what a clock cycle presents (R60, R190), how a word of the opcode table is
put before the next step (log entries 3, 5 and 6), and the stimulus syntax of R74 and R75. -/

namespace Sys2Proof.Machine

/-! ## One clock cycle -/

/-- The command a clock cycle without reset presents (R60, R61). -/
def Pins.instr (c : Pins) : Instr := decodeCmd c.word

/-- What a cycle does to the state in which it is taken: the reset pin wins over a command presented with
it, which is not accepted (R190, R179 (f); log entry 9); otherwise the command runs (R80). Reset takes hold
between whole steps only: what an `rst` asserted while a step is still running does to that step and to its
events is not said (DESIGN CHOICE, unsafe: log entry 15). -/
def runCycle (c : Pins) (s : State) : Result :=
  if c.rst then .next s.resetAll else exec c.instr s

/-- The cycle after the last one of the input drives nothing (R60: the same as an accepted `IDLE`). -/
def undriven : Pins where
  rst     := false
  inValid := false
  cmd     := 0

/-- The cycle the next step takes, and those after it. -/
def nextCycle : List Pins → Pins × List Pins
  | [] => (undriven, [])
  | c :: rest => (c, rest)

/-! ## Stimulus -/

/-- `S <v>` (R74). -/
def stimSample (v : Int) : CmdWord := cmdWord 0b001 (BitVec.ofInt 16 v)

/-- `RSV <k>` (R74). -/
def stimRsv (k : Nat) : CmdWord := cmdWord (BitVec.ofNat 3 k) 0

/-- `HI <n>` (R75). -/
def stimHi (n : Nat) : List CmdWord := List.replicate n (stimSample 32767)

/-- `LO <n>` (R75). -/
def stimLo (n : Nat) : List CmdWord := List.replicate n (stimSample (-32768))

/-- `PULSE <h> <g>` (R75). -/
def stimPulse (h g : Nat) : List CmdWord := stimHi h ++ stimLo g

/-- `BITS_D "<bits>" <w> <g0> <g1> <ge>` (R75). -/
def stimBitsD (bits : List Bool) (w g0 g1 ge : Nat) : List CmdWord :=
  bits.flatMap (fun b => stimPulse w (if b then g1 else g0)) ++ stimPulse w ge

/-- `BITS_P "<bits>" <h0> <h1> <g>` (R75). -/
def stimBitsP (bits : List Bool) (h0 h1 g : Nat) : List CmdWord :=
  bits.flatMap (fun b => stimPulse (if b then h1 else h0) g)

/-- `QUIET` (R75). -/
def stimQuiet (c : Config) : List CmdWord := stimLo (c.quietWindow.toNat + 1)

/-- One cycle per command word, each with `in_valid = 1` (R60). -/
def drive (words : List CmdWord) : List Pins :=
  words.map (fun w => { rst := false, inValid := true, cmd := w })

/-! ## Presenting a table word -/

/-- Put a command before the cycles still to come. -/
def State.present (w : CmdWord) (s : State) : State := { s with input := drive [w] ++ s.input }

/-- The level limit under which the sample of an edge word is high or low as the word says: no sample is
low under the limit -32768 (R75, R100). -/
def stageLevel (hi : Bool) (level : Sample) : Sample :=
  if !hi && level == BitVec.ofInt 16 (-32768) then 0 else level

/-- Present a `SAMPLE` whose step decodes to the given edge word (R62): the canonical high or low sample
(R75), in 16-bit samples, with `pulse_open` as the word has it, in a block that is not halted. -/
def State.presentEdge (w : EdgeWord) (s : State) : State :=
  let hi := w.getLsbD 1
  { s.present (stimSample (if hi then 32767 else -32768)) with
    cfg := { s.cfg with sampleW := 16, levelLimit := stageLevel hi s.cfg.levelLimit }
    pulseOpen := w.getLsbD 0
    halted := false }

/-- Present a falling edge to a block whose one protocol has the given descriptor, with no signal open: its
`FALL` appends the pulse and demodulates it with that descriptor (R103, R106, R120). -/
def State.presentDesc (desc : Desc) (s : State) : State :=
  let s' := s.presentEdge 0b01
  { s' with
    cfg := { s'.cfg with descs := [desc] }
    demods := [Demod.reset s'.cfg.bbRows]
    sigOpen := false
    tbl := [] }

/-- As `presentDesc`, with no quiet sample allowed: the same step also closes the signal, and its `BB_DONE`
runs the descriptor's verifier (R107, R108, R128). -/
def State.presentVerifier (desc : Desc) (s : State) : State :=
  let s' := s.presentDesc desc
  { s' with cfg := { s'.cfg with quietWindow := 0 } }

/-- Present a word of the opcode table: a command as itself, an edge word and a descriptor word through a
`SAMPLE` that runs them. A reader request comes from a verifier only (R71), so it cannot be presented. -/
def State.presentTableWord (nbits w : Nat) (s : State) : State :=
  match tableCode nbits w with
  | some (.cmd w) => s.present w
  | some (.edge w) => s.presentEdge w
  | some (.modOp w _ _) =>
    match decodeDesc w with
    | .ok desc => s.presentDesc desc
    | .error _ => s
  | some (.verOp w _) =>
    match decodeDesc w with
    | .ok desc => s.presentVerifier desc
    | .error _ => s
  | some (.rdb _ _) => s
  | none => s

end Sys2Proof.Machine
end

