-- ==== Sys2Proof/Machine/Step.lean ====
section
/-! DEFINITION. The step (R80): one clock cycle of the input, with the command it presents. -/

namespace Sys2Proof.Machine

/-- One step. A configuration that fails one of the first five conditions of R4 is refused; otherwise the
next cycle of the input is taken and its command runs to completion, leaving the next state and, in
`events`, the ordered events of this step alone. -/
def step (s : State) : Host.Outcome State Fault Refusal :=
  if s.cfg.admissible then
    runCycle (nextCycle s.input).1 (s.beginStep (nextCycle s.input).2)
  else .refused .illFormedConfig

/-- `s` with a word of the opcode table put before the next step (log entries 3, 5 and 6). -/
def State.withFetchWord (s : State) (nbits w : Nat) : State := s.presentTableWord nbits w

end Sys2Proof.Machine
end

