-- ==== Sys2Proof/Safety.lean ====
section
/-! DEFINITION. What every step keeps: the invariants of spec/10_state.md R28, clause by clause, with the
shape of the state's lists. -/

namespace Sys2Proof.Machine

/-- A demodulator with nothing in it (R28 (a)): an all-zero buffer, cursor `(0, 0, 7)`, no stored bits,
`trunc` and `m_valid` 0. `m_last` may hold a stale value (R27). -/
structure Demod.Empty (c : Config) (d : Demod) : Prop where
  bb      : d.bb = []
  row     : d.row = 0
  col     : d.col = 0
  bitpos  : d.bitpos = 7
  rowBits : d.rowBits = List.replicate c.bbRows 0
  trunc   : d.trunc = false
  mValid  : d.mValid = false

/-- What holds of every demodulator after every step (R24, R25, R28 (f) and (g)), and the canonical form of
its storage. -/
structure Demod.Inv (c : Config) (d : Demod) : Prop where
  /-- The storage is in canonical form and lists no byte outside the buffer. -/
  wf         : d.bb.wf = true
  inside     : ∀ cell ∈ d.bb, cell.1 < c.bbRows * c.bbCols
  /-- One bit count per row (R25). -/
  rows       : d.rowBits.length = c.bbRows
  /-- The cursor's range (R24); past the last column or the last row it stands at a byte's first bit. -/
  rowLe      : d.row ≤ c.bbRows
  colLe      : d.col ≤ c.bbCols
  colEnd     : d.col = c.bbCols → d.bitpos = 7
  rowEnd     : d.row = c.bbRows → d.col = 0 ∧ d.bitpos = 7
  /-- R28 (f). -/
  bitsLe     : ∀ r, d.rowBitsAt r ≤ 8 * c.bbCols
  bitsBelow  : ∀ r, d.row < r → d.rowBitsAt r = 0
  bitsAt     : d.row < c.bbRows → d.rowBitsAt d.row = 8 * d.col + (7 - d.bitpos.val)
  /-- R28 (g). -/
  zeroBeyond : ∀ r k, r < c.bbRows → k < 8 * c.bbCols → d.rowBitsAt r ≤ k → d.bit c r k = false

/-- A word of `IDX_W` bits (R3): an index, a length or a gap. -/
abbrev Fits (c : Config) (x : Word) : Prop := x.toNat < 2 ^ (c.idxW : Nat)

/-- Limits of `IDX_W` bits (R3). -/
abbrev LimitsFit (c : Config) (lim : Limits) : Prop := Fits c lim.short ∧ Fits c lim.long ∧ Fits c lim.reset

/-- Every index that the block holds has `IDX_W` bits (R3, R12, R14, R16, R17, R18, R27). -/
structure State.IndexInv (s : State) : Prop where
  idx        : Fits s.cfg s.idx
  pulseStart : Fits s.cfg s.pulseStart
  sigStart   : Fits s.cfg s.sigStart
  lastEnd    : Fits s.cfg s.lastEnd
  tbl        : ∀ e ∈ s.tbl, Fits s.cfg e.start ∧ Fits s.cfg e.stop ∧ Fits s.cfg e.length
  mLast      : ∀ d ∈ s.demods, Fits s.cfg d.mLast

/-- What holds after every step (R28 (a), (b), (c), (e), (f), (g)), for every configuration that the model
runs. -/
structure State.Inv (s : State) : Prop where
  /-- One demodulator per protocol (R23). -/
  protos  : s.demods.length = s.cfg.nProto
  /-- R28 (a): with no signal open, the capture is empty. -/
  closed  : s.sigOpen = false → s.tbl = [] ∧ ∀ d ∈ s.demods, Demod.Empty s.cfg d
  /-- R28 (b): an open signal has pulses, its start is the first one's and `last_end` the last one's. -/
  openTbl : s.sigOpen = true → 1 ≤ s.tbl.length ∧ s.tbl.length ≤ s.cfg.tblCap.toNat ∧
    s.tbl.head?.map (·.start) = some s.sigStart ∧ s.tbl.getLast?.map (·.stop) = some s.lastEnd
  /-- R28 (c), its first part: lengths are differences modulo `2^IDX_W`. -/
  lengths : ∀ e ∈ s.tbl, e.length = s.cfg.wrap (e.stop - e.start)
  /-- R28 (e). -/
  stopped : s.halted = true → s.pulseOpen = false ∧ s.sigOpen = false
  /-- R28 (f) and (g). -/
  demod   : ∀ d ∈ s.demods, Demod.Inv s.cfg d
  /-- The widths of the indexes. -/
  indexes : s.IndexInv

/-- R28 (d), with what carries it from one step to the next: every gap of the table is at least 1 and at
most `QUIET_WINDOW`, and so is the number of low samples since the last pulse, up to the rise of the pulse
that is open. It holds for `QUIET_WINDOW < 2^IDX_W - 1`, where the quiet count cannot wrap. -/
structure State.GapInv (s : State) : Prop where
  gaps  : ∀ g ∈ gapsOf s.cfg s.tbl, 1 ≤ g.toNat ∧ g.toNat ≤ s.cfg.quietWindow.toNat
  quiet : s.sigOpen = true →
    1 ≤ (s.cfg.wrap ((if s.pulseOpen then s.pulseStart else s.idx) - s.lastEnd)).toNat ∧
    (s.cfg.wrap ((if s.pulseOpen then s.pulseStart else s.idx) - s.lastEnd)).toNat ≤ s.cfg.quietWindow.toNat

end Sys2Proof.Machine
end

