-- ==== Sys2Proof/Certificates/Slice0/Obligations.lean ====
section
/-! DEFINITION. The statements about the block, for the provers. Each docstring names the rule of spec/ it
formalises. Nothing is proved here. -/

section
open Sys2Proof Sys2Proof.Machine

/-! ## Encodings (spec/30_encoding.md) -/

/-- R60 to R71: every operation that has an encoding decodes from it, with every operand as it was. -/
def Obligations.EncodedInstructionDecodesToItself : Prop :=
  ∀ (i : Instr) (code : Code), encode i = some code → decode code = .ok i

/-- The other direction: every encoded operation that decodes is the encoding of its instruction, up to the
`data` bits of a command that ignores them (R73 (b)). -/
def Obligations.DecodedWordIsItsInstructionsWord : Prop :=
  ∀ (code : Code) (i : Instr), decode code = .ok i →
    ∃ code', encode i = some code' ∧
      (∀ w, code = .cmd w → ∃ w', code' = .cmd w' ∧
        w'.extractLsb' 16 3 = w.extractLsb' 16 3 ∧ (w.extractLsb' 16 3 = 0b001#3 → w' = w)) ∧
      ((∀ w, code ≠ .cmd w) → code' = code)

/-- R61: the operation codes, with the command word's fields of R60; `data` is ignored but by `SAMPLE`, whose
operand it is, read as two's complement (R63: 16 bits, R3's default for `SAMPLE_W`). -/
def Obligations.CommandCodesAndTheSampleOperand : Prop :=
  ∀ data : BitVec 16,
    decodeCmd (0b000#3 ++ data) = .idle ∧
    decodeCmd (0b001#3 ++ data) = .sample data ∧
    decodeCmd (0b010#3 ++ data) = .eos ∧
    decodeCmd (0b011#3 ++ data) = .stop ∧
    decodeCmd (0b100#3 ++ data) = .rst ∧
    decodeCmd (0b101#3 ++ data) = .rsv5 ∧
    decodeCmd (0b110#3 ++ data) = .rsv6 ∧
    decodeCmd (0b111#3 ++ data) = .rsv7 ∧
    ∀ c : Config, c.sampleW = 16 →
      sampleValue c data = (if data.toNat < 2 ^ 15 then (data.toNat : Int) else (data.toNat : Int) - 2 ^ 16)

/-- R64, R65, R66: the layout of a descriptor word, the codes of its two selectors, that a legal word has one
descriptor and a descriptor one word, and that exactly `mod = 0b11` is refused. -/
def Obligations.DescriptorWords : Prop :=
  (∀ d : Desc,
    (encodeDesc d).extractLsb' 98 2 =
      (match d.modulation with | .pwmD => 0b00#2 | .pwmP => 0b01#2 | .manch => 0b10#2) ∧
    (encodeDesc d).extractLsb' 96 2 =
      (match d.vsel with | .vNone => 0b00#2 | .vRed => 0b01#2 | .vXor8 => 0b10#2 | .vNibsum => 0b11#2) ∧
    (encodeDesc d).extractLsb' 64 32 = d.limits.short ∧
    (encodeDesc d).extractLsb' 32 32 = d.limits.long ∧
    (encodeDesc d).extractLsb' 0 32 = d.limits.reset ∧
    decodeDesc (encodeDesc d) = .ok d) ∧
  (∀ w d, decodeDesc w = .ok d → encodeDesc d = w) ∧
  (∀ w, decodeDesc w = .error .reservedModulation ↔ w.extractLsb' 98 2 = 0b11#2)

/-- Words written out from the spec's tables (R61, R62, R64, R71, R74) decode to what they stand for. -/
def Obligations.WrittenWordsDecode : Prop :=
  decode (.cmd 0x10064#19) = .ok (.sample 100) ∧
  decode (.cmd 0x18000#19) = .ok (.sample 0x8000) ∧
  decode (.cmd 0x21234#19) = .ok .eos ∧
  decode (.cmd 0x60000#19) = .ok .rsv6 ∧
  decode (.edge 0b10#2) = .ok .rise ∧
  decode (.edge 0b01#2) = .ok .fall ∧
  (∀ r, decode (.modOp 0x5000000020000000600000014#100 0 r) = .ok (.pwmP .vRed ⟨2, 6, 20⟩ 0 r)) ∧
  decode (.verOp 0x2000000020000000A00000014#100 1) = .ok (.vXor8 .pwmD ⟨2, 10, 20⟩ 1) ∧
  (∀ buf, decode (.rdb 0x80004#21 buf) = .ok (.rdbits 8 4 buf))

/-! ## The step (R60, R80) and reset (R29) -/

/-- R60, R80, R190: with the next cycle taken from the input and the outputs of the step before gone, step is
exec of the command that the cycle presents; a cycle with `in_valid = 0` is an `IDLE`, and the reset input runs
`RST` whatever command stands beside it. The model's own choice (log entry 3): when no cycle is left, nothing is
driven, which is an `IDLE`. -/
def Obligations.StepRunsThePresentedCommand : Prop :=
  ∀ (s : State) (w : BitVec 19) (v : Bool) (rest : List Pins), s.cfg.admissible = true →
    (s.input = { rst := false, inValid := true, cmd := w } :: rest →
      step s = exec (decodeCmd w) { s with input := rest, events := [], result := none }) ∧
    (s.input = { rst := false, inValid := false, cmd := w } :: rest →
      step s = exec .idle { s with input := rest, events := [], result := none }) ∧
    (s.input = { rst := true, inValid := v, cmd := w } :: rest →
      step s = exec .rst { s with input := rest, events := [], result := none }) ∧
    (s.input = [] → step s = exec .idle { s with events := [], result := none })

/-- R80, "total": under a configuration that meets the first five conditions of R4 every step answers a next
state; R4: "A model refuses a configuration that fails one of the first five". -/
def Obligations.StepCompletesOrRefusesTheConfiguration : Prop :=
  ∀ s : State,
    (1 ≤ s.cfg.tblCap.toNat → 1 ≤ s.cfg.bbRows → 1 ≤ s.cfg.bbCols → ∃ t, step s = .next t) ∧
    ((s.cfg.tblCap.toNat = 0 ∨ s.cfg.bbRows = 0 ∨ s.cfg.bbCols = 0) → step s = .refused .illFormedConfig)

/-- R29, for every configuration: the value of every state element after reset, and `ST = 0x0000`. -/
def Obligations.ResetValues : Prop :=
  ∀ c : Config,
    (State.resetWith c).idx = 0 ∧ (State.resetWith c).pulseOpen = false ∧ (State.resetWith c).pulseStart = 0 ∧
    (State.resetWith c).sigOpen = false ∧ (State.resetWith c).sigStart = 0 ∧ (State.resetWith c).lastEnd = 0 ∧
    (State.resetWith c).tbl = [] ∧ (State.resetWith c).halted = false ∧ (State.resetWith c).tblOvf = false ∧
    (State.resetWith c).badcmd = false ∧ (State.resetWith c).st = 0x0000#16 ∧ (State.resetWith c).cfg = c ∧
    (State.resetWith c).demods.length = c.nProto ∧
    (∀ d ∈ (State.resetWith c).demods,
      (∀ r col, d.byte c r col = 0x00#8) ∧ d.row = 0 ∧ d.col = 0 ∧ d.bitpos = 7 ∧
      d.rowBits = List.replicate c.bbRows 0 ∧ d.trunc = false ∧ d.mValid = false ∧ d.mLast = 0)

/-- R22: the status word bit by bit, bits 15:5 zero, its reset value, and the read-only configuration words
(`N_PROTO` where it fits the 16 bits of its word, `LEVEL_LIMIT` a number of `SAMPLE_W` bits and the limits numbers of
`IDX_W` bits, as R3 has them). -/
def Obligations.StatusAndConfigurationWords : Prop :=
  ∀ s : State,
    s.st.getLsbD 0 = s.pulseOpen ∧ s.st.getLsbD 1 = s.sigOpen ∧ s.st.getLsbD 2 = s.halted ∧
    s.st.getLsbD 3 = s.tblOvf ∧ s.st.getLsbD 4 = s.badcmd ∧ (∀ i, 5 ≤ i → s.st.getLsbD i = false) ∧
    (State.resetWith s.cfg).st = 0x0000#16 ∧
    ((s.cfg.levelLimit.setWidth s.cfg.sampleW).toInt = s.cfg.levelLimit.toInt → s.cfgLevel = s.cfg.levelLimit) ∧
    s.cfgQuiet = s.cfg.quietWindow ∧ s.cfgTblCap = s.cfg.tblCap ∧
    (s.cfg.descs.length < 2 ^ 16 → s.cfgNProto.toNat = s.cfg.descs.length) ∧
    (∀ p d, s.cfg.descs[p]? = some d → LimitsFit s.cfg d.limits → s.cfgDesc p = some (encodeDesc d))

/-! ## The commands (spec/40_commands.md) -/

/-- R81: `IDLE` changes nothing, halted or not, and emits nothing; `idx` does not advance. -/
def Obligations.IdleChangesNothing : Prop := ∀ s : State, exec .idle s = .next s

/-- R85: the `RST` command puts every state element at its reset value, halted or not, and emits nothing; the
configuration stays. -/
def Obligations.ResetCommandGivesTheResetState : Prop :=
  ∀ s : State, exec .rst s =
    .next { State.resetWith s.cfg with input := s.input, events := s.events, result := s.result }

/-- R82 with R100, R62 and R113: a `SAMPLE` that is not ignored runs the edge operation that the comparator and
`pulse_open` select, and then `idx` advances by one modulo `2^32`; while halted it does nothing. The widths are
R3's defaults; for the others see `IndexArithmeticIsModuloIdxW`. -/
def Obligations.SampleRunsItsEdgeOperation : Prop :=
  ∀ (s : State) (data : BitVec 16) (hi : Bool), s.cfg.sampleW = 16 → s.cfg.idxW = 32 →
    hi = decide (s.cfg.levelLimit.toInt ≤ data.toInt) →
    (s.halted = true → exec (.sample data) s = .next s) ∧
    (s.halted = false → ∃ t,
      (hi = true → s.pulseOpen = false → exec .rise s = .next t) ∧
      (hi = true → s.pulseOpen = true → exec .hold s = .next t) ∧
      (hi = false → s.pulseOpen = true → exec .fall s = .next t) ∧
      (hi = false → s.pulseOpen = false → exec .low s = .next t) ∧
      exec (.sample data) s = .next { t with idx := s.idx + 1 })

/-- R83: `EOS` drops the open pulse, closes an open signal at `idx`, and halts; while halted it does nothing. -/
def Obligations.EosClosesTheOpenSignalAndHalts : Prop :=
  ∀ s : State,
    (s.halted = true → exec .eos s = .next s) ∧
    (s.halted = false → s.sigOpen = false → exec .eos s = .next { s with pulseOpen := false, halted := true }) ∧
    (s.halted = false → s.sigOpen = true → ∃ t, exec (.sigClose s.idx) { s with pulseOpen := false } = .next t ∧
      exec .eos s = .next { t with halted := true })

/-- R84 with R88 and R129: `STOP` drops everything of the capture without an event, and halts; while halted it
does nothing. -/
def Obligations.StopDropsTheOpenSignalAndHalts : Prop :=
  ∀ s : State,
    (s.halted = true → exec .stop s = .next s) ∧
    (s.halted = false → exec .stop s = .next { s with
      pulseOpen := false
      sigOpen := false
      tbl := []
      halted := true
      demods := s.demods.map (fun d =>
        { d with bb := [], row := 0, col := 0, bitpos := 7, rowBits := List.replicate s.cfg.bbRows 0,
                 trunc := false, mValid := false }) })

/-- R86: a reserved operation code sets `badcmd`, halted or not, and changes nothing else. -/
def Obligations.ReservedCommandsOnlySetBadcmd : Prop :=
  ∀ s : State,
    exec .rsv5 s = .next { s with badcmd := true } ∧
    exec .rsv6 s = .next { s with badcmd := true } ∧
    exec .rsv7 s = .next { s with badcmd := true }

/-- R87: while halted, `IDLE`, `SAMPLE`, `EOS` and `STOP` change nothing, not even `idx`, and emit nothing;
`RST` resets; a reserved operation code sets `badcmd`. -/
def Obligations.HaltedBlockIgnoresCommands : Prop :=
  ∀ (s : State) (data : BitVec 16), s.halted = true →
    exec .idle s = .next s ∧ exec (.sample data) s = .next s ∧ exec .eos s = .next s ∧ exec .stop s = .next s ∧
    exec .rst s = .next { State.resetWith s.cfg with input := s.input, events := s.events, result := s.result } ∧
    exec .rsv5 s = .next { s with badcmd := true } ∧ exec .rsv6 s = .next { s with badcmd := true } ∧
    exec .rsv7 s = .next { s with badcmd := true }

/-! ## The pulse extractor (spec/42_pulse_extractor.md) -/

/-- R101: `RISE` opens a pulse at this sample, without an event; R102: `HOLD` changes nothing of its own. -/
def Obligations.RiseOpensAPulseAndHoldKeepsIt : Prop :=
  ∀ s : State, exec .rise s = .next { s with pulseOpen := true, pulseStart := s.idx } ∧ exec .hold s = .next s

/-- R103 with R104: `FALL` closes the pulse and makes its record (the gap is that to the last pulse of the
same signal, the first pulse of a signal has none); a signal opens if none is; a full table aborts, otherwise
the pulse is appended; then the quiet check runs for the same sample, as `LOW` does. The differences are modulo
`2^32`, at R3's default for `IDX_W`. -/
def Obligations.FallCompletesThePulse : Prop :=
  ∀ (s : State) (r : PulseRecord), s.cfg.idxW = 32 →
    r = { start := s.pulseStart, stop := s.idx, length := s.idx - s.pulseStart
          gap := if s.sigOpen then some (s.pulseStart - s.lastEnd) else none } →
    s.tbl.length ≤ s.cfg.tblCap.toNat →
    ∃ s₂ s₃ t,
      (s.sigOpen = true → s₂ = { s with pulseOpen := false }) ∧
      (s.sigOpen = false → exec (.sigOpen r) { s with pulseOpen := false } = .next s₂) ∧
      (s₂.tbl.length = s₂.cfg.tblCap.toNat → exec (.tblAbort s.idx) s₂ = .next s₃) ∧
      (s₂.tbl.length ≠ s₂.cfg.tblCap.toNat → exec (.tblAppend r) s₂ = .next s₃) ∧
      exec .low s₃ = .next t ∧ exec .fall s = .next t

/-- R107: `LOW` closes the open signal when the quiet count `(n + 1 - last_end) mod 2^32` exceeds
`QUIET_WINDOW`, and otherwise changes nothing; at R3's default for `IDX_W`. -/
def Obligations.LowRunsTheQuietCheck : Prop :=
  ∀ s : State, s.cfg.idxW = 32 →
    (s.sigOpen = true → s.cfg.quietWindow.toNat < (s.idx + 1 - s.lastEnd).toNat →
      ∃ t, exec (.sigClose s.idx) s = .next t ∧ exec .low s = .next t) ∧
    (s.sigOpen = true → (s.idx + 1 - s.lastEnd).toNat ≤ s.cfg.quietWindow.toNat → exec .low s = .next s) ∧
    (s.sigOpen = false → exec .low s = .next s)

/-- R105. -/
def Obligations.SigOpenOpensAtThePulsesStart : Prop :=
  ∀ (s : State) (r : PulseRecord), exec (.sigOpen r) s =
    .next { s with sigOpen := true, sigStart := r.start, events := s.events ++ [.signalOpened r.start] }

/-- R106: with room in the table the pulse is appended, `last_end` is its end, the `Pulse` event is emitted,
and every protocol's demodulator takes the record as `DEMOD` says. -/
def Obligations.TblAppendStoresAndDemodulates : Prop :=
  ∀ (s : State) (r : PulseRecord), s.tbl.length < s.cfg.tblCap.toNat → s.demods.length = s.cfg.nProto →
    ∃ t, exec (.tblAppend r) s = .next t ∧
      t = { s with
        tbl := s.tbl ++ [{ start := r.start, stop := r.stop, length := r.length }]
        lastEnd := r.stop
        events := s.events ++ [.pulse r]
        demods := t.demods } ∧
      t.demods.length = s.demods.length ∧
      ∀ p, p < s.cfg.nProto → ∃ u, exec (.demod p r) s = .next u ∧ t.demods[p]? = u.demods[p]?

/-- R109 with R88 and R129: the abort sets `tbl_ovf`, emits `TableOverflow`, and clears the table, the open
signal and every BitBuffer; no `SignalClosed` and no `Verdict`. -/
def Obligations.TblAbortDiscardsTheSignal : Prop :=
  ∀ (s : State) (n : BitVec 32), exec (.tblAbort n) s =
    .next { s with
      tblOvf := true
      events := s.events ++ [.tableOverflow n]
      sigOpen := false
      tbl := []
      demods := s.demods.map (fun d =>
        { d with bb := [], row := 0, col := 0, bitpos := 7, rowBits := List.replicate s.cfg.bbRows 0,
                 trunc := false, mValid := false }) }

/-- R108 with R88 and R128: the close emits `SignalClosed` with the whole table, then, in ascending `p`, the
events of each protocol's `BB_DONE`, and clears the capture. -/
def Obligations.SigCloseReportsAndClears : Prop :=
  ∀ (s : State) (n : BitVec 32), s.demods.length = s.cfg.nProto →
    ∃ done : Nat → List Event,
      (∀ p, p < s.cfg.nProto → exec (.bbDone p) s = .next { s with events := s.events ++ done p }) ∧
      exec (.sigClose n) s = .next { s with
        events := s.events ++ .signalClosed s.sigStart s.lastEnd n s.tbl.length s.tbl ::
          (List.range s.cfg.nProto).flatMap done
        sigOpen := false
        tbl := []
        demods := s.demods.map (fun d =>
          { d with bb := [], row := 0, col := 0, bitpos := 7, rowBits := List.replicate s.cfg.bbRows 0,
                   trunc := false, mValid := false }) }

/-- R179 (a), R113: a `SAMPLE` appends its events to the list, and never both a `TableOverflow` and a
`SignalClosed`. -/
def Obligations.OverflowAndCloseNeverMeet : Prop :=
  ∀ (s t : State) (data : BitVec 16), exec (.sample data) s = .next t →
    ∃ new, t.events = s.events ++ new ∧
      ¬ ((∃ n, Event.tableOverflow n ∈ new) ∧ (∃ a b n k l, Event.signalClosed a b n k l ∈ new))

/-- R3 and R6 for every `SAMPLE_W` and `IDX_W`, of which the rules write the defaults (their reading below these is
log entry 7, DEDUCED): the comparator reads `SAMPLE_W` bits of the sample and of the limit; `idx`, the length and the
gap of a pulse, the quiet count and the Manchester interval are modulo `2^IDX_W`; so are the gaps of a table, which are
the differences of its consecutive slots, with no others (R19); and the limits are the `IDX_W`-bit numbers in the low
bits of their fields (R3, D37). -/
def Obligations.IndexArithmeticIsModuloIdxW : Prop :=
  ∀ s : State,
    (∀ data : BitVec 16, s.halted = false → ∃ t, exec (.sample data) s = .next t ∧
      t.idx.toNat = (s.idx.toNat + 1) % 2 ^ s.cfg.idxW.val ∧
      t.pulseOpen = decide ((s.cfg.levelLimit.setWidth s.cfg.sampleW).toInt ≤ (data.setWidth s.cfg.sampleW).toInt)) ∧
    (∀ r : PulseRecord, s.tbl.length < s.cfg.tblCap.toNat → r.start = s.pulseStart → r.stop = s.idx →
      r.length.toNat = (s.idx - s.pulseStart).toNat % 2 ^ s.cfg.idxW.val → (s.sigOpen = false → r.gap = none) →
      (s.sigOpen = true → ∃ g, r.gap = some g ∧ g.toNat = (s.pulseStart - s.lastEnd).toNat % 2 ^ s.cfg.idxW.val) →
      ∃ t, exec .fall s = .next t ∧ Event.pulse r ∈ t.events) ∧
    (s.sigOpen = true →
      (s.cfg.quietWindow.toNat < (s.idx + 1 - s.lastEnd).toNat % 2 ^ s.cfg.idxW.val →
        ∃ t, exec (.sigClose s.idx) s = .next t ∧ exec .low s = .next t) ∧
      ((s.idx + 1 - s.lastEnd).toNat % 2 ^ s.cfg.idxW.val ≤ s.cfg.quietWindow.toNat → exec .low s = .next s)) ∧
    (∀ (v : VSel) (lim : Limits) (p : Nat) (r : PulseRecord) (d : Demod),
      p < s.cfg.nProto → s.demods[p]? = some d → d.mValid = true →
      ∃ d', exec (.manch v lim p r) s = .next { s with demods := s.demods.set p d' } ∧
        (2 * ((r.start - d.mLast).toNat % 2 ^ s.cfg.idxW.val) ≤ 3 * (lim.short.toNat % 2 ^ s.cfg.idxW.val) →
          (2 * ((r.stop - d.mLast).toNat % 2 ^ s.cfg.idxW.val) ≤ 3 * (lim.short.toNat % 2 ^ s.cfg.idxW.val) → d' = d) ∧
          (3 * (lim.short.toNat % 2 ^ s.cfg.idxW.val) < 2 * ((r.stop - d.mLast).toNat % 2 ^ s.cfg.idxW.val) → d'.mLast = r.stop)) ∧
        (3 * (lim.short.toNat % 2 ^ s.cfg.idxW.val) < 2 * ((r.start - d.mLast).toNat % 2 ^ s.cfg.idxW.val) →
          d'.mLast = r.start ∨ d'.mLast = r.stop)) ∧
    (∀ (v : VSel) (lim lim' : Limits) (p : Nat) (r : PulseRecord),
      lim'.short.toNat = lim.short.toNat % 2 ^ s.cfg.idxW.val → lim'.long.toNat = lim.long.toNat % 2 ^ s.cfg.idxW.val →
      lim'.reset.toNat = lim.reset.toNat % 2 ^ s.cfg.idxW.val →
      exec (.pwmD v lim p r) s = exec (.pwmD v lim' p r) s ∧ exec (.pwmP v lim p r) s = exec (.pwmP v lim' p r) s ∧
      exec (.manch v lim p r) s = exec (.manch v lim' p r) s) ∧
    (∀ (p : Nat) (r : PulseRecord) (g : BitVec 32) (desc : Desc) (d : Demod),
      s.cfg.descs[p]? = some desc → s.demods[p]? = some d → r.gap = some g →
      (desc.limits.reset.toNat % 2 ^ s.cfg.idxW.val < g.toNat →
        exec (.rowAdv p r) s = .next { s with demods := s.demods.set p { d with
          row := if d.row < s.cfg.bbRows then d.row + 1 else d.row, col := 0, bitpos := 7, mValid := false } }) ∧
      (g.toNat ≤ desc.limits.reset.toNat % 2 ^ s.cfg.idxW.val → exec (.rowAdv p r) s = .next s)) ∧
    (∀ tbl : List PulseEvent,
      (gapsOf s.cfg tbl).length = tbl.length - 1 ∧
      ∀ (i : Nat) (a b : PulseEvent), tbl[i]? = some a → tbl[i + 1]? = some b →
        ∃ g, (gapsOf s.cfg tbl)[i]? = some g ∧ g.toNat = (b.start - a.stop).toNat % 2 ^ s.cfg.idxW.val)

/-! ## The demodulator (spec/43_demodulator.md) -/

/-- R120: `DEMOD` is the row advance and then the operation that the protocol's descriptor selects by its
modulation. -/
def Obligations.DemodAdvancesThenModulates : Prop :=
  ∀ (s : State) (p : Nat) (r : PulseRecord) (desc : Desc), s.cfg.descs[p]? = some desc → p < s.demods.length →
    ∃ t u, exec (.rowAdv p r) s = .next t ∧
      exec (match desc.modulation with
        | .pwmD => .pwmD desc.vsel desc.limits p r
        | .pwmP => .pwmP desc.vsel desc.limits p r
        | .manch => .manch desc.vsel desc.limits p r) t = .next u ∧
      exec (.demod p r) s = .next u

/-- R121 and R127: a bit that arrives past the end sets `trunc` and nothing else; any other bit goes to the
cursor's bit position of the cursor's byte, every other byte of the buffer stays, the row's bit count goes up
by one and the cursor moves on, most significant bit first. -/
def Obligations.AddBitStoresAtTheCursorOrTruncates : Prop :=
  ∀ (s : State) (p : Nat) (b : Bool) (d : Demod), p < s.cfg.nProto → s.demods[p]? = some d →
    d.bb.wf = true → d.row ≤ s.cfg.bbRows → d.col ≤ s.cfg.bbCols →
    ∃ d', exec (.addBit p b) s = .next { s with demods := s.demods.set p d' } ∧
      ((d.row = s.cfg.bbRows ∨ d.col = s.cfg.bbCols) → d' = { d with trunc := true }) ∧
      (¬ (d.row = s.cfg.bbRows ∨ d.col = s.cfg.bbCols) →
        (∀ a, d'.bb.read a =
          if a = bbAddr s.cfg d.row d.col ∧ b = true then d.bb.read a ||| 1#8 <<< d.bitpos.val else d.bb.read a) ∧
        d'.row = d.row ∧ d'.rowBits = d.rowBits.modify d.row (· + 1) ∧
        (d.bitpos.val = 0 → d'.bitpos = 7 ∧ d'.col = d.col + 1) ∧
        (d.bitpos.val ≠ 0 → d'.bitpos.val = d.bitpos.val - 1 ∧ d'.col = d.col) ∧
        d'.trunc = d.trunc ∧ d'.mValid = d.mValid ∧ d'.mLast = d.mLast)

/-- R122: the next row starts at its first bit; past the last row the cursor stays there. -/
def Obligations.NextRowAdvancesAndSaturates : Prop :=
  ∀ (s : State) (p : Nat) (d d' : Demod), p < s.cfg.nProto → s.demods[p]? = some d →
    d' = { d with row := if d.row < s.cfg.bbRows then d.row + 1 else d.row, col := 0, bitpos := 7 } →
    exec (.nextRow p) s = .next { s with demods := s.demods.set p d' }

/-- R123: a gap above `RESET[p]` moves to the next row and clears `m_valid`; a smaller gap, and a first pulse,
change nothing. `RESET[p]` is a number of `IDX_W` bits, as R3 has it. -/
def Obligations.RowAdvFollowsTheResetLimit : Prop :=
  ∀ (s : State) (p : Nat) (r : PulseRecord) (desc : Desc) (d : Demod),
    s.cfg.descs[p]? = some desc → s.demods[p]? = some d → Fits s.cfg desc.limits.reset →
    (∀ (g : BitVec 32) (d' : Demod), r.gap = some g → desc.limits.reset.toNat < g.toNat →
      d' = { d with
        row := if d.row < s.cfg.bbRows then d.row + 1 else d.row, col := 0, bitpos := 7, mValid := false } →
      exec (.rowAdv p r) s = .next { s with demods := s.demods.set p d' }) ∧
    (∀ g, r.gap = some g → g.toNat ≤ desc.limits.reset.toNat → exec (.rowAdv p r) s = .next s) ∧
    (r.gap = none → exec (.rowAdv p r) s = .next s)

/-- R124: a gap not above `RESET` stores one bit by the midpoint test on integers; a longer gap and a first
pulse store none. The limits are numbers of `IDX_W` bits, as R3 has them. -/
def Obligations.PwmDStoresTheGapsBit : Prop :=
  ∀ (s : State) (v : VSel) (lim : Limits) (p : Nat) (r : PulseRecord), p < s.cfg.nProto → p < s.demods.length →
    LimitsFit s.cfg lim →
    ∃ t, exec (.pwmD v lim p r) s = .next t ∧
      (∀ g, r.gap = some g → g.toNat ≤ lim.reset.toNat →
        (2 * g.toNat ≥ lim.short.toNat + lim.long.toNat → exec (.addBit p s.cfg.pwmdLongBit) s = .next t) ∧
        (2 * g.toNat < lim.short.toNat + lim.long.toNat → exec (.addBit p (!s.cfg.pwmdLongBit)) s = .next t)) ∧
      (∀ g, r.gap = some g → lim.reset.toNat < g.toNat → t = s) ∧
      (r.gap = none → t = s)

/-- R125: every pulse stores one bit by the midpoint test of its length. The limits are numbers of `IDX_W` bits, as R3
has them. -/
def Obligations.PwmPStoresThePulsesBit : Prop :=
  ∀ (s : State) (v : VSel) (lim : Limits) (p : Nat) (r : PulseRecord), p < s.cfg.nProto → p < s.demods.length →
    LimitsFit s.cfg lim →
    ∃ t, exec (.pwmP v lim p r) s = .next t ∧
      (2 * r.length.toNat ≥ lim.short.toNat + lim.long.toNat → exec (.addBit p s.cfg.pwmpLongBit) s = .next t) ∧
      (2 * r.length.toNat < lim.short.toNat + lim.long.toNat → exec (.addBit p (!s.cfg.pwmpLongBit)) s = .next t)

/-- R126: the rising edge at `start`, then the falling edge at `end`: an edge that is the first of its row, or
more than one and a half half-bit windows after the last data edge, stores its bit as `ADD_BIT` does and is
the last data edge; any other changes nothing. The intervals are modulo `2^32`, at R3's default for `IDX_W`. -/
def Obligations.ManchStoresDataEdges : Prop :=
  ∀ (s : State) (v : VSel) (lim : Limits) (p : Nat) (r : PulseRecord) (d : Demod),
    s.cfg.idxW = 32 → p < s.cfg.nProto → s.demods[p]? = some d →
    ∃ d₁ d₂, exec (.manch v lim p r) s = .next { s with demods := s.demods.set p d₂ } ∧
      ((d.mValid = false ∨ 2 * (r.start - d.mLast).toNat > 3 * lim.short.toNat) →
        ∃ e, exec (.addBit p s.cfg.manchRiseBit) s = .next { s with demods := s.demods.set p e } ∧
          d₁ = { e with mLast := r.start, mValid := true }) ∧
      (¬ (d.mValid = false ∨ 2 * (r.start - d.mLast).toNat > 3 * lim.short.toNat) → d₁ = d) ∧
      ((d₁.mValid = false ∨ 2 * (r.stop - d₁.mLast).toNat > 3 * lim.short.toNat) →
        ∃ e, exec (.addBit p (!s.cfg.manchRiseBit)) { s with demods := s.demods.set p d₁ } =
            .next { s with demods := s.demods.set p e } ∧
          d₂ = { e with mLast := r.stop, mValid := true }) ∧
      (¬ (d₁.mValid = false ∨ 2 * (r.stop - d₁.mLast).toNat > 3 * lim.short.toNat) → d₂ = d₁)

/-- R128: `BB_DONE` emits the whole buffer with its bit counts, cursor and truncation flag, and then runs the
verifier that the protocol's descriptor selects; it changes nothing but the event list. A buffer with no bit at all
is still reported, and every verifier rejects it with `NO_ROWS`. `p` is one that fits the event's field (`pw`). -/
def Obligations.BbDoneReportsAndVerifies : Prop :=
  ∀ (s : State) (p : Nat) (pw : BitVec 16) (desc : Desc) (d : Demod) (done : Event), pw.toNat = p →
    s.cfg.descs[p]? = some desc → s.demods[p]? = some d →
    done = .bufferDone pw
      ((List.range s.cfg.bbRows).map fun r => (List.range s.cfg.bbCols).map fun col => d.byte s.cfg r col)
      d.rowBits d.row d.col d.bitpos d.trunc →
    ∃ new, exec (.bbDone p) s = .next { s with events := s.events ++ new } ∧
      exec (match desc.vsel with
        | .vNone => .vNone desc.modulation desc.limits p
        | .vRed => .vRed desc.modulation desc.limits p
        | .vXor8 => .vXor8 desc.modulation desc.limits p
        | .vNibsum => .vNibsum desc.modulation desc.limits p)
        { s with events := s.events ++ [done] } = .next { s with events := s.events ++ new } ∧
      ((∀ r, r < s.cfg.bbRows → d.rowBitsAt r = 0) → desc.vsel ≠ .vNone →
        new = [done, .verdict { p := pw, vsel := desc.vsel, accept := false, reason := .noRows, info := 0, plen := 0
                                payload := .none }])

/-- R129: `BB_CLEAR` empties the buffer and everything about it but `m_last`. -/
def Obligations.BbClearEmptiesTheBuffer : Prop :=
  ∀ (s : State) (p : Nat) (d : Demod), p < s.cfg.nProto → s.demods[p]? = some d →
    ∃ d', exec (.bbClear p) s = .next { s with demods := s.demods.set p d' } ∧
      (∀ r col, d'.byte s.cfg r col = 0x00#8) ∧ d'.row = 0 ∧ d'.col = 0 ∧ d'.bitpos = 7 ∧
      d'.rowBits = List.replicate s.cfg.bbRows 0 ∧ d'.trunc = false ∧ d'.mValid = false ∧ d'.mLast = d.mLast

/-- R130: the operations on protocol `p` change nothing but `p`'s demodulator. -/
def Obligations.DemodulatorOperationsFrame : Prop :=
  ∀ (i : Instr) (s t : State) (p : Nat),
    ((∃ v lim r, i = .pwmD v lim p r ∨ i = .pwmP v lim p r ∨ i = .manch v lim p r) ∨
      (∃ r, i = .demod p r ∨ i = .rowAdv p r) ∨ (∃ b, i = .addBit p b) ∨ i = .nextRow p ∨ i = .bbClear p) →
    exec i s = .next t →
      t = { s with demods := t.demods } ∧ t.demods.length = s.demods.length ∧
      ∀ q, q ≠ p → t.demods[q]? = s.demods[q]?

/-- What the operations on protocol `p` store to its BitBuffer: at most the byte at the cursor, for `MANCH`
also the byte at the cursor after its first edge, for `DEMOD` each of these after the row advance; a row
advance stores nothing. Every other byte reads as before. -/
def Obligations.BitBufferStoresOnlyAtTheCursor : Prop :=
  ∀ (s t : State) (p : Nat) (v : VSel) (lim : Limits) (r : PulseRecord) (b : Bool) (desc : Desc) (d d' : Demod),
    s.cfg.descs[p]? = some desc → s.demods[p]? = some d → t.demods[p]? = some d' → d.bb.wf = true →
    ((exec (.addBit p b) s = .next t ∨ exec (.pwmD v lim p r) s = .next t ∨ exec (.pwmP v lim p r) s = .next t) →
      ∀ a, a ≠ bbAddr s.cfg d.row d.col → d'.bb.read a = d.bb.read a) ∧
    (exec (.manch v lim p r) s = .next t →
      ∀ a, a ≠ bbAddr s.cfg d.row d.col →
        a ≠ bbAddr s.cfg (d.manchEdge s.cfg lim r.start s.cfg.manchRiseBit).row
          (d.manchEdge s.cfg lim r.start s.cfg.manchRiseBit).col →
        d'.bb.read a = d.bb.read a) ∧
    ((exec (.nextRow p) s = .next t ∨ exec (.rowAdv p r) s = .next t) → ∀ a, d'.bb.read a = d.bb.read a) ∧
    (exec (.demod p r) s = .next t →
      ∀ a, a ≠ bbAddr s.cfg (d.rowAdv s.cfg desc.limits r).row (d.rowAdv s.cfg desc.limits r).col →
        (desc.modulation = .manch →
          a ≠ bbAddr s.cfg
            ((d.rowAdv s.cfg desc.limits r).manchEdge s.cfg desc.limits r.start s.cfg.manchRiseBit).row
            ((d.rowAdv s.cfg desc.limits r).manchEdge s.cfg desc.limits r.start s.cfg.manchRiseBit).col) →
        d'.bb.read a = d.bb.read a)

/-- R130, last sentence: two protocols with identical descriptors and identical demodulators stay identical through
every step, whichever command it runs. -/
def Obligations.IdenticalDescriptorsGiveIdenticalBuffers : Prop :=
  ∀ (s t : State) (p q : Nat), p < s.cfg.nProto → q < s.cfg.nProto →
    s.cfg.descs[p]? = s.cfg.descs[q]? → s.demods[p]? = s.demods[q]? →
    step s = .next t → t.demods[p]? = t.demods[q]?

/-! ## The verifiers (spec/44_verifiers.md) -/

/-- R142: the available rows are exactly those that hold at least one bit, in ascending order. -/
def Obligations.AvailableRowsHoldABit : Prop :=
  ∀ (c : Config) (d : Demod),
    (∀ r, r ∈ d.avail c ↔ r < c.bbRows ∧ 0 < d.rowBitsAt r) ∧ (d.avail c).Pairwise (· < ·)

/-- R69, R70: the record of an accept and of a reject (values that do not fit `p`, `info` or `plen` are reduced: the
model's choice, log entry 17), and the reason codes. -/
def Obligations.VerdictRecordFields : Prop :=
  ∀ (p : Nat) (v : VSel),
    (∀ payload, Verdict.ofJudgement p v (.accept payload) =
      { p := BitVec.ofNat 16 p, vsel := v, accept := true, reason := .ok, info := 0
        plen := BitVec.ofNat 4 (match payload with
          | .none => 0 | .field _ => 1 | .bytes l => l.length | .nibbles l => l.length)
        payload := payload }) ∧
    (∀ code info, Verdict.ofJudgement p v (.reject code info) =
      { p := BitVec.ofNat 16 p, vsel := v, accept := false, reason := code, info := BitVec.ofNat 4 info
        plen := 0, payload := .none }) ∧
    Reason.ok.code = 0 ∧ Reason.noRows.code = 1 ∧ Reason.rowMismatch.code = 2 ∧ Reason.framingStop.code = 3 ∧
    Reason.framingCount.code = 4 ∧ Reason.checksumXor.code = 5 ∧ Reason.checksumSum.code = 6 ∧ Reason.bounds.code = 7

/-- R143: `V_NONE` runs no verifier and emits nothing. -/
def Obligations.VNoneGivesNoVerdict : Prop :=
  ∀ (s : State) (m : Modulation) (lim : Limits) (p : Nat), p < s.cfg.nProto → p < s.demods.length →
    exec (.vNone m lim p) s = .next s

/-- R144 and R151: the checks of `V_RED` in their order, and the field of an accepted message, which is row
`A[0]`'s. (That a buffer without an available row rejects with `NO_ROWS` even where `RED_MIN_ROWS` is 0 is R128's.) -/
def Obligations.VRedVerdict : Prop :=
  ∀ (s : State) (m : Modulation) (lim : Limits) (p : Nat) (d : Demod) (rows : List Nat),
    p < s.cfg.nProto → s.demods[p]? = some d → rows = d.avail s.cfg →
    ∃ j, exec (.vRed m lim p) s =
        .next { s with events := s.events ++ [.verdict (Verdict.ofJudgement p .vRed j)] } ∧
      ((rows.length < s.cfg.redMinRows ∨ rows = []) → j = .reject .noRows 0) ∧
      (rows ≠ [] → s.cfg.redMinRows ≤ rows.length →
        (((∃ col ∈ s.cfg.redHdrCols, s.cfg.bbCols ≤ col) ∨ s.cfg.bbCols ≤ (s.cfg.tempNib + 2) / 2) →
          j = .reject .bounds 0) ∧
        ((∀ col ∈ s.cfg.redHdrCols, col < s.cfg.bbCols) → (s.cfg.tempNib + 2) / 2 < s.cfg.bbCols →
          ∀ a, rows.head? = some a →
            ((∃ col ∈ s.cfg.redHdrCols, ∃ r ∈ rows, d.byte s.cfg r col ≠ d.byte s.cfg a col) →
              j = .reject .rowMismatch 0) ∧
            ((∀ col ∈ s.cfg.redHdrCols, ∀ r ∈ rows, d.byte s.cfg r col = d.byte s.cfg a col) →
              ∃ f : BitVec 12, j = .accept (.field (f.signExtend 16)) ∧
                f = nibAt (d.rowBytes s.cfg a) s.cfg.tempNib ++ (nibAt (d.rowBytes s.cfg a) (s.cfg.tempNib + 1) ++
                  nibAt (d.rowBytes s.cfg a) (s.cfg.tempNib + 2)))))

/-- R128, last sentence but one: a buffer with no bit at all is verified, and every verifier rejects it with `NO_ROWS`,
whatever the configuration. -/
def Obligations.EmptyBufferIsRejectedWithNoRows : Prop :=
  ∀ (s : State) (m : Modulation) (lim : Limits) (p : Nat) (d : Demod), p < s.cfg.nProto → s.demods[p]? = some d →
    (∀ r, r < s.cfg.bbRows → d.rowBitsAt r = 0) →
    exec (.vRed m lim p) s = .next { s with events := s.events ++
      [.verdict (Verdict.ofJudgement p .vRed (.reject .noRows 0))] } ∧
    exec (.vXor8 m lim p) s = .next { s with events := s.events ++
      [.verdict (Verdict.ofJudgement p .vXor8 (.reject .noRows 0))] } ∧
    exec (.vNibsum m lim p) s = .next { s with events := s.events ++
      [.verdict (Verdict.ofJudgement p .vNibsum (.reject .noRows 0))] }

/-- R145: the row vote. Fewer than two voting rows, a message longer than a row, and a column in which no two
voting rows agree reject, in this order; otherwise the combined buffer holds, in every column, the byte of
the first agreeing pair in the pair order. -/
def Obligations.RowVoteCombines : Prop :=
  ∀ (s : State) (p : Nat) (d : Demod) (vs : List Nat) (nb : Nat), p < s.cfg.nProto → s.demods[p]? = some d →
    vs = (d.avail s.cfg).take s.cfg.majRows →
    nb = (s.cfg.xor8Start + 9 * s.cfg.xor8NBytes + 8 + 7) / 8 →
    ∃ v, exec (.rowVote p) s = .next { s with result := some v } ∧
      (vs.length < 2 → v = .rejected .noRows) ∧
      (2 ≤ vs.length → s.cfg.bbCols < nb → v = .rejected .bounds) ∧
      (2 ≤ vs.length → nb ≤ s.cfg.bbCols →
        ((∃ col, col < nb ∧ ∀ (i j a b : Nat), i < j → vs[i]? = some a → vs[j]? = some b →
            d.byte s.cfg a col ≠ d.byte s.cfg b col) → v = .rejected .rowMismatch) ∧
        ((∀ col, col < nb → ∃ i j a b : Nat, i < j ∧ vs[i]? = some a ∧ vs[j]? = some b ∧
            d.byte s.cfg a col = d.byte s.cfg b col) →
          ∃ comb, v = .comb comb ∧ comb.length = nb ∧
            ∀ col, col < nb → ∃ i j a b : Nat, i < j ∧ vs[i]? = some a ∧ vs[j]? = some b ∧
              d.byte s.cfg a col = d.byte s.cfg b col ∧ comb[col]? = some (d.byte s.cfg a col) ∧
              ∀ (i' j' a' b' : Nat), i' < j' → (i' < i ∨ (i' = i ∧ j' < j)) → vs[i']? = some a' →
                vs[j']? = some b' → d.byte s.cfg a' col ≠ d.byte s.cfg b' col))

/-- R145 and R147: `V_XOR8` ends with the vote's reject, or reads the framed bytes of the combined buffer: the
first missing stop bit rejects with its number, then a checksum byte that is not the XOR of the data bytes
rejects, and otherwise the data bytes are accepted. -/
def Obligations.VXor8Verdict : Prop :=
  ∀ (s : State) (m : Modulation) (lim : Limits) (p : Nat) (d : Demod),
    p < s.cfg.nProto → s.demods[p]? = some d →
    ∃ v j, exec (.rowVote p) s = .next { s with result := some v } ∧ exec (.vXor8 m lim p) s =
        .next { s with events := s.events ++ [.verdict (Verdict.ofJudgement p .vXor8 j)] } ∧
      (∀ code, v = .rejected code → j = .reject code 0) ∧
      (∀ (comb : List (BitVec 8)) (data : Nat → BitVec 8) (ck : BitVec 8), v = .comb comb →
        (∀ i, data i = (readBits comb 8 (s.cfg.xor8Start + 9 * i)).value.setWidth 8) →
        ck = (readBits comb 8 (s.cfg.xor8Start + 9 * s.cfg.xor8NBytes)).value.setWidth 8 →
        (∀ i, i < s.cfg.xor8NBytes → streamBit comb (s.cfg.xor8Start + 9 * i + 8) = false →
          (∀ k, k < i → streamBit comb (s.cfg.xor8Start + 9 * k + 8) = true) → j = .reject .framingStop i) ∧
        ((∀ i, i < s.cfg.xor8NBytes → streamBit comb (s.cfg.xor8Start + 9 * i + 8) = true) →
          (ck ≠ ((List.range s.cfg.xor8NBytes).map data).foldl (· ^^^ ·) 0 → j = .reject .checksumXor 0) ∧
          (ck = ((List.range s.cfg.xor8NBytes).map data).foldl (· ^^^ ·) 0 →
            j = .accept (.bytes ((List.range s.cfg.xor8NBytes).map data)))))

/-- R148: the checks of `V_NIBSUM` in their order, on the lowest available row. -/
def Obligations.VNibsumVerdict : Prop :=
  ∀ (s : State) (m : Modulation) (lim : Limits) (p : Nat) (d : Demod), p < s.cfg.nProto → s.demods[p]? = some d →
    ∃ j, exec (.vNibsum m lim p) s =
        .next { s with events := s.events ++ [.verdict (Verdict.ofJudgement p .vNibsum j)] } ∧
      (d.avail s.cfg = [] → j = .reject .noRows 0) ∧
      (∀ (a n total : Nat) (row : List (BitVec 8)) (nib : Nat → BitVec 4) (stop : Nat → Bool),
        (d.avail s.cfg).head? = some a → row = d.rowBytes s.cfg a →
        (∀ i, nib i = (readBits row 4 (s.cfg.nibStart + 5 * i)).value.setWidth 4) →
        (∀ i, stop i = streamBit row (s.cfg.nibStart + 5 * i + 4)) →
        n = (if (nib 0).toNat = s.cfg.nibLongType then s.cfg.nibLongLen else s.cfg.nibShortLen) →
        total = s.cfg.nibStart + 5 * (n + 1) + 4 →
        (8 * s.cfg.bbCols < s.cfg.nibStart + 5 → j = .reject .bounds 0) ∧
        (s.cfg.nibStart + 5 ≤ 8 * s.cfg.bbCols →
          (stop 0 = false → j = .reject .framingStop 0) ∧
          (stop 0 = true →
            (8 * s.cfg.bbCols < total → j = .reject .bounds 0) ∧
            (total ≤ 8 * s.cfg.bbCols →
              (d.rowBitsAt a < total → j = .reject .framingCount 0) ∧
              (total ≤ d.rowBitsAt a →
                (∀ i, i ≤ n → stop i = false → (∀ k, k < i → stop k = true) → j = .reject .framingStop i) ∧
                ((∀ i, i ≤ n → stop i = true) →
                  (((List.range (n + 1)).map nib).foldl (· ^^^ ·) 0 ≠ 0 → j = .reject .checksumXor 0) ∧
                  (((List.range (n + 1)).map nib).foldl (· ^^^ ·) 0 = 0 →
                    ((nib (n + 1)).toNat ≠
                        (((List.range (n + 1)).map fun i => (nib i).toNat).sum + s.cfg.nibSumConst) % 16 →
                      j = .reject .checksumSum 0) ∧
                    ((nib (n + 1)).toNat =
                        (((List.range (n + 1)).map fun i => (nib i).toNat).sum + s.cfg.nibSumConst) % 16 →
                      j = .accept (.nibbles ((List.range (n + 1)).map nib))))))))))

/-- R146 with R4: under a well-formed configuration no verifier reports `BOUNDS`. -/
def Obligations.WellFormedConfigurationNeverReportsBounds : Prop :=
  ∀ (c : Config) (d : Demod) (v : VSel) (info : Nat), c.wellFormed = true →
    verify c d v ≠ some (.reject .bounds info)

/-- R140: a verdict depends on the protocol's BitBuffer bytes, its row bit counts and the configuration, and
on nothing else; the verifiers write no state but the event list. -/
def Obligations.VerdictDependsOnTheBufferAlone : Prop :=
  ∀ (i : Instr) (s s' : State) (p : Nat) (d d' : Demod),
    (∃ m lim, i = .vNone m lim p ∨ i = .vRed m lim p ∨ i = .vXor8 m lim p ∨ i = .vNibsum m lim p) →
    s.cfg = s'.cfg → p < s.cfg.nProto → s.demods[p]? = some d → s'.demods[p]? = some d' →
    (∀ a, d.bb.read a = d'.bb.read a) → d.rowBits = d'.rowBits →
    ∃ new, exec i s = .next { s with events := s.events ++ new } ∧
      exec i s' = .next { s' with events := s'.events ++ new }

/-! ## The reader and the field helpers (spec/41_bitstream_reader.md) -/

/-- R90, R91, R92: `WIDTH` first, then `BOUNDS` on the whole field, with value 0; otherwise result bit `i` is
stream bit `off + i` for `i` below the width, and 0 above. Nothing but the answer changes. -/
def Obligations.RdbitsReadsTheFieldReversed : Prop :=
  ∀ (s : State) (width : BitVec 5) (off : BitVec 16) (buf : List (BitVec 8)),
    ∃ r : Response, exec (.rdbits width off buf) s = .next { s with result := some (.response r) } ∧
      (16 < width.toNat → r = { err := .width, value := 0 }) ∧
      (width.toNat ≤ 16 → 8 * buf.length < off.toNat + width.toNat → r = { err := .bounds, value := 0 }) ∧
      (width.toNat ≤ 16 → off.toNat + width.toNat ≤ 8 * buf.length →
        r.err = .none ∧ ∀ i, r.value.getLsbD i =
          (decide (i < width.toNat) && (buf.getD ((off.toNat + i) / 8) 0).getLsbD (7 - (off.toNat + i) % 8)))

/-- R94: writing back what was read changes nothing; reading what was written gives it modulo `2^width`; a
field is the concatenation of its parts. -/
def Obligations.ReaderRoundTrip : Prop :=
  ∀ (buf : List (BitVec 8)) (w off : Nat), w ≤ 16 → off + w ≤ 8 * buf.length →
    writeBits buf w off (readBits buf w off).value.toNat = buf ∧
    (∀ val, (readBits (writeBits buf w off val) w off).err = .none ∧
      (readBits (writeBits buf w off val) w off).value.toNat = val % 2 ^ w) ∧
    (∀ w₁ w₂, w₁ + w₂ = w →
      (readBits buf w off).value = (readBits buf w₁ off).value ||| ((readBits buf w₂ (off + w₁)).value <<< w₁))

/-- R42, R96: `read_bits` of a whole byte is its bit reversal, and a nibble read directly is the bit reversal of
the same nibble read by `read_bits`. -/
def Obligations.DirectAccessIsNotReversed : Prop :=
  ∀ (buf : List (BitVec 8)),
    (∀ (c i : Nat) (x : BitVec 8), buf[c]? = some x → i < 8 → (readBits buf 8 (8 * c)).value.getLsbD i = x.getLsbD (7 - i)) ∧
    (∀ j i, j / 2 < buf.length → i < 4 →
      (readBits buf 4 (4 * j)).value.getLsbD i = (nibAt buf j).getLsbD (3 - i))

/-- R95: in its range, `SEXT` answers `v - 2^N` when bit `N-1` of `v` is set and `v` otherwise. -/
def Obligations.SextExtendsTheSign : Prop :=
  ∀ (s : State) (n : Nat) (v : BitVec 16), 1 ≤ n → n ≤ 16 → v.toNat < 2 ^ n →
    ∃ w : BitVec 16, exec (.sext n v) s = .next { s with result := some (.sext w) } ∧
      w.toInt = (if v.getLsbD (n - 1) then (v.toNat : Int) - 2 ^ n else (v.toNat : Int))

/-- R96: the high nibble of a byte for an even `j`, the low one for an odd `j`, as stored. -/
def Obligations.NibReadsTheNibbleAsStored : Prop :=
  ∀ (s : State) (buf : List (BitVec 8)) (j : Nat) (x : BitVec 8), buf[j / 2]? = some x →
    (j % 2 = 0 → exec (.nib buf j) s = .next { s with result := some (.nib (x.extractLsb' 4 4)) }) ∧
    (j % 2 ≠ 0 → exec (.nib buf j) s = .next { s with result := some (.nib (x.extractLsb' 0 4)) })

/-! ## Rules about all instructions -/

/-- The model's own choices, log entries 11 to 14: an operation taken alone that names a protocol or a table slot
which the spec says does not exist stops; `SEXT` outside its operand range runs and answers some value, about which
nothing is said; and a nibble past the end answers `BOUNDS`. -/
def Obligations.OperandsThatDoNotExist : Prop :=
  (∀ (i : Instr) (s : State) (p : Nat),
    ((∃ v lim r, i = .pwmD v lim p r ∨ i = .pwmP v lim p r ∨ i = .manch v lim p r) ∨
      (∃ m lim, i = .vNone m lim p ∨ i = .vRed m lim p ∨ i = .vXor8 m lim p ∨ i = .vNibsum m lim p) ∨
      (∃ r, i = .demod p r ∨ i = .rowAdv p r) ∨ (∃ b, i = .addBit p b) ∨
      i = .nextRow p ∨ i = .bbDone p ∨ i = .bbClear p ∨ i = .rowVote p) →
    s.cfg.nProto ≤ p → exec i s = .fault .noSuchProtocol) ∧
  (∀ (s : State) (n : Nat) (v : BitVec 16), ¬ (1 ≤ n ∧ n ≤ 16 ∧ v.toNat < 2 ^ n) →
    ∃ w, exec (.sext n v) s = .next { s with result := some (.sext w) }) ∧
  (∀ (s : State) (r : PulseRecord), s.tbl.length = s.cfg.tblCap.toNat →
    exec (.tblAppend r) s = .fault .noTableSlot) ∧
  (∀ (s : State) (buf : List (BitVec 8)) (j : Nat), buf.length ≤ j / 2 →
    exec (.nib buf j) s = .next { s with result := some (.rejected .bounds) })

/-- R11: no operation changes the configuration; nor does one take or add an input cycle. -/
def Obligations.NoInstructionChangesTheConfiguration : Prop :=
  ∀ (i : Instr) (s t : State), exec i s = .next t → t.cfg = s.cfg ∧ t.input = s.input

/-- R12, R82, R85, R87: `idx` is written by `SAMPLE`, which adds one while the block is not halted, and by reset; by no
other operation. (Modulo `2^IDX_W`, which the rules write with the default: log entry 7.) -/
def Obligations.OnlySampleAndResetWriteIdx : Prop :=
  ∀ (i : Instr) (s t : State), exec i s = .next t →
    (∀ data, i = .sample data →
      t.idx.toNat = if s.halted then s.idx.toNat else (s.idx.toNat + 1) % 2 ^ s.cfg.idxW.val) ∧
    (i = .rst → t.idx = 0) ∧
    ((∀ data, i ≠ .sample data) → i ≠ .rst → t.idx = s.idx)

/-- R20: `halted` is set by `EOS` and `STOP` and cleared by reset, and by nothing else. -/
def Obligations.OnlyEosAndStopHalt : Prop :=
  ∀ (i : Instr) (s t : State), exec i s = .next t →
    ((i = .eos ∨ i = .stop) → t.halted = true) ∧ (i = .rst → t.halted = false) ∧
    (i ≠ .eos → i ≠ .stop → i ≠ .rst → t.halted = s.halted)

/-- R21: the sticky flags. `badcmd` is set by the reserved operation codes, `tbl_ovf` by the overflow abort (of
the operations, `TBL_ABORT` and those that can run it); only reset clears either. -/
def Obligations.StickyFlags : Prop :=
  ∀ (i : Instr) (s t : State), exec i s = .next t →
    (i ≠ .rst → s.badcmd = true → t.badcmd = true) ∧ (i ≠ .rst → s.tblOvf = true → t.tblOvf = true) ∧
    (i = .rst → t.badcmd = false ∧ t.tblOvf = false) ∧
    ((i = .rsv5 ∨ i = .rsv6 ∨ i = .rsv7) → t.badcmd = true) ∧ (∀ n, i = .tblAbort n → t.tblOvf = true) ∧
    (t.badcmd = true → s.badcmd = false → i = .rsv5 ∨ i = .rsv6 ∨ i = .rsv7) ∧
    (t.tblOvf = true → s.tblOvf = false →
      ((∃ n, i = .tblAbort n) ∨ i = .fall ∨ ∃ data, i = .sample data) ∧
      ∃ n, Event.tableOverflow n ∈ t.events)

/-! ## Invariants (spec/10_state.md R28) -/

/-- The invariants hold after reset, under every configuration with room for a row. -/
def Obligations.ResetHasTheInvariants : Prop :=
  ∀ c : Config, c.admissible = true → (State.resetWith c).Inv ∧ (State.resetWith c).GapInv

/-- R28 (a), (b), (c), (e), (f), (g), and the `IDX_W` bits of every index (R3, R6, R12): every step keeps the
invariants. (Lengths modulo `2^IDX_W`, which the rules write with the default, are the model's reading below 32: log
entry 7.) -/
def Obligations.StepKeepsTheInvariants : Prop :=
  ∀ s t : State, s.Inv → step s = .next t → t.Inv

/-- R28 (d): every step keeps the bounds on the gaps of an open signal, for every quiet window that leaves the
quiet count room before it wraps. (Gaps and the count modulo `2^IDX_W`, which the rules write with the default, are the
model's reading below 32: log entry 7.) -/
def Obligations.StepKeepsTheGapBounds : Prop :=
  ∀ s t : State, s.Inv → s.GapInv → s.cfg.quietWindow.toNat < 2 ^ s.cfg.idxW.val - 1 → step s = .next t → t.GapInv

end
end

