-- ==== Sys2Proof/Laws/Memory.lean ====
section
/-! SUPPORT. The laws of byte storage: reading what was written, leaving every other byte alone, and keeping
the canonical form. -/

namespace Sys2Proof.Machine

@[simp] theorem Memory.read_nil (a : Nat) : Memory.read [] a = 0 := rfl

/-- A write is seen at its own address and nowhere else. The canonical form is needed where a byte becomes
0 and its entry goes: then no other entry has the address. -/
theorem Memory.read_eq_zero_of_lt {m : Memory} {a : Nat} (h : m.all (fun cell => decide (a < cell.1)) = true) :
    m.read a = 0 := by
  induction m with
  | nil => rfl
  | cons x m ih =>
    simp only [List.all_cons, Bool.and_eq_true, decide_eq_true_eq] at h
    have hne : a ≠ x.1 := by omega
    simp [Memory.read, hne, ih h.2]

theorem Memory.all_lt_trans {m : Memory} {a b : Nat} (hab : a < b)
    (h : m.all (fun cell => decide (b < cell.1)) = true) :
    m.all (fun cell => decide (a < cell.1)) = true := by
  simp only [List.all_eq_true, decide_eq_true_eq] at h ⊢
  intro x hx
  have := h x hx
  omega

theorem Memory.wf_cons {a : Nat} {v : Byte} {m : Memory} :
    Memory.wf ((a, v) :: m) = true ↔
      v ≠ 0 ∧ m.all (fun cell => decide (a < cell.1)) = true ∧ Memory.wf m = true := by
  simp [Memory.wf, and_assoc]

theorem Memory.read_write {m : Memory} (hm : m.wf = true) (a b : Nat) (v : Byte) :
    (m.write a v).read b = if b = a then v else m.read b := by
  induction m with
  | nil =>
    simp only [Memory.write]
    split
    · next hv => by_cases hb : b = a <;> simp [hv, hb]
    · by_cases hb : b = a <;> simp [Memory.read, hb]
  | cons x m ih =>
    obtain ⟨a', v'⟩ := x
    obtain ⟨-, hlt, hwf⟩ := Memory.wf_cons.mp hm
    simp only [Memory.write]
    split
    · next haa' =>
      have hz : Memory.read ((a', v') :: m) a = 0 := by
        apply Memory.read_eq_zero_of_lt
        simp only [List.all_cons, Bool.and_eq_true, decide_eq_true_eq]
        exact ⟨haa', Memory.all_lt_trans haa' hlt⟩
      split
      · next hv =>
        by_cases hb : b = a
        · subst hb; simp [hz, hv]
        · simp [hb]
      · by_cases hb : b = a <;> simp [Memory.read, hb]
    · next haa' =>
      split
      · next heq =>
        subst heq
        split
        · next hv =>
          by_cases hb : b = a
          · subst hb; simp [Memory.read_eq_zero_of_lt hlt, hv]
          · simp [Memory.read, hb]
        · by_cases hb : b = a <;> simp [Memory.read, hb]
      · next hne =>
        by_cases hb : b = a'
        · subst hb
          have : b ≠ a := fun h => hne h.symm
          simp [Memory.read, this]
        · simp [Memory.read, hb, ih hwf]

@[simp] theorem Memory.read_write_same {m : Memory} (hm : m.wf = true) (a : Nat) (v : Byte) :
    (m.write a v).read a = v := by simp [Memory.read_write hm]

theorem Memory.read_write_other {m : Memory} (hm : m.wf = true) {a b : Nat} (h : b ≠ a) (v : Byte) :
    (m.write a v).read b = m.read b := by simp [Memory.read_write hm, h]

/-- What a write can put into the list: the address written, or an entry that was there. -/
theorem Memory.mem_write {m : Memory} {a : Nat} {v : Byte} {cell : Host.Cell} (h : cell ∈ m.write a v) :
    cell.1 = a ∨ cell ∈ m := by
  induction m with
  | nil =>
    simp only [Memory.write] at h
    split at h
    · simp at h
    · simp only [List.mem_singleton] at h
      exact .inl (by rw [h])
  | cons x m ih =>
    obtain ⟨a', v'⟩ := x
    simp only [Memory.write] at h
    split at h
    · split at h
      · exact .inr h
      · rcases List.mem_cons.mp h with h | h
        · exact .inl (by rw [h])
        · exact .inr h
    · split at h
      · split at h
        · exact .inr (List.mem_cons_of_mem _ h)
        · rcases List.mem_cons.mp h with h | h
          · exact .inl (by rw [h])
          · exact .inr (List.mem_cons_of_mem _ h)
      · rcases List.mem_cons.mp h with h | h
        · exact .inr (by rw [h]; simp)
        · rcases ih h with h | h
          · exact .inl h
          · exact .inr (List.mem_cons_of_mem _ h)

theorem Memory.wf_write {m : Memory} (hm : m.wf = true) (a : Nat) (v : Byte) : (m.write a v).wf = true := by
  induction m with
  | nil =>
    simp only [Memory.write]
    split
    · rfl
    · next hv => exact Memory.wf_cons.mpr ⟨hv, rfl, rfl⟩
  | cons x m ih =>
    obtain ⟨a', v'⟩ := x
    obtain ⟨hv', hlt, hwf⟩ := Memory.wf_cons.mp hm
    simp only [Memory.write]
    split
    · next haa' =>
      split
      · exact hm
      · next hv =>
        refine Memory.wf_cons.mpr ⟨hv, ?_, hm⟩
        simp only [List.all_cons, Bool.and_eq_true, decide_eq_true_eq]
        exact ⟨haa', Memory.all_lt_trans haa' hlt⟩
    · next haa' =>
      split
      · next heq =>
        subst heq
        split
        · exact hwf
        · next hv => exact Memory.wf_cons.mpr ⟨hv, hlt, hwf⟩
      · next hne =>
        refine Memory.wf_cons.mpr ⟨hv', ?_, ih hwf⟩
        simp only [List.all_eq_true, decide_eq_true_eq] at hlt ⊢
        intro cell hc
        rcases Memory.mem_write hc with h | h
        · omega
        · exact hlt cell h

end Sys2Proof.Machine
end

