-- ==== Sys2Proof/Laws/State.lean ====
section
/-! SUPPORT. What every named update of the state does to every field, true by definition: later proofs cite
these and unfold no update. -/

namespace Sys2Proof.Machine

/-! ## State.emit -/

@[simp] theorem State.emit_cfg (e : Event) (s : State) :
    (s.emit e).cfg = s.cfg := rfl

@[simp] theorem State.emit_input (e : Event) (s : State) :
    (s.emit e).input = s.input := rfl

@[simp] theorem State.emit_events (e : Event) (s : State) :
    (s.emit e).events = s.events ++ [e] := rfl

@[simp] theorem State.emit_result (e : Event) (s : State) :
    (s.emit e).result = s.result := rfl

@[simp] theorem State.emit_idx (e : Event) (s : State) :
    (s.emit e).idx = s.idx := rfl

@[simp] theorem State.emit_pulseOpen (e : Event) (s : State) :
    (s.emit e).pulseOpen = s.pulseOpen := rfl

@[simp] theorem State.emit_pulseStart (e : Event) (s : State) :
    (s.emit e).pulseStart = s.pulseStart := rfl

@[simp] theorem State.emit_sigOpen (e : Event) (s : State) :
    (s.emit e).sigOpen = s.sigOpen := rfl

@[simp] theorem State.emit_sigStart (e : Event) (s : State) :
    (s.emit e).sigStart = s.sigStart := rfl

@[simp] theorem State.emit_lastEnd (e : Event) (s : State) :
    (s.emit e).lastEnd = s.lastEnd := rfl

@[simp] theorem State.emit_tbl (e : Event) (s : State) :
    (s.emit e).tbl = s.tbl := rfl

@[simp] theorem State.emit_halted (e : Event) (s : State) :
    (s.emit e).halted = s.halted := rfl

@[simp] theorem State.emit_tblOvf (e : Event) (s : State) :
    (s.emit e).tblOvf = s.tblOvf := rfl

@[simp] theorem State.emit_badcmd (e : Event) (s : State) :
    (s.emit e).badcmd = s.badcmd := rfl

@[simp] theorem State.emit_demods (e : Event) (s : State) :
    (s.emit e).demods = s.demods := rfl

/-! ## State.emitAll -/

@[simp] theorem State.emitAll_cfg (es : List Event) (s : State) :
    (s.emitAll es).cfg = s.cfg := rfl

@[simp] theorem State.emitAll_input (es : List Event) (s : State) :
    (s.emitAll es).input = s.input := rfl

@[simp] theorem State.emitAll_events (es : List Event) (s : State) :
    (s.emitAll es).events = s.events ++ es := rfl

@[simp] theorem State.emitAll_result (es : List Event) (s : State) :
    (s.emitAll es).result = s.result := rfl

@[simp] theorem State.emitAll_idx (es : List Event) (s : State) :
    (s.emitAll es).idx = s.idx := rfl

@[simp] theorem State.emitAll_pulseOpen (es : List Event) (s : State) :
    (s.emitAll es).pulseOpen = s.pulseOpen := rfl

@[simp] theorem State.emitAll_pulseStart (es : List Event) (s : State) :
    (s.emitAll es).pulseStart = s.pulseStart := rfl

@[simp] theorem State.emitAll_sigOpen (es : List Event) (s : State) :
    (s.emitAll es).sigOpen = s.sigOpen := rfl

@[simp] theorem State.emitAll_sigStart (es : List Event) (s : State) :
    (s.emitAll es).sigStart = s.sigStart := rfl

@[simp] theorem State.emitAll_lastEnd (es : List Event) (s : State) :
    (s.emitAll es).lastEnd = s.lastEnd := rfl

@[simp] theorem State.emitAll_tbl (es : List Event) (s : State) :
    (s.emitAll es).tbl = s.tbl := rfl

@[simp] theorem State.emitAll_halted (es : List Event) (s : State) :
    (s.emitAll es).halted = s.halted := rfl

@[simp] theorem State.emitAll_tblOvf (es : List Event) (s : State) :
    (s.emitAll es).tblOvf = s.tblOvf := rfl

@[simp] theorem State.emitAll_badcmd (es : List Event) (s : State) :
    (s.emitAll es).badcmd = s.badcmd := rfl

@[simp] theorem State.emitAll_demods (es : List Event) (s : State) :
    (s.emitAll es).demods = s.demods := rfl

/-! ## State.answer -/

@[simp] theorem State.answer_cfg (v : OpResult) (s : State) :
    (s.answer v).cfg = s.cfg := rfl

@[simp] theorem State.answer_input (v : OpResult) (s : State) :
    (s.answer v).input = s.input := rfl

@[simp] theorem State.answer_events (v : OpResult) (s : State) :
    (s.answer v).events = s.events := rfl

@[simp] theorem State.answer_result (v : OpResult) (s : State) :
    (s.answer v).result = some v := rfl

@[simp] theorem State.answer_idx (v : OpResult) (s : State) :
    (s.answer v).idx = s.idx := rfl

@[simp] theorem State.answer_pulseOpen (v : OpResult) (s : State) :
    (s.answer v).pulseOpen = s.pulseOpen := rfl

@[simp] theorem State.answer_pulseStart (v : OpResult) (s : State) :
    (s.answer v).pulseStart = s.pulseStart := rfl

@[simp] theorem State.answer_sigOpen (v : OpResult) (s : State) :
    (s.answer v).sigOpen = s.sigOpen := rfl

@[simp] theorem State.answer_sigStart (v : OpResult) (s : State) :
    (s.answer v).sigStart = s.sigStart := rfl

@[simp] theorem State.answer_lastEnd (v : OpResult) (s : State) :
    (s.answer v).lastEnd = s.lastEnd := rfl

@[simp] theorem State.answer_tbl (v : OpResult) (s : State) :
    (s.answer v).tbl = s.tbl := rfl

@[simp] theorem State.answer_halted (v : OpResult) (s : State) :
    (s.answer v).halted = s.halted := rfl

@[simp] theorem State.answer_tblOvf (v : OpResult) (s : State) :
    (s.answer v).tblOvf = s.tblOvf := rfl

@[simp] theorem State.answer_badcmd (v : OpResult) (s : State) :
    (s.answer v).badcmd = s.badcmd := rfl

@[simp] theorem State.answer_demods (v : OpResult) (s : State) :
    (s.answer v).demods = s.demods := rfl

/-! ## State.beginStep -/

@[simp] theorem State.beginStep_cfg (rest : List Pins) (s : State) :
    (s.beginStep rest).cfg = s.cfg := rfl

@[simp] theorem State.beginStep_input (rest : List Pins) (s : State) :
    (s.beginStep rest).input = rest := rfl

@[simp] theorem State.beginStep_events (rest : List Pins) (s : State) :
    (s.beginStep rest).events = [] := rfl

@[simp] theorem State.beginStep_result (rest : List Pins) (s : State) :
    (s.beginStep rest).result = none := rfl

@[simp] theorem State.beginStep_idx (rest : List Pins) (s : State) :
    (s.beginStep rest).idx = s.idx := rfl

@[simp] theorem State.beginStep_pulseOpen (rest : List Pins) (s : State) :
    (s.beginStep rest).pulseOpen = s.pulseOpen := rfl

@[simp] theorem State.beginStep_pulseStart (rest : List Pins) (s : State) :
    (s.beginStep rest).pulseStart = s.pulseStart := rfl

@[simp] theorem State.beginStep_sigOpen (rest : List Pins) (s : State) :
    (s.beginStep rest).sigOpen = s.sigOpen := rfl

@[simp] theorem State.beginStep_sigStart (rest : List Pins) (s : State) :
    (s.beginStep rest).sigStart = s.sigStart := rfl

@[simp] theorem State.beginStep_lastEnd (rest : List Pins) (s : State) :
    (s.beginStep rest).lastEnd = s.lastEnd := rfl

@[simp] theorem State.beginStep_tbl (rest : List Pins) (s : State) :
    (s.beginStep rest).tbl = s.tbl := rfl

@[simp] theorem State.beginStep_halted (rest : List Pins) (s : State) :
    (s.beginStep rest).halted = s.halted := rfl

@[simp] theorem State.beginStep_tblOvf (rest : List Pins) (s : State) :
    (s.beginStep rest).tblOvf = s.tblOvf := rfl

@[simp] theorem State.beginStep_badcmd (rest : List Pins) (s : State) :
    (s.beginStep rest).badcmd = s.badcmd := rfl

@[simp] theorem State.beginStep_demods (rest : List Pins) (s : State) :
    (s.beginStep rest).demods = s.demods := rfl

/-! ## State.setDemod -/

@[simp] theorem State.setDemod_cfg (p : Nat) (d : Demod) (s : State) :
    (s.setDemod p d).cfg = s.cfg := rfl

@[simp] theorem State.setDemod_input (p : Nat) (d : Demod) (s : State) :
    (s.setDemod p d).input = s.input := rfl

@[simp] theorem State.setDemod_events (p : Nat) (d : Demod) (s : State) :
    (s.setDemod p d).events = s.events := rfl

@[simp] theorem State.setDemod_result (p : Nat) (d : Demod) (s : State) :
    (s.setDemod p d).result = s.result := rfl

@[simp] theorem State.setDemod_idx (p : Nat) (d : Demod) (s : State) :
    (s.setDemod p d).idx = s.idx := rfl

@[simp] theorem State.setDemod_pulseOpen (p : Nat) (d : Demod) (s : State) :
    (s.setDemod p d).pulseOpen = s.pulseOpen := rfl

@[simp] theorem State.setDemod_pulseStart (p : Nat) (d : Demod) (s : State) :
    (s.setDemod p d).pulseStart = s.pulseStart := rfl

@[simp] theorem State.setDemod_sigOpen (p : Nat) (d : Demod) (s : State) :
    (s.setDemod p d).sigOpen = s.sigOpen := rfl

@[simp] theorem State.setDemod_sigStart (p : Nat) (d : Demod) (s : State) :
    (s.setDemod p d).sigStart = s.sigStart := rfl

@[simp] theorem State.setDemod_lastEnd (p : Nat) (d : Demod) (s : State) :
    (s.setDemod p d).lastEnd = s.lastEnd := rfl

@[simp] theorem State.setDemod_tbl (p : Nat) (d : Demod) (s : State) :
    (s.setDemod p d).tbl = s.tbl := rfl

@[simp] theorem State.setDemod_halted (p : Nat) (d : Demod) (s : State) :
    (s.setDemod p d).halted = s.halted := rfl

@[simp] theorem State.setDemod_tblOvf (p : Nat) (d : Demod) (s : State) :
    (s.setDemod p d).tblOvf = s.tblOvf := rfl

@[simp] theorem State.setDemod_badcmd (p : Nat) (d : Demod) (s : State) :
    (s.setDemod p d).badcmd = s.badcmd := rfl

@[simp] theorem State.setDemod_demods (p : Nat) (d : Demod) (s : State) :
    (s.setDemod p d).demods = s.demods.set p d := rfl

/-! ## State.captureClear -/

@[simp] theorem State.captureClear_cfg (s : State) :
    (s.captureClear).cfg = s.cfg := rfl

@[simp] theorem State.captureClear_input (s : State) :
    (s.captureClear).input = s.input := rfl

@[simp] theorem State.captureClear_events (s : State) :
    (s.captureClear).events = s.events := rfl

@[simp] theorem State.captureClear_result (s : State) :
    (s.captureClear).result = s.result := rfl

@[simp] theorem State.captureClear_idx (s : State) :
    (s.captureClear).idx = s.idx := rfl

@[simp] theorem State.captureClear_pulseOpen (s : State) :
    (s.captureClear).pulseOpen = s.pulseOpen := rfl

@[simp] theorem State.captureClear_pulseStart (s : State) :
    (s.captureClear).pulseStart = s.pulseStart := rfl

@[simp] theorem State.captureClear_sigOpen (s : State) :
    (s.captureClear).sigOpen = false := rfl

@[simp] theorem State.captureClear_sigStart (s : State) :
    (s.captureClear).sigStart = s.sigStart := rfl

@[simp] theorem State.captureClear_lastEnd (s : State) :
    (s.captureClear).lastEnd = s.lastEnd := rfl

@[simp] theorem State.captureClear_tbl (s : State) :
    (s.captureClear).tbl = [] := rfl

@[simp] theorem State.captureClear_halted (s : State) :
    (s.captureClear).halted = s.halted := rfl

@[simp] theorem State.captureClear_tblOvf (s : State) :
    (s.captureClear).tblOvf = s.tblOvf := rfl

@[simp] theorem State.captureClear_badcmd (s : State) :
    (s.captureClear).badcmd = s.badcmd := rfl

@[simp] theorem State.captureClear_demods (s : State) :
    (s.captureClear).demods = s.demods.map (·.clear s.cfg) := rfl

/-! ## State.openSignal -/

@[simp] theorem State.openSignal_cfg (r : PulseRecord) (s : State) :
    (s.openSignal r).cfg = s.cfg := rfl

@[simp] theorem State.openSignal_input (r : PulseRecord) (s : State) :
    (s.openSignal r).input = s.input := rfl

@[simp] theorem State.openSignal_events (r : PulseRecord) (s : State) :
    (s.openSignal r).events = s.events ++ [.signalOpened r.start] := rfl

@[simp] theorem State.openSignal_result (r : PulseRecord) (s : State) :
    (s.openSignal r).result = s.result := rfl

@[simp] theorem State.openSignal_idx (r : PulseRecord) (s : State) :
    (s.openSignal r).idx = s.idx := rfl

@[simp] theorem State.openSignal_pulseOpen (r : PulseRecord) (s : State) :
    (s.openSignal r).pulseOpen = s.pulseOpen := rfl

@[simp] theorem State.openSignal_pulseStart (r : PulseRecord) (s : State) :
    (s.openSignal r).pulseStart = s.pulseStart := rfl

@[simp] theorem State.openSignal_sigOpen (r : PulseRecord) (s : State) :
    (s.openSignal r).sigOpen = true := rfl

@[simp] theorem State.openSignal_sigStart (r : PulseRecord) (s : State) :
    (s.openSignal r).sigStart = r.start := rfl

@[simp] theorem State.openSignal_lastEnd (r : PulseRecord) (s : State) :
    (s.openSignal r).lastEnd = s.lastEnd := rfl

@[simp] theorem State.openSignal_tbl (r : PulseRecord) (s : State) :
    (s.openSignal r).tbl = s.tbl := rfl

@[simp] theorem State.openSignal_halted (r : PulseRecord) (s : State) :
    (s.openSignal r).halted = s.halted := rfl

@[simp] theorem State.openSignal_tblOvf (r : PulseRecord) (s : State) :
    (s.openSignal r).tblOvf = s.tblOvf := rfl

@[simp] theorem State.openSignal_badcmd (r : PulseRecord) (s : State) :
    (s.openSignal r).badcmd = s.badcmd := rfl

@[simp] theorem State.openSignal_demods (r : PulseRecord) (s : State) :
    (s.openSignal r).demods = s.demods := rfl

/-! ## State.demodAll -/

@[simp] theorem State.demodAll_cfg (r : PulseRecord) (s : State) :
    (s.demodAll r).cfg = s.cfg := rfl

@[simp] theorem State.demodAll_input (r : PulseRecord) (s : State) :
    (s.demodAll r).input = s.input := rfl

@[simp] theorem State.demodAll_events (r : PulseRecord) (s : State) :
    (s.demodAll r).events = s.events := rfl

@[simp] theorem State.demodAll_result (r : PulseRecord) (s : State) :
    (s.demodAll r).result = s.result := rfl

@[simp] theorem State.demodAll_idx (r : PulseRecord) (s : State) :
    (s.demodAll r).idx = s.idx := rfl

@[simp] theorem State.demodAll_pulseOpen (r : PulseRecord) (s : State) :
    (s.demodAll r).pulseOpen = s.pulseOpen := rfl

@[simp] theorem State.demodAll_pulseStart (r : PulseRecord) (s : State) :
    (s.demodAll r).pulseStart = s.pulseStart := rfl

@[simp] theorem State.demodAll_sigOpen (r : PulseRecord) (s : State) :
    (s.demodAll r).sigOpen = s.sigOpen := rfl

@[simp] theorem State.demodAll_sigStart (r : PulseRecord) (s : State) :
    (s.demodAll r).sigStart = s.sigStart := rfl

@[simp] theorem State.demodAll_lastEnd (r : PulseRecord) (s : State) :
    (s.demodAll r).lastEnd = s.lastEnd := rfl

@[simp] theorem State.demodAll_tbl (r : PulseRecord) (s : State) :
    (s.demodAll r).tbl = s.tbl := rfl

@[simp] theorem State.demodAll_halted (r : PulseRecord) (s : State) :
    (s.demodAll r).halted = s.halted := rfl

@[simp] theorem State.demodAll_tblOvf (r : PulseRecord) (s : State) :
    (s.demodAll r).tblOvf = s.tblOvf := rfl

@[simp] theorem State.demodAll_badcmd (r : PulseRecord) (s : State) :
    (s.demodAll r).badcmd = s.badcmd := rfl

/-! ## State.appendPulse -/

@[simp] theorem State.appendPulse_cfg (r : PulseRecord) (s : State) :
    (s.appendPulse r).cfg = s.cfg := rfl

@[simp] theorem State.appendPulse_input (r : PulseRecord) (s : State) :
    (s.appendPulse r).input = s.input := rfl

@[simp] theorem State.appendPulse_events (r : PulseRecord) (s : State) :
    (s.appendPulse r).events = s.events ++ [.pulse r] := rfl

@[simp] theorem State.appendPulse_result (r : PulseRecord) (s : State) :
    (s.appendPulse r).result = s.result := rfl

@[simp] theorem State.appendPulse_idx (r : PulseRecord) (s : State) :
    (s.appendPulse r).idx = s.idx := rfl

@[simp] theorem State.appendPulse_pulseOpen (r : PulseRecord) (s : State) :
    (s.appendPulse r).pulseOpen = s.pulseOpen := rfl

@[simp] theorem State.appendPulse_pulseStart (r : PulseRecord) (s : State) :
    (s.appendPulse r).pulseStart = s.pulseStart := rfl

@[simp] theorem State.appendPulse_sigOpen (r : PulseRecord) (s : State) :
    (s.appendPulse r).sigOpen = s.sigOpen := rfl

@[simp] theorem State.appendPulse_sigStart (r : PulseRecord) (s : State) :
    (s.appendPulse r).sigStart = s.sigStart := rfl

@[simp] theorem State.appendPulse_lastEnd (r : PulseRecord) (s : State) :
    (s.appendPulse r).lastEnd = r.stop := rfl

@[simp] theorem State.appendPulse_tbl (r : PulseRecord) (s : State) :
    (s.appendPulse r).tbl = s.tbl ++ [r.event] := rfl

@[simp] theorem State.appendPulse_halted (r : PulseRecord) (s : State) :
    (s.appendPulse r).halted = s.halted := rfl

@[simp] theorem State.appendPulse_tblOvf (r : PulseRecord) (s : State) :
    (s.appendPulse r).tblOvf = s.tblOvf := rfl

@[simp] theorem State.appendPulse_badcmd (r : PulseRecord) (s : State) :
    (s.appendPulse r).badcmd = s.badcmd := rfl

@[simp] theorem State.appendPulse_demods (r : PulseRecord) (s : State) :
    (s.appendPulse r).demods = (s.demodAll r).demods := rfl

/-! ## State.abortSignal -/

@[simp] theorem State.abortSignal_cfg (n : Word) (s : State) :
    (s.abortSignal n).cfg = s.cfg := rfl

@[simp] theorem State.abortSignal_input (n : Word) (s : State) :
    (s.abortSignal n).input = s.input := rfl

@[simp] theorem State.abortSignal_events (n : Word) (s : State) :
    (s.abortSignal n).events = s.events ++ [.tableOverflow n] := rfl

@[simp] theorem State.abortSignal_result (n : Word) (s : State) :
    (s.abortSignal n).result = s.result := rfl

@[simp] theorem State.abortSignal_idx (n : Word) (s : State) :
    (s.abortSignal n).idx = s.idx := rfl

@[simp] theorem State.abortSignal_pulseOpen (n : Word) (s : State) :
    (s.abortSignal n).pulseOpen = s.pulseOpen := rfl

@[simp] theorem State.abortSignal_pulseStart (n : Word) (s : State) :
    (s.abortSignal n).pulseStart = s.pulseStart := rfl

@[simp] theorem State.abortSignal_sigOpen (n : Word) (s : State) :
    (s.abortSignal n).sigOpen = false := rfl

@[simp] theorem State.abortSignal_sigStart (n : Word) (s : State) :
    (s.abortSignal n).sigStart = s.sigStart := rfl

@[simp] theorem State.abortSignal_lastEnd (n : Word) (s : State) :
    (s.abortSignal n).lastEnd = s.lastEnd := rfl

@[simp] theorem State.abortSignal_tbl (n : Word) (s : State) :
    (s.abortSignal n).tbl = [] := rfl

@[simp] theorem State.abortSignal_halted (n : Word) (s : State) :
    (s.abortSignal n).halted = s.halted := rfl

@[simp] theorem State.abortSignal_tblOvf (n : Word) (s : State) :
    (s.abortSignal n).tblOvf = true := rfl

@[simp] theorem State.abortSignal_badcmd (n : Word) (s : State) :
    (s.abortSignal n).badcmd = s.badcmd := rfl

@[simp] theorem State.abortSignal_demods (n : Word) (s : State) :
    (s.abortSignal n).demods = s.demods.map (·.clear s.cfg) := rfl

/-! ## State.closeSignal -/

@[simp] theorem State.closeSignal_cfg (n : Word) (s : State) :
    (s.closeSignal n).cfg = s.cfg := rfl

@[simp] theorem State.closeSignal_input (n : Word) (s : State) :
    (s.closeSignal n).input = s.input := rfl

@[simp] theorem State.closeSignal_events (n : Word) (s : State) :
    (s.closeSignal n).events = s.events ++ (s.closedEvent n :: s.doneEvents) := rfl

@[simp] theorem State.closeSignal_result (n : Word) (s : State) :
    (s.closeSignal n).result = s.result := rfl

@[simp] theorem State.closeSignal_idx (n : Word) (s : State) :
    (s.closeSignal n).idx = s.idx := rfl

@[simp] theorem State.closeSignal_pulseOpen (n : Word) (s : State) :
    (s.closeSignal n).pulseOpen = s.pulseOpen := rfl

@[simp] theorem State.closeSignal_pulseStart (n : Word) (s : State) :
    (s.closeSignal n).pulseStart = s.pulseStart := rfl

@[simp] theorem State.closeSignal_sigOpen (n : Word) (s : State) :
    (s.closeSignal n).sigOpen = false := rfl

@[simp] theorem State.closeSignal_sigStart (n : Word) (s : State) :
    (s.closeSignal n).sigStart = s.sigStart := rfl

@[simp] theorem State.closeSignal_lastEnd (n : Word) (s : State) :
    (s.closeSignal n).lastEnd = s.lastEnd := rfl

@[simp] theorem State.closeSignal_tbl (n : Word) (s : State) :
    (s.closeSignal n).tbl = [] := rfl

@[simp] theorem State.closeSignal_halted (n : Word) (s : State) :
    (s.closeSignal n).halted = s.halted := rfl

@[simp] theorem State.closeSignal_tblOvf (n : Word) (s : State) :
    (s.closeSignal n).tblOvf = s.tblOvf := rfl

@[simp] theorem State.closeSignal_badcmd (n : Word) (s : State) :
    (s.closeSignal n).badcmd = s.badcmd := rfl

@[simp] theorem State.closeSignal_demods (n : Word) (s : State) :
    (s.closeSignal n).demods = s.demods.map (·.clear s.cfg) := rfl

/-! ## State.risingEdge -/

@[simp] theorem State.risingEdge_cfg (s : State) :
    (s.risingEdge).cfg = s.cfg := rfl

@[simp] theorem State.risingEdge_input (s : State) :
    (s.risingEdge).input = s.input := rfl

@[simp] theorem State.risingEdge_events (s : State) :
    (s.risingEdge).events = s.events := rfl

@[simp] theorem State.risingEdge_result (s : State) :
    (s.risingEdge).result = s.result := rfl

@[simp] theorem State.risingEdge_idx (s : State) :
    (s.risingEdge).idx = s.idx := rfl

@[simp] theorem State.risingEdge_pulseOpen (s : State) :
    (s.risingEdge).pulseOpen = true := rfl

@[simp] theorem State.risingEdge_pulseStart (s : State) :
    (s.risingEdge).pulseStart = s.idx := rfl

@[simp] theorem State.risingEdge_sigOpen (s : State) :
    (s.risingEdge).sigOpen = s.sigOpen := rfl

@[simp] theorem State.risingEdge_sigStart (s : State) :
    (s.risingEdge).sigStart = s.sigStart := rfl

@[simp] theorem State.risingEdge_lastEnd (s : State) :
    (s.risingEdge).lastEnd = s.lastEnd := rfl

@[simp] theorem State.risingEdge_tbl (s : State) :
    (s.risingEdge).tbl = s.tbl := rfl

@[simp] theorem State.risingEdge_halted (s : State) :
    (s.risingEdge).halted = s.halted := rfl

@[simp] theorem State.risingEdge_tblOvf (s : State) :
    (s.risingEdge).tblOvf = s.tblOvf := rfl

@[simp] theorem State.risingEdge_badcmd (s : State) :
    (s.risingEdge).badcmd = s.badcmd := rfl

@[simp] theorem State.risingEdge_demods (s : State) :
    (s.risingEdge).demods = s.demods := rfl

/-! ## State.advance -/

@[simp] theorem State.advance_cfg (s : State) :
    (s.advance).cfg = s.cfg := rfl

@[simp] theorem State.advance_input (s : State) :
    (s.advance).input = s.input := rfl

@[simp] theorem State.advance_events (s : State) :
    (s.advance).events = s.events := rfl

@[simp] theorem State.advance_result (s : State) :
    (s.advance).result = s.result := rfl

@[simp] theorem State.advance_idx (s : State) :
    (s.advance).idx = s.cfg.wrap (s.idx + 1) := rfl

@[simp] theorem State.advance_pulseOpen (s : State) :
    (s.advance).pulseOpen = s.pulseOpen := rfl

@[simp] theorem State.advance_pulseStart (s : State) :
    (s.advance).pulseStart = s.pulseStart := rfl

@[simp] theorem State.advance_sigOpen (s : State) :
    (s.advance).sigOpen = s.sigOpen := rfl

@[simp] theorem State.advance_sigStart (s : State) :
    (s.advance).sigStart = s.sigStart := rfl

@[simp] theorem State.advance_lastEnd (s : State) :
    (s.advance).lastEnd = s.lastEnd := rfl

@[simp] theorem State.advance_tbl (s : State) :
    (s.advance).tbl = s.tbl := rfl

@[simp] theorem State.advance_halted (s : State) :
    (s.advance).halted = s.halted := rfl

@[simp] theorem State.advance_tblOvf (s : State) :
    (s.advance).tblOvf = s.tblOvf := rfl

@[simp] theorem State.advance_badcmd (s : State) :
    (s.advance).badcmd = s.badcmd := rfl

@[simp] theorem State.advance_demods (s : State) :
    (s.advance).demods = s.demods := rfl

/-! ## State.shutDown -/

@[simp] theorem State.shutDown_cfg (s : State) :
    (s.shutDown).cfg = s.cfg := rfl

@[simp] theorem State.shutDown_input (s : State) :
    (s.shutDown).input = s.input := rfl

@[simp] theorem State.shutDown_events (s : State) :
    (s.shutDown).events = s.events := rfl

@[simp] theorem State.shutDown_result (s : State) :
    (s.shutDown).result = s.result := rfl

@[simp] theorem State.shutDown_idx (s : State) :
    (s.shutDown).idx = s.idx := rfl

@[simp] theorem State.shutDown_pulseOpen (s : State) :
    (s.shutDown).pulseOpen = false := rfl

@[simp] theorem State.shutDown_pulseStart (s : State) :
    (s.shutDown).pulseStart = s.pulseStart := rfl

@[simp] theorem State.shutDown_sigOpen (s : State) :
    (s.shutDown).sigOpen = false := rfl

@[simp] theorem State.shutDown_sigStart (s : State) :
    (s.shutDown).sigStart = s.sigStart := rfl

@[simp] theorem State.shutDown_lastEnd (s : State) :
    (s.shutDown).lastEnd = s.lastEnd := rfl

@[simp] theorem State.shutDown_tbl (s : State) :
    (s.shutDown).tbl = [] := rfl

@[simp] theorem State.shutDown_halted (s : State) :
    (s.shutDown).halted = true := rfl

@[simp] theorem State.shutDown_tblOvf (s : State) :
    (s.shutDown).tblOvf = s.tblOvf := rfl

@[simp] theorem State.shutDown_badcmd (s : State) :
    (s.shutDown).badcmd = s.badcmd := rfl

@[simp] theorem State.shutDown_demods (s : State) :
    (s.shutDown).demods = s.demods.map (·.clear s.cfg) := rfl

/-! ## State.resetAll -/

@[simp] theorem State.resetAll_cfg (s : State) :
    (s.resetAll).cfg = s.cfg := rfl

@[simp] theorem State.resetAll_input (s : State) :
    (s.resetAll).input = s.input := rfl

@[simp] theorem State.resetAll_events (s : State) :
    (s.resetAll).events = s.events := rfl

@[simp] theorem State.resetAll_result (s : State) :
    (s.resetAll).result = s.result := rfl

@[simp] theorem State.resetAll_idx (s : State) :
    (s.resetAll).idx = 0 := rfl

@[simp] theorem State.resetAll_pulseOpen (s : State) :
    (s.resetAll).pulseOpen = false := rfl

@[simp] theorem State.resetAll_pulseStart (s : State) :
    (s.resetAll).pulseStart = 0 := rfl

@[simp] theorem State.resetAll_sigOpen (s : State) :
    (s.resetAll).sigOpen = false := rfl

@[simp] theorem State.resetAll_sigStart (s : State) :
    (s.resetAll).sigStart = 0 := rfl

@[simp] theorem State.resetAll_lastEnd (s : State) :
    (s.resetAll).lastEnd = 0 := rfl

@[simp] theorem State.resetAll_tbl (s : State) :
    (s.resetAll).tbl = [] := rfl

@[simp] theorem State.resetAll_halted (s : State) :
    (s.resetAll).halted = false := rfl

@[simp] theorem State.resetAll_tblOvf (s : State) :
    (s.resetAll).tblOvf = false := rfl

@[simp] theorem State.resetAll_badcmd (s : State) :
    (s.resetAll).badcmd = false := rfl

@[simp] theorem State.resetAll_demods (s : State) :
    (s.resetAll).demods = List.replicate s.cfg.nProto (Demod.reset s.cfg.bbRows) := rfl

/-! ## Demod.truncate -/

@[simp] theorem Demod.truncate_bb (d : Demod) :
    (d.truncate).bb = d.bb := rfl

@[simp] theorem Demod.truncate_row (d : Demod) :
    (d.truncate).row = d.row := rfl

@[simp] theorem Demod.truncate_col (d : Demod) :
    (d.truncate).col = d.col := rfl

@[simp] theorem Demod.truncate_bitpos (d : Demod) :
    (d.truncate).bitpos = d.bitpos := rfl

@[simp] theorem Demod.truncate_rowBits (d : Demod) :
    (d.truncate).rowBits = d.rowBits := rfl

@[simp] theorem Demod.truncate_trunc (d : Demod) :
    (d.truncate).trunc = true := rfl

@[simp] theorem Demod.truncate_mValid (d : Demod) :
    (d.truncate).mValid = d.mValid := rfl

@[simp] theorem Demod.truncate_mLast (d : Demod) :
    (d.truncate).mLast = d.mLast := rfl

/-! ## Demod.storeBit -/

@[simp] theorem Demod.storeBit_bb (c : Config) (b : Bool) (d : Demod) :
    (d.storeBit c b).bb = (if b then d.orBit c else d.bb) := rfl

@[simp] theorem Demod.storeBit_row (c : Config) (b : Bool) (d : Demod) :
    (d.storeBit c b).row = d.row := rfl

@[simp] theorem Demod.storeBit_col (c : Config) (b : Bool) (d : Demod) :
    (d.storeBit c b).col = (if d.bitpos = 0 then d.col + 1 else d.col) := rfl

@[simp] theorem Demod.storeBit_bitpos (c : Config) (b : Bool) (d : Demod) :
    (d.storeBit c b).bitpos = nextBitpos d.bitpos := rfl

@[simp] theorem Demod.storeBit_rowBits (c : Config) (b : Bool) (d : Demod) :
    (d.storeBit c b).rowBits = d.rowBits.modify d.row (· + 1) := rfl

@[simp] theorem Demod.storeBit_trunc (c : Config) (b : Bool) (d : Demod) :
    (d.storeBit c b).trunc = d.trunc := rfl

@[simp] theorem Demod.storeBit_mValid (c : Config) (b : Bool) (d : Demod) :
    (d.storeBit c b).mValid = d.mValid := rfl

@[simp] theorem Demod.storeBit_mLast (c : Config) (b : Bool) (d : Demod) :
    (d.storeBit c b).mLast = d.mLast := rfl

/-! ## Demod.nextRow -/

@[simp] theorem Demod.nextRow_bb (c : Config) (d : Demod) :
    (d.nextRow c).bb = d.bb := rfl

@[simp] theorem Demod.nextRow_row (c : Config) (d : Demod) :
    (d.nextRow c).row = (if d.row < c.bbRows then d.row + 1 else d.row) := rfl

@[simp] theorem Demod.nextRow_col (c : Config) (d : Demod) :
    (d.nextRow c).col = 0 := rfl

@[simp] theorem Demod.nextRow_bitpos (c : Config) (d : Demod) :
    (d.nextRow c).bitpos = 7 := rfl

@[simp] theorem Demod.nextRow_rowBits (c : Config) (d : Demod) :
    (d.nextRow c).rowBits = d.rowBits := rfl

@[simp] theorem Demod.nextRow_trunc (c : Config) (d : Demod) :
    (d.nextRow c).trunc = d.trunc := rfl

@[simp] theorem Demod.nextRow_mValid (c : Config) (d : Demod) :
    (d.nextRow c).mValid = d.mValid := rfl

@[simp] theorem Demod.nextRow_mLast (c : Config) (d : Demod) :
    (d.nextRow c).mLast = d.mLast := rfl

/-! ## Demod.clear -/

@[simp] theorem Demod.clear_bb (c : Config) (d : Demod) :
    (d.clear c).bb = [] := rfl

@[simp] theorem Demod.clear_row (c : Config) (d : Demod) :
    (d.clear c).row = 0 := rfl

@[simp] theorem Demod.clear_col (c : Config) (d : Demod) :
    (d.clear c).col = 0 := rfl

@[simp] theorem Demod.clear_bitpos (c : Config) (d : Demod) :
    (d.clear c).bitpos = 7 := rfl

@[simp] theorem Demod.clear_rowBits (c : Config) (d : Demod) :
    (d.clear c).rowBits = List.replicate c.bbRows 0 := rfl

@[simp] theorem Demod.clear_trunc (c : Config) (d : Demod) :
    (d.clear c).trunc = false := rfl

@[simp] theorem Demod.clear_mValid (c : Config) (d : Demod) :
    (d.clear c).mValid = false := rfl

@[simp] theorem Demod.clear_mLast (c : Config) (d : Demod) :
    (d.clear c).mLast = d.mLast := rfl

end Sys2Proof.Machine
end

