-- ==== Sys2Proof/Laws/Operations.lean ====
section
/-! SUPPORT. For each shared operation, what it can do, said once: later proofs cite these and unfold no
operation. -/

namespace Sys2Proof.Machine

/-! ## The widths of R3 -/

/-- What `mod 2^IDX_W` is as a number. -/
@[simp] theorem wrap_toNat (c : Config) (x : Word) : (c.wrap x).toNat = x.toNat % 2 ^ (c.idxW : Nat) := by
  have hw : (c.idxW : Nat) ≤ 32 := by omega
  have h : x.toNat % 2 ^ (c.idxW : Nat) < 2 ^ 32 :=
    Nat.lt_of_lt_of_le (Nat.mod_lt _ (by positivity)) (Nat.pow_le_pow_right (by omega) hw)
  simp only [Config.wrap, BitVec.toNat_setWidth]
  exact Nat.mod_eq_of_lt h

theorem wrap_fits (c : Config) (x : Word) : Fits c (c.wrap x) := by
  rw [Fits, wrap_toNat]
  exact Nat.mod_lt _ (by positivity)

/-- At R3's default `IDX_W = 32` nothing is cut off: the rules' `mod 2^32`. -/
theorem wrap_default {c : Config} (h : c.idxW = 32) (x : Word) : c.wrap x = x := by
  apply BitVec.eq_of_toNat_eq
  rw [wrap_toNat, h]
  exact Nat.mod_eq_of_lt x.isLt

/-- A word of `IDX_W` bits needs no reducing. -/
theorem wrap_of_fits {c : Config} {x : Word} (h : Fits c x) : c.wrap x = x := by
  apply BitVec.eq_of_toNat_eq
  rw [wrap_toNat]
  exact Nat.mod_eq_of_lt h

/-- Limits of `IDX_W` bits are the numbers in their fields. -/
theorem wrapLimits_of_fits {c : Config} {lim : Limits} (h : LimitsFit c lim) : c.wrapLimits lim = lim := by
  simp only [Config.wrapLimits, wrap_of_fits h.1, wrap_of_fits h.2.1, wrap_of_fits h.2.2]

theorem wrapLimits_default {c : Config} (h : c.idxW = 32) (lim : Limits) : c.wrapLimits lim = lim := by
  simp only [Config.wrapLimits, wrap_default h]

/-- What the limits of a narrower `IDX_W` are as numbers. -/
@[simp] theorem wrapLimits_short (c : Config) (lim : Limits) :
    (c.wrapLimits lim).short.toNat = lim.short.toNat % 2 ^ (c.idxW : Nat) := wrap_toNat c lim.short

@[simp] theorem wrapLimits_long (c : Config) (lim : Limits) :
    (c.wrapLimits lim).long.toNat = lim.long.toNat % 2 ^ (c.idxW : Nat) := wrap_toNat c lim.long

@[simp] theorem wrapLimits_reset (c : Config) (lim : Limits) :
    (c.wrapLimits lim).reset.toNat = lim.reset.toNat % 2 ^ (c.idxW : Nat) := wrap_toNat c lim.reset

/-- Bits of the limits above `IDX_W` are not looked at. -/
@[simp] theorem wrapLimits_wrapLimits (c : Config) (lim : Limits) :
    c.wrapLimits (c.wrapLimits lim) = c.wrapLimits lim :=
  wrapLimits_of_fits ⟨wrap_fits c _, wrap_fits c _, wrap_fits c _⟩

/-- A difference needs reducing once only. -/
theorem wrap_sub (c : Config) (x y : Word) : c.wrap (c.wrap x - y) = c.wrap (x - y) := by
  have hd : 2 ^ (c.idxW : Nat) ∣ 2 ^ 32 := Nat.pow_dvd_pow 2 (by omega)
  apply BitVec.eq_of_toNat_eq
  simp only [wrap_toNat, BitVec.toNat_sub]
  rw [Nat.mod_mod_of_dvd _ hd, Nat.mod_mod_of_dvd _ hd, Nat.add_mod, Nat.mod_mod, ← Nat.add_mod]

/-- At R3's default `SAMPLE_W = 16` the sample is the whole `data` field (R63). -/
theorem sampleValue_default {c : Config} (h : c.sampleW = 16) (data : Sample) : sampleValue c data = data.toInt := by
  rw [sampleValue, h]; exact congrArg BitVec.toInt (BitVec.setWidth_eq data)

/-! ## Protocols -/

theorem State.withProto_eq {p : Nat} {s : State} {desc : Desc} {d : Demod} (hdesc : s.cfg.descs[p]? = some desc)
    (hd : s.demods[p]? = some d) (k : Desc → Demod → Result) : s.withProto p k = k desc d := by
  simp [State.withProto, hdesc, hd]

/-- An operation on protocol `p` answers a next state only when `p` has a descriptor and a demodulator. -/
theorem State.withProto_next {p : Nat} {s t : State} {k : Desc → Demod → Result}
    (h : s.withProto p k = .next t) :
    ∃ desc d, s.cfg.descs[p]? = some desc ∧ s.demods[p]? = some d ∧ k desc d = .next t := by
  unfold State.withProto at h
  split at h
  · next desc d hdesc hd => exact ⟨desc, d, hdesc, hd, h⟩
  · cases h

/-- A protocol below `N_PROTO` has a descriptor and, in a state of the right shape, a demodulator. -/
theorem State.proto_exists {s : State} {p : Nat} (hp : p < s.cfg.nProto) (hshape : s.demods.length = s.cfg.nProto) :
    ∃ desc d, s.cfg.descs[p]? = some desc ∧ s.demods[p]? = some d :=
  ⟨s.cfg.descs[p]'hp, s.demods[p]'(by omega), List.getElem?_eq_getElem hp, List.getElem?_eq_getElem (by omega)⟩

theorem State.demodAll_getElem? {r : PulseRecord} {s : State} {p : Nat} {desc : Desc} {d : Demod}
    (hdesc : s.cfg.descs[p]? = some desc) (hd : s.demods[p]? = some d) :
    (s.demodAll r).demods[p]? = some (d.demodulate s.cfg desc r) := by
  simp [State.demodAll, State.mapDemods, List.getElem?_mapIdx, hdesc, hd]

@[simp] theorem State.demodAll_length (r : PulseRecord) (s : State) :
    (s.demodAll r).demods.length = s.demods.length := by
  simp [State.demodAll, State.mapDemods]

/-- Every demodulator after a pulse is one from before, unchanged or demodulated with some descriptor. -/
theorem State.mem_demodAll {r : PulseRecord} {s : State} {d' : Demod} (h : d' ∈ (s.demodAll r).demods) :
    ∃ d ∈ s.demods, d' = d ∨ ∃ desc, d' = d.demodulate s.cfg desc r := by
  simp only [State.demodAll, State.mapDemods, List.mem_mapIdx] at h
  obtain ⟨i, hi, rfl⟩ := h
  refine ⟨s.demods[i], List.getElem_mem hi, ?_⟩
  split
  · next desc _ => exact .inr ⟨desc, rfl⟩
  · exact .inl rfl

/-! ## One demodulator -/

theorem Demod.addBit_pastEnd {c : Config} {d : Demod} (h : d.pastEnd c = true) (b : Bool) :
    d.addBit c b = d.truncate := by simp [Demod.addBit, h]

theorem Demod.addBit_room {c : Config} {d : Demod} (h : d.pastEnd c = false) (b : Bool) :
    d.addBit c b = d.storeBit c b := by simp [Demod.addBit, h]

theorem Demod.pastEnd_false {c : Config} {d : Demod} : d.pastEnd c = false ↔ d.row < c.bbRows ∧ d.col < c.bbCols := by
  simp [Demod.pastEnd]

theorem Demod.pastEnd_true {c : Config} {d : Demod} : d.pastEnd c = true ↔ c.bbRows ≤ d.row ∨ c.bbCols ≤ d.col := by
  simp [Demod.pastEnd]

/-- `add_bit` drops the bit past the end and stores it otherwise. -/
theorem Demod.addBit_cases (c : Config) (d : Demod) (b : Bool) :
    (d.pastEnd c = true ∧ d.addBit c b = d.truncate) ∨
    (d.row < c.bbRows ∧ d.col < c.bbCols ∧ d.addBit c b = d.storeBit c b) := by
  cases h : d.pastEnd c with
  | true => exact .inl ⟨rfl, Demod.addBit_pastEnd h b⟩
  | false =>
    obtain ⟨h₁, h₂⟩ := Demod.pastEnd_false.mp h
    exact .inr ⟨h₁, h₂, Demod.addBit_room h b⟩

theorem Demod.rowAdv_cases (c : Config) (lim : Limits) (r : PulseRecord) (d : Demod) :
    d.rowAdv c lim r = d ∨ d.rowAdv c lim r = { d.nextRow c with mValid := false } := by
  unfold Demod.rowAdv
  split
  · split
    · exact .inr rfl
    · exact .inl rfl
  · exact .inl rfl

theorem Demod.pwmD_cases (c : Config) (lim : Limits) (r : PulseRecord) (d : Demod) :
    d.pwmD c lim r = d ∨ ∃ b, d.pwmD c lim r = d.addBit c b := by
  unfold Demod.pwmD
  split
  · split
    · exact .inl rfl
    · exact .inr ⟨_, rfl⟩
  · exact .inl rfl

theorem Demod.manchEdge_cases (c : Config) (lim : Limits) (t : Word) (b : Bool) (d : Demod) :
    d.manchEdge c lim t b = d ∨
    d.manchEdge c lim t b = { d.addBit c b with mLast := t, mValid := true } := by
  unfold Demod.manchEdge
  split
  · exact .inr rfl
  · exact .inl rfl

/-- What a demodulator keeps: a property that `add_bit`, `next_row` and the Manchester pair keep is kept by
a whole `DEMOD`. -/
theorem Demod.demodulate_keeps {c : Config} (P : Demod → Prop) (hadd : ∀ d b, P d → P (d.addBit c b))
    (hrow : ∀ d, P d → P (d.nextRow c)) (hm : ∀ d v l, P d → P { d with mValid := v, mLast := l })
    (desc : Desc) (r : PulseRecord) (d : Demod) (h : P d) : P (d.demodulate c desc r) := by
  have hedge : ∀ t b d, P d → P (d.manchEdge c desc.limits t b) := by
    intro t b d hd
    rcases Demod.manchEdge_cases c desc.limits t b d with e | e <;> rw [e]
    · exact hd
    · exact hm _ _ _ (hadd _ _ hd)
  have hadv : P (d.rowAdv c desc.limits r) := by
    rcases Demod.rowAdv_cases c desc.limits r d with e | e <;> rw [e]
    · exact h
    · exact hm _ false (d.nextRow c).mLast (hrow _ h)
  unfold Demod.demodulate Demod.modulate
  split
  · rcases Demod.pwmD_cases c desc.limits r (d.rowAdv c desc.limits r) with e | ⟨b, e⟩ <;> rw [e]
    · exact hadv
    · exact hadd _ _ hadv
  · exact hadd _ _ hadv
  · exact hedge _ _ _ (hedge _ _ _ hadv)

/-- After a pulse the last data edge is the old one or an edge of the pulse (R126). -/
theorem Demod.demodulate_mLast (c : Config) (desc : Desc) (r : PulseRecord) (d : Demod) :
    (d.demodulate c desc r).mLast = d.mLast ∨ (d.demodulate c desc r).mLast = r.start ∨
    (d.demodulate c desc r).mLast = r.stop := by
  have hadd : ∀ (d : Demod) b, (d.addBit c b).mLast = d.mLast := by
    intro d b
    rcases Demod.addBit_cases c d b with ⟨-, e⟩ | ⟨-, -, e⟩ <;> rw [e] <;> rfl
  have hadv : (d.rowAdv c desc.limits r).mLast = d.mLast := by
    rcases Demod.rowAdv_cases c desc.limits r d with e | e <;> rw [e]; rfl
  have hedge : ∀ t b (d : Demod), (d.manchEdge c desc.limits t b).mLast = d.mLast ∨
      (d.manchEdge c desc.limits t b).mLast = t := by
    intro t b d
    rcases Demod.manchEdge_cases c desc.limits t b d with e | e <;> rw [e] <;> simp
  unfold Demod.demodulate Demod.modulate
  split
  · rcases Demod.pwmD_cases c desc.limits r (d.rowAdv c desc.limits r) with e | ⟨b, e⟩ <;> rw [e]
    · exact .inl hadv
    · exact .inl ((hadd _ _).trans hadv)
  · exact .inl ((hadd _ _).trans hadv)
  · unfold Demod.manch
    rcases hedge r.stop (!c.manchRiseBit) ((d.rowAdv c desc.limits r).manchEdge c desc.limits r.start c.manchRiseBit)
      with e | e
    · rcases hedge r.start c.manchRiseBit (d.rowAdv c desc.limits r) with e' | e'
      · exact .inl (e.trans (e'.trans hadv))
      · exact .inr (.inl (e.trans e'))
    · exact .inr (.inr e)

/-! ## The extractor -/

/-- The quiet check closes an open signal whose quiet count exceeds the window, and does nothing else. -/
theorem State.quietCheck_cases (n : Word) (s : State) :
    (s.sigOpen = true ∧ exceedsQuiet s.cfg n s.lastEnd = true ∧ s.quietCheck n = s.closeSignal n) ∨
    ((s.sigOpen = false ∨ exceedsQuiet s.cfg n s.lastEnd = false) ∧ s.quietCheck n = s) := by
  unfold State.quietCheck
  cases s.sigOpen <;> cases exceedsQuiet s.cfg n s.lastEnd <;> simp

/-- A falling edge first ends the pulse and sees to it that a signal is open. -/
theorem State.closePulse_cases (s : State) :
    (s.sigOpen = true ∧ s.closePulse = { s with pulseOpen := false }) ∨
    (s.sigOpen = false ∧ s.closePulse = ({ s with pulseOpen := false } : State).openSignal s.fallRecord) := by
  unfold State.closePulse
  cases s.sigOpen <;> simp

/-- Then the pulse is appended, or the signal is aborted when the table is full. -/
theorem State.takePulse_cases (s : State) :
    (s.cfg.tblCap.toNat ≤ s.tbl.length ∧ s.takePulse = s.closePulse.abortSignal s.idx) ∨
    (s.tbl.length < s.cfg.tblCap.toNat ∧ s.takePulse = s.closePulse.appendPulse s.fallRecord) := by
  have hcfg : s.closePulse.cfg = s.cfg := by
    rcases s.closePulse_cases with ⟨-, e⟩ | ⟨-, e⟩
    · rw [e]
    · rw [e, State.openSignal_cfg]
  have htbl : s.closePulse.tbl = s.tbl := by
    rcases s.closePulse_cases with ⟨-, e⟩ | ⟨-, e⟩
    · rw [e]
    · rw [e, State.openSignal_tbl]
  unfold State.takePulse State.tblFull
  rw [hcfg, htbl]
  by_cases h : s.cfg.tblCap.toNat ≤ s.tbl.length
  · exact .inl ⟨h, by simp [h]⟩
  · exact .inr ⟨by omega, by simp [h]⟩

/-- The four edge operations of R62. -/
theorem State.extractorStep_cases (hi : Bool) (s : State) :
    (hi = true ∧ s.pulseOpen = false ∧ s.extractorStep hi = s.risingEdge) ∨
    (hi = true ∧ s.pulseOpen = true ∧ s.extractorStep hi = s) ∨
    (hi = false ∧ s.pulseOpen = true ∧ s.extractorStep hi = s.fallingEdge) ∨
    (hi = false ∧ s.pulseOpen = false ∧ s.extractorStep hi = s.quietCheck s.idx) := by
  unfold State.extractorStep
  cases hi <;> cases s.pulseOpen <;> simp

/-- The fields that no operation of the extractor writes. -/
structure State.SameOutside (s t : State) : Prop where
  cfg    : t.cfg = s.cfg
  input  : t.input = s.input
  result : t.result = s.result
  idx    : t.idx = s.idx
  halted : t.halted = s.halted
  badcmd : t.badcmd = s.badcmd
  protos : t.demods.length = s.demods.length

theorem State.SameOutside.trans {s t u : State} (h : State.SameOutside s t) (h' : State.SameOutside t u) :
    State.SameOutside s u :=
  ⟨h'.cfg.trans h.cfg, h'.input.trans h.input, h'.result.trans h.result, h'.idx.trans h.idx,
    h'.halted.trans h.halted, h'.badcmd.trans h.badcmd, h'.protos.trans h.protos⟩

theorem State.quietCheck_frame (n : Word) (s : State) : State.SameOutside s (s.quietCheck n) := by
  rcases s.quietCheck_cases n with ⟨-, -, e⟩ | ⟨-, e⟩ <;> rw [e] <;> constructor <;> simp

theorem State.closePulse_frame (s : State) : State.SameOutside s s.closePulse := by
  rcases s.closePulse_cases with ⟨-, e⟩ | ⟨-, e⟩ <;> rw [e] <;> constructor <;> simp

theorem State.closePulse_tbl (s : State) : s.closePulse.tbl = s.tbl := by
  rcases s.closePulse_cases with ⟨-, e⟩ | ⟨-, e⟩ <;> rw [e] <;> simp

theorem State.takePulse_frame (s : State) : State.SameOutside s s.takePulse := by
  refine s.closePulse_frame.trans ?_
  rcases s.takePulse_cases with ⟨-, e⟩ | ⟨-, e⟩ <;> rw [e] <;> constructor <;> simp

theorem State.fallingEdge_frame (s : State) : State.SameOutside s s.fallingEdge :=
  s.takePulse_frame.trans (s.takePulse.quietCheck_frame s.idx)

/-- What the edge operation of a `SAMPLE` leaves alone, whichever it is. -/
theorem State.extractorStep_frame (hi : Bool) (s : State) : State.SameOutside s (s.extractorStep hi) := by
  rcases s.extractorStep_cases hi with ⟨-, -, e⟩ | ⟨-, -, e⟩ | ⟨-, -, e⟩ | ⟨-, -, e⟩ <;> rw [e]
  · constructor <;> simp
  · constructor <;> rfl
  · exact s.fallingEdge_frame
  · exact s.quietCheck_frame s.idx

/-- A sample is its edge operation with `idx` advanced. -/
theorem State.takeSample_eq (data : Sample) (s : State) :
    s.takeSample data = { s.extractorStep (comparator s.cfg data) with idx := s.cfg.wrap (s.idx + 1) } := by
  simp only [State.takeSample, State.advance, (s.extractorStep_frame _).cfg, (s.extractorStep_frame _).idx]

/-! ## The step -/

/-- A command word is one of the eight commands (R61). -/
theorem decodeCmd_cases (w : CmdWord) :
    decodeCmd w = .idle ∨ decodeCmd w = .sample (cmdData w) ∨ decodeCmd w = .eos ∨ decodeCmd w = .stop ∨
    decodeCmd w = .rst ∨ decodeCmd w = .rsv5 ∨ decodeCmd w = .rsv6 ∨ decodeCmd w = .rsv7 := by
  unfold decodeCmd
  split <;> simp

/-- What one step can do: refuse an ill-formed configuration, reset, leave the state alone, take a sample, end
the stream, shut down, or set `badcmd`; in every case but the first the cycle is taken and the outputs of the
step before are gone. -/
theorem step_cases {s t : State} (h : step s = .next t) :
    s.cfg.admissible = true ∧ ∃ u, u = s.beginStep (nextCycle s.input).2 ∧
      (t = u.resetAll ∨ t = u ∨ (u.halted = false ∧ ∃ data, t = u.takeSample data) ∨
       (u.halted = false ∧ t = u.endStream) ∨ (u.halted = false ∧ t = u.shutDown) ∨
       t = u.raise .reservedCommand) := by
  unfold step at h
  split at h
  · next hadm =>
    refine ⟨hadm, _, rfl, ?_⟩
    generalize s.beginStep (nextCycle s.input).2 = u at h ⊢
    unfold runCycle at h
    split at h
    · exact .inl (by simpa using h.symm)
    · unfold Pins.instr at h
      rcases decodeCmd_cases (nextCycle s.input).1.word with e | e | e | e | e | e | e | e <;> rw [e] at h
      · exact .inr (.inl (by simpa [exec, execIdle] using h.symm))
      · cases hh : u.halted with
        | true => exact .inr (.inl (by simpa [exec, execSample, hh] using h.symm))
        | false =>
          exact .inr (.inr (.inl ⟨rfl, cmdData (nextCycle s.input).1.word,
            by simpa [exec, execSample, hh] using h.symm⟩))
      · cases hh : u.halted with
        | true => exact .inr (.inl (by simpa [exec, execEos, hh] using h.symm))
        | false => exact .inr (.inr (.inr (.inl ⟨rfl, by simpa [exec, execEos, hh] using h.symm⟩)))
      · cases hh : u.halted with
        | true => exact .inr (.inl (by simpa [exec, execStop, hh] using h.symm))
        | false => exact .inr (.inr (.inr (.inr (.inl ⟨rfl, by simpa [exec, execStop, hh] using h.symm⟩))))
      · exact .inl (by simpa [exec, execRst] using h.symm)
      · exact .inr (.inr (.inr (.inr (.inr (by simpa [exec, execRsv5] using h.symm)))))
      · exact .inr (.inr (.inr (.inr (.inr (by simpa [exec, execRsv6] using h.symm)))))
      · exact .inr (.inr (.inr (.inr (.inr (by simpa [exec, execRsv7] using h.symm)))))
  · cases h

end Sys2Proof.Machine
end

