-- ==== Sys2Proof/Laws/Demodulator.lean ====
section
/-! SUPPORT. One demodulator: where it stores, and that its operations keep its invariant. -/

namespace Sys2Proof.Machine

/-! ## Where it stores -/

/-- Putting back the demodulator that is there changes nothing. -/
theorem State.setDemod_self {s : State} {p} {d} (h : s.demods[p]? = some d) : s.setDemod p d = s := by
  unfold State.setDemod
  have : s.demods.set p d = s.demods := by
    apply List.ext_getElem?
    intro i
    rw [List.getElem?_set]
    split
    · subst_vars; split
      · exact h.symm
      · rw [List.getElem?_eq_none (by omega)]
    · rfl
  rw [this]

/-- A bit is stored at the cursor's byte; every other byte reads as before. -/
theorem Demod.addBit_read {c : Config} {d : Demod} {b} (hwf : d.bb.wf = true) {a} (ha : a ≠ bbAddr c d.row d.col) :
    (d.addBit c b).bb.read a = d.bb.read a := by
  rcases Demod.addBit_cases c d b with ⟨-, e⟩ | ⟨-, -, e⟩ <;> rw [e]
  · rfl
  · cases b
    · rfl
    · simp [Demod.storeBit, Demod.orBit, Memory.read_write hwf, ha]
theorem Demod.addBit_wf {c : Config} {d : Demod} {b} (hwf : d.bb.wf = true)  : (d.addBit c b).bb.wf = true := by
  rcases Demod.addBit_cases c d b with ⟨-, e⟩ | ⟨-, -, e⟩ <;> rw [e]
  · exact hwf
  · cases b
    · exact hwf
    · simp [Demod.storeBit, Demod.orBit, Memory.wf_write hwf]
theorem Demod.pwmD_read {c : Config} {d : Demod} {lim r} (hwf : d.bb.wf = true) {a} (ha : a ≠ bbAddr c d.row d.col) :
    (d.pwmD c lim r).bb.read a = d.bb.read a := by
  rcases Demod.pwmD_cases c lim r d with e | ⟨b, e⟩ <;> rw [e]
  exact Demod.addBit_read hwf ha
theorem Demod.manchEdge_read {c : Config} {d : Demod} {lim x b} (hwf : d.bb.wf = true) {a}
    (ha : a ≠ bbAddr c d.row d.col) :
    (d.manchEdge c lim x b).bb.read a = d.bb.read a := by
  rcases Demod.manchEdge_cases c lim x b d with e | e <;> rw [e]
  exact Demod.addBit_read hwf ha
theorem Demod.manchEdge_wf {c : Config} {d : Demod} {lim x b} (hwf : d.bb.wf = true) :
    (d.manchEdge c lim x b).bb.wf = true := by
  rcases Demod.manchEdge_cases c lim x b d with e | e <;> rw [e]
  · exact hwf
  exact Demod.addBit_wf hwf

/-! ## The invariant -/

/-- An empty demodulator meets the invariant. -/
theorem Demod.Empty.inv {c : Config} {d : Demod} (h : Demod.Empty c d) : Demod.Inv c d := by
  have hz : ∀ r, d.rowBitsAt r = 0 := by
    intro r
    simp only [Demod.rowBitsAt, h.rowBits, List.getD_eq_getElem?_getD, List.getElem?_replicate]
    split <;> rfl
  constructor
  · rw [h.bb]; rfl
  · rw [h.bb]; simp
  · rw [h.rowBits]; simp
  · rw [h.row]; omega
  · rw [h.col]; omega
  · intro _; exact h.bitpos
  · intro _; exact ⟨h.col, h.bitpos⟩
  · intro r; rw [hz]; omega
  · intro r _; exact hz r
  · intro _; rw [hz, h.col, h.bitpos]; rfl
  · intro r k _ _ _; simp [Demod.bit, Demod.byte, h.bb]

theorem Demod.clear_empty (c : Config) (d : Demod) : Demod.Empty c (d.clear c) :=
  ⟨rfl, rfl, rfl, rfl, rfl, rfl, rfl⟩

theorem Demod.reset_empty (c : Config) : Demod.Empty c (Demod.reset c.bbRows) :=
  ⟨rfl, rfl, rfl, rfl, rfl, rfl, rfl⟩

theorem Demod.Inv.manchester {c : Config} {d : Demod} (h : Demod.Inv c d) (v : Bool) (l : Word) :
    Demod.Inv c { d with mValid := v, mLast := l } :=
  ⟨h.wf, h.inside, h.rows, h.rowLe, h.colLe, h.colEnd, h.rowEnd, h.bitsLe, h.bitsBelow, h.bitsAt, h.zeroBeyond⟩

theorem Demod.Inv.truncate {c : Config} {d : Demod} (h : Demod.Inv c d) : Demod.Inv c d.truncate :=
  ⟨h.wf, h.inside, h.rows, h.rowLe, h.colLe, h.colEnd, h.rowEnd, h.bitsLe, h.bitsBelow, h.bitsAt, h.zeroBeyond⟩

theorem Demod.Inv.nextRow {c : Config} {d : Demod} (h : Demod.Inv c d) : Demod.Inv c (d.nextRow c) := by
  refine ⟨h.wf, h.inside, h.rows, ?_, Nat.zero_le _, fun _ => rfl, fun _ => ⟨rfl, rfl⟩, h.bitsLe, ?_, ?_, h.zeroBeyond⟩
  · have := h.rowLe
    simp only [Demod.nextRow]
    split <;> omega
  · intro r hr
    apply h.bitsBelow r
    simp only [Demod.nextRow] at hr
    split at hr <;> omega
  · intro hr
    have hlt : d.row < (d.nextRow c).row := by
      simp only [Demod.nextRow] at hr ⊢
      split <;> simp_all
    exact h.bitsBelow _ hlt

/-- Two bytes inside the rows have different addresses. -/
theorem bbAddr_inj {c : Config} {r r' col col' : Nat} (h : col < c.bbCols) (h' : col' < c.bbCols)
    (he : bbAddr c r col = bbAddr c r' col') : r = r' ∧ col = col' := by
  simp only [bbAddr] at he
  have hpos : 0 < c.bbCols := by omega
  have h1 : (r * c.bbCols + col) / c.bbCols = r := by
    rw [Nat.mul_comm, Nat.mul_add_div hpos, Nat.div_eq_of_lt h]; omega
  have h2 : (r' * c.bbCols + col') / c.bbCols = r' := by
    rw [Nat.mul_comm, Nat.mul_add_div hpos, Nat.div_eq_of_lt h']; omega
  have : r = r' := by rw [← h1, ← h2, he]
  subst this
  exact ⟨rfl, by omega⟩

theorem bbAddr_lt {c : Config} {r col : Nat} (h : r < c.bbRows) (h' : col < c.bbCols) :
    bbAddr c r col < c.bbRows * c.bbCols := by
  simp only [bbAddr]
  calc r * c.bbCols + col < r * c.bbCols + c.bbCols := by omega
    _ = (r + 1) * c.bbCols := by ring
    _ ≤ c.bbRows * c.bbCols := Nat.mul_le_mul_right _ h

theorem storeBit_rowBitsAt {c : Config} {d : Demod} {b : Bool} (hr : d.row < d.rowBits.length) (r : Nat) :
    (d.storeBit c b).rowBitsAt r = if r = d.row then d.rowBitsAt r + 1 else d.rowBitsAt r := by
  simp only [Demod.rowBitsAt, Demod.storeBit, List.getD_eq_getElem?_getD, List.getElem?_modify]
  by_cases h : r = d.row
  · subst h
    simp [List.getElem?_eq_getElem hr]
  · simp [h, Ne.symm h]

theorem Demod.Inv.storeBit {c : Config} {d : Demod} (h : Demod.Inv c d) (b : Bool) (hr : d.row < c.bbRows) (hc : d.col < c.bbCols) :
    Demod.Inv c (d.storeBit c b) := by
  have hrb := storeBit_rowBitsAt (c := c) (d := d) (b := b) (by rw [h.rows]; exact hr)
  have hat := h.bitsAt hr
  have hbp := d.bitpos.isLt
  have hb0 : d.bitpos = 0 ↔ d.bitpos.val = 0 := ⟨fun h => by rw [h]; rfl, fun h => Fin.ext h⟩
  refine ⟨?_, ?_, ?_, h.rowLe, ?_, ?_, ?_, ?_, ?_, ?_, ?_⟩
  · cases b
    · exact h.wf
    · exact Memory.wf_write h.wf _ _
  · intro cell hm
    cases b
    · exact h.inside cell hm
    · rcases Memory.mem_write hm with e | hm
      · rw [e]; exact bbAddr_lt hr hc
      · exact h.inside cell hm
  · simp [Demod.storeBit, h.rows]
  · simp only [Demod.storeBit]; split <;> omega
  · simp only [Demod.storeBit]
    intro he
    split at he
    · next h0 => simp [nextBitpos, h0]
    · omega
  · intro he
    have : d.row = c.bbRows := he
    omega
  · intro r
    rw [hrb]
    have := h.bitsLe r
    split
    · subst_vars; omega
    · omega
  · intro r hlt
    have hlt : d.row < r := hlt
    rw [hrb, if_neg (by omega)]
    exact h.bitsBelow r hlt
  · intro _
    have : (d.storeBit c b).row = d.row := rfl
    rw [this, hrb, if_pos rfl, hat]
    simp only [Demod.storeBit, nextBitpos]
    by_cases h0 : d.bitpos = 0
    · simp [h0]; omega
    · have := mt hb0.mpr h0
      simp [h0]; omega
  · intro r k hr' hk hle
    rw [hrb] at hle
    have hkc : k / 8 < c.bbCols := by omega
    have hold : d.bit c r k = false := h.zeroBeyond r k hr' hk (by split at hle <;> omega)
    cases b with
    | false => exact hold
    | true =>
      simp only [Demod.bit, Demod.byte, Demod.storeBit, Demod.orBit, if_true, Memory.read_write h.wf] at hold ⊢
      split
      · next he =>
        obtain ⟨rfl, hcol⟩ := bbAddr_inj hkc hc he
        rw [if_pos rfl] at hle
        rw [← hcol]
        simp only [BitVec.getLsbD_or, hold, Bool.false_or]
        have : 7 - k % 8 < d.bitpos.val := by omega
        simp [this]
      · exact hold

theorem Demod.Inv.addBit {c : Config} {d : Demod} (h : Demod.Inv c d) (b : Bool) : Demod.Inv c (d.addBit c b) := by
  rcases Demod.addBit_cases c d b with ⟨-, e⟩ | ⟨h1, h2, e⟩ <;> rw [e]
  · exact h.truncate
  · exact h.storeBit b h1 h2

/-- A whole `DEMOD` keeps the invariant. -/
theorem Demod.Inv.demodulate {c : Config} {d : Demod} (h : Demod.Inv c d) (desc : Desc) (r : PulseRecord) :
    Demod.Inv c (d.demodulate c desc r) :=
  Demod.demodulate_keeps (Demod.Inv c) (fun _ b h => h.addBit b) (fun _ h => h.nextRow) (fun _ v l h => h.manchester v l) desc r d h

end Sys2Proof.Machine
end

