-- ==== Sys2Proof/Laws/Encoding.lean ====
section
/-! SUPPORT. Taking the fields of an encoded word apart again. -/

namespace Sys2Proof

/-- The low part of a concatenation. -/
theorem extract_append_low {m n : Nat} (x : BitVec m) (y : BitVec n) : (x ++ y).extractLsb' 0 n = y := by
  ext i hi
  simp [BitVec.getLsbD_append, hi]

/-- The high part of a concatenation. -/
theorem extract_append_high {m n : Nat} (x : BitVec m) (y : BitVec n) : (x ++ y).extractLsb' n m = x := by
  ext i hi
  simp [BitVec.getLsbD_append, BitVec.getLsbD_eq_getElem hi]

/-- A field of the high part of a concatenation. -/
theorem extract_append_of_le {a b k l : Nat} (x : BitVec a) (y : BitVec b) (h : b ≤ k) :
    (x ++ y).extractLsb' k l = x.extractLsb' (k - b) l := by
  ext i hi
  simp [BitVec.getLsbD_append]
  split
  · omega
  · congr 1; omega

/-- A field of the low part of a concatenation. -/
theorem extract_append_of_add_le {a b k l : Nat} (x : BitVec a) (y : BitVec b) (h : k + l ≤ b) :
    (x ++ y).extractLsb' k l = y.extractLsb' k l := by
  ext i hi
  simp [BitVec.getLsbD_append]
  intro; omega

theorem extract_all {n : Nat} (w : BitVec n) : w.extractLsb' 0 n = w := by ext i; simp

@[simp] theorem cmdOp_cmdWord (op : BitVec 3) (data : Sample) : cmdOp (cmdWord op data) = op :=
  extract_append_high op data

@[simp] theorem cmdData_cmdWord (op : BitVec 3) (data : Sample) : cmdData (cmdWord op data) = data :=
  extract_append_low op data

/-- A command word's meaning encodes to a command word with the same operation code. -/
theorem encode_decodeCmd (w : CmdWord) :
    ∃ w', encode (decodeCmd w) = some (.cmd w') ∧ cmdOp w' = cmdOp w := by
  have hlt : (cmdOp w).toNat < 8 := (cmdOp w).isLt
  unfold decodeCmd
  interval_cases h : (cmdOp w).toNat <;>
    exact ⟨_, rfl, (cmdOp_cmdWord _ _).trans (BitVec.eq_of_toNat_eq h.symm)⟩

end Sys2Proof
end

