-- ==== Sys2Proof/Laws/PerInstr.lean ====
section
/-! SUPPORT. One family of statements, one lemma per constructor of Instr. -/

namespace Sys2Proof.Laws.CmdCode

/-- Every command word that means `i` has the operation code of `i`'s canonical word (R61, R73 (b)); an
operation of another format is no command word's meaning. -/
def Statement (i : Instr) : Prop :=
  ∀ w : CmdWord, decodeCmd w = i → ∃ w', encode i = some (.cmd w') ∧ cmdOp w' = cmdOp w

theorem of_decodeCmd (i : Instr) : Statement i := fun w h => h ▸ encode_decodeCmd w

theorem idle : Statement .idle := of_decodeCmd _
theorem sample (data : Sample) : Statement (.sample data) := of_decodeCmd _
theorem eos : Statement .eos := of_decodeCmd _
theorem stop : Statement .stop := of_decodeCmd _
theorem rst : Statement .rst := of_decodeCmd _
theorem rsv5 : Statement .rsv5 := of_decodeCmd _
theorem rsv6 : Statement .rsv6 := of_decodeCmd _
theorem rsv7 : Statement .rsv7 := of_decodeCmd _
theorem rise : Statement .rise := of_decodeCmd _
theorem hold : Statement .hold := of_decodeCmd _
theorem fall : Statement .fall := of_decodeCmd _
theorem low : Statement .low := of_decodeCmd _
theorem pwmD (v : VSel) (lim : Limits) (p : Nat) (r : PulseRecord) : Statement (.pwmD v lim p r) := of_decodeCmd _
theorem pwmP (v : VSel) (lim : Limits) (p : Nat) (r : PulseRecord) : Statement (.pwmP v lim p r) := of_decodeCmd _
theorem manch (v : VSel) (lim : Limits) (p : Nat) (r : PulseRecord) : Statement (.manch v lim p r) := of_decodeCmd _
theorem vNone (m : Modulation) (lim : Limits) (p : Nat) : Statement (.vNone m lim p) := of_decodeCmd _
theorem vRed (m : Modulation) (lim : Limits) (p : Nat) : Statement (.vRed m lim p) := of_decodeCmd _
theorem vXor8 (m : Modulation) (lim : Limits) (p : Nat) : Statement (.vXor8 m lim p) := of_decodeCmd _
theorem vNibsum (m : Modulation) (lim : Limits) (p : Nat) : Statement (.vNibsum m lim p) := of_decodeCmd _
theorem rdbits (width : BitVec 5) (off : BitVec 16) (buf : List Byte) : Statement (.rdbits width off buf) := of_decodeCmd _
theorem sigOpen (r : PulseRecord) : Statement (.sigOpen r) := of_decodeCmd _
theorem tblAppend (r : PulseRecord) : Statement (.tblAppend r) := of_decodeCmd _
theorem tblAbort (n : Word) : Statement (.tblAbort n) := of_decodeCmd _
theorem sigClose (closeIdx : Word) : Statement (.sigClose closeIdx) := of_decodeCmd _
theorem demod (p : Nat) (r : PulseRecord) : Statement (.demod p r) := of_decodeCmd _
theorem rowAdv (p : Nat) (r : PulseRecord) : Statement (.rowAdv p r) := of_decodeCmd _
theorem addBit (p : Nat) (b : Bool) : Statement (.addBit p b) := of_decodeCmd _
theorem nextRow (p : Nat) : Statement (.nextRow p) := of_decodeCmd _
theorem bbDone (p : Nat) : Statement (.bbDone p) := of_decodeCmd _
theorem bbClear (p : Nat) : Statement (.bbClear p) := of_decodeCmd _
theorem sext (n : Nat) (v : BitVec 16) : Statement (.sext n v) := of_decodeCmd _
theorem nib (buf : List Byte) (j : Nat) : Statement (.nib buf j) := of_decodeCmd _
theorem rowVote (p : Nat) : Statement (.rowVote p) := of_decodeCmd _

end Sys2Proof.Laws.CmdCode
end

