-- ==== Sys2Proof/Laws/Reader.lean ====
section
/-! SUPPORT. The reader as a function of the stream's bits: what a read returns, and what a write leaves. -/

namespace Sys2Proof.Machine

theorem readLoop_lt (buf : List Byte) (w off : Nat) : readLoop buf w off < 2 ^ w := by
  induction w generalizing off with
  | zero => simp [readLoop]
  | succ w ih =>
    have h1 := ih (off + 1)
    have h2 : (streamBit buf off).toNat ≤ 1 := Bool.toNat_le _
    simp only [readLoop, pow_succ]
    omega

/-- Result bit `i` is stream bit `off + i` (R90). -/
theorem readLoop_testBit (buf : List Byte) (w off i : Nat) :
    (readLoop buf w off).testBit i = (decide (i < w) && streamBit buf (off + i)) := by
  induction w generalizing off i with
  | zero => simp [readLoop]
  | succ w ih =>
    simp only [readLoop]
    cases i with
    | zero =>
      simp only [Nat.testBit_zero, Nat.add_mul_mod_self_left]
      cases streamBit buf off <;> simp
    | succ i =>
      have : ((streamBit buf off).toNat + 2 * readLoop buf w (off + 1)).testBit (i + 1) = (readLoop buf w (off + 1)).testBit i := by
        rw [Nat.testBit_succ]
        congr 1
        have := Bool.toNat_le (streamBit buf off)
        omega
      rw [this, ih, show off + 1 + i = off + (i + 1) by omega]
      simp

/-! ## The three answers -/

theorem readBits_width {buf : List Byte} {w off : Nat} (hw : 16 < w) :
    readBits buf w off = { err := .width, value := 0 } := by simp [readBits, hw]

theorem readBits_bounds {buf : List Byte} {w off : Nat} (hw : w ≤ 16) (h : 8 * buf.length < off + w) :
    readBits buf w off = { err := .bounds, value := 0 } := by
  simp [readBits, Nat.not_lt.mpr hw, h]

theorem readBits_inside {buf : List Byte} {w off : Nat} (hw : w ≤ 16) (h : off + w ≤ 8 * buf.length) :
    readBits buf w off = { err := .none, value := BitVec.ofNat 16 (readLoop buf w off) } := by
  simp [readBits, Nat.not_lt.mpr hw, Nat.not_lt.mpr h]

theorem readBits_getLsbD {buf : List Byte} {w off : Nat} (hw : w ≤ 16) (h : off + w ≤ 8 * buf.length) (i : Nat) :
    (readBits buf w off).value.getLsbD i = (decide (i < w) && streamBit buf (off + i)) := by
  rw [readBits_inside hw h]
  simp only [BitVec.getLsbD_ofNat, readLoop_testBit]
  by_cases h1 : i < w
  · simp [h1]; intro; omega
  · simp [h1]

theorem readBits_toNat {buf : List Byte} {w off : Nat} (hw : w ≤ 16) (h : off + w ≤ 8 * buf.length) :
    (readBits buf w off).value.toNat = readLoop buf w off := by
  rw [readBits_inside hw h]
  have := readLoop_lt buf w off
  have : 2 ^ w ≤ 2 ^ 16 := Nat.pow_le_pow_right (by omega) hw
  simp only [BitVec.toNat_ofNat]
  exact Nat.mod_eq_of_lt (by omega)

/-! ## Writing -/

@[simp] theorem setStreamBit_length (buf : List Byte) (k : Nat) (b : Bool) :
    (setStreamBit buf k b).length = buf.length := by simp [setStreamBit]

theorem streamBit_setStreamBit {buf : List Byte} {k : Nat} (hk : k < 8 * buf.length) (b : Bool) (j : Nat) :
    streamBit (setStreamBit buf k b) j = if j = k then b else streamBit buf j := by
  have hlt : k / 8 < buf.length := by omega
  simp only [streamBit, setStreamBit, List.getD_eq_getElem?_getD, List.getElem?_modify]
  by_cases hq : k / 8 = j / 8
  · have hlt' : j / 8 < buf.length := by omega
    rw [List.getElem?_eq_getElem hlt']
    simp only [hq, if_true, Option.map_some, Option.getD_some]
    generalize buf[j / 8] = x
    have h1 : j % 8 < 8 := by omega
    have h2 : k % 8 < 8 := by omega
    have hjk : j = k ↔ j % 8 = k % 8 := by omega
    simp only [hjk]
    generalize j % 8 = m at h1
    generalize k % 8 = n at h2
    interval_cases m <;> interval_cases n <;> cases b <;> simp
  · have : ¬ j = k := fun h => hq (by rw [h])
    simp [hq, this]

theorem writeBits_length (buf : List Byte) (w off val : Nat) : (writeBits buf w off val).length = buf.length := by
  induction w generalizing buf off val with
  | zero => rfl
  | succ w ih => simp [writeBits, ih]

/-- A write is seen in its own field and nowhere else. -/
theorem streamBit_writeBits {buf : List Byte} {w off : Nat} (h : off + w ≤ 8 * buf.length) (val j : Nat) :
    streamBit (writeBits buf w off val) j =
      if off ≤ j ∧ j < off + w then val.testBit (j - off) else streamBit buf j := by
  induction w generalizing buf off val with
  | zero =>
    have : ¬ (off ≤ j ∧ j < off + 0) := by omega
    simp [writeBits]
  | succ w ih =>
    rw [writeBits, ih (by rw [setStreamBit_length]; omega), streamBit_setStreamBit (by omega)]
    by_cases h1 : off + 1 ≤ j ∧ j < off + 1 + w
    · have h2 : off ≤ j ∧ j < off + (w + 1) := by omega
      rw [if_pos h1, if_pos h2, show j - off = (j - (off + 1)) + 1 by omega, Nat.testBit_succ]
    · rw [if_neg h1]
      by_cases h3 : j = off
      · subst h3; simp
      · rw [if_neg h3, if_neg (by omega)]

/-- A byte sequence is its stream of bits. -/
theorem ext_streamBit {x y : List Byte} (hl : x.length = y.length) (h : ∀ k, streamBit x k = streamBit y k) :
    x = y := by
  apply List.ext_getElem hl
  intro i h1 h2
  apply BitVec.eq_of_getLsbD_eq
  intro j hj
  have := h (8 * i + (7 - j))
  simp only [streamBit, show (8 * i + (7 - j)) / 8 = i by omega, show 7 - (8 * i + (7 - j)) % 8 = j by omega,
    List.getD_eq_getElem?_getD, List.getElem?_eq_getElem h1, List.getElem?_eq_getElem h2] at this
  exact this

end Sys2Proof.Machine
end

