-- ==== Sys2Proof/Laws/Verifiers.lean ====
section
/-! SUPPORT. The checks of the verifiers, one at a time: a field inside the buffer, a framed item, a run of
framed items, the pairs of the row vote. -/

namespace Sys2Proof.Machine

/-- A verifier operation appends its verdict, if it gives one, and nothing else. -/
theorem exec_verifier {s : State} {p : Nat} {v : VSel} {d : Demod} (hp : p < s.cfg.nProto) (hd : s.demods[p]? = some d) :
    (s.withProto p fun _ d => Host.Outcome.next (s.emitAll (verdictEvents s.cfg p v d))) =
      .next { s with events := s.events ++ verdictEvents s.cfg p v d } := by
  rw [State.withProto_eq (List.getElem?_eq_getElem hp) hd]; rfl

@[simp] theorem Check.ok_bind {α β} (x : α) (f : α → Check β) : ((Except.ok x : Check α) >>= f) = f x := rfl
@[simp] theorem Check.error_bind {α β} (e : Reason × Nat) (f : α → Check β) :
    ((Except.error e : Check α) >>= f) = .error e := rfl
@[simp] theorem require_true (c : Reason) (i : Nat) : require true c i = .ok () := rfl
@[simp] theorem require_false (c : Reason) (i : Nat) : require false c i = .error (c, i) := rfl
@[simp] theorem Check.judge_ok (x : Payload) : Check.judge (.ok x) = .accept x := rfl
@[simp] theorem Check.judge_error (c : Reason) (i : Nat) : Check.judge (.error (c, i)) = .reject c i := rfl

/-! ## The pairs of the row vote -/

/-- The pairs are those of a lower and a higher position. -/
theorem rowPairs_mem {l : List Nat} {x : Nat × Nat} :
    x ∈ rowPairs l ↔ ∃ i j : Nat, i < j ∧ l[i]? = some x.1 ∧ l[j]? = some x.2 := by
  induction l with
  | nil => simp [rowPairs]
  | cons a l ih =>
    simp only [rowPairs, List.mem_append, List.mem_map, ih]
    constructor
    · rintro (⟨b, hb, rfl⟩ | ⟨i, j, hij, h1, h2⟩)
      · obtain ⟨j, hj⟩ := List.mem_iff_getElem?.mp hb
        exact ⟨0, j + 1, by omega, rfl, by simpa using hj⟩
      · exact ⟨i + 1, j + 1, by omega, by simpa using h1, by simpa using h2⟩
    · rintro ⟨i, j, hij, h1, h2⟩
      obtain ⟨j, rfl⟩ : ∃ k, j = k + 1 := ⟨j - 1, by omega⟩
      simp only [List.getElem?_cons_succ] at h2
      cases i with
      | zero =>
        left; simp at h1
        exact ⟨x.2, List.mem_iff_getElem?.mpr ⟨j, h2⟩, by rw [h1]⟩
      | succ i =>
        right; exact ⟨i, j, by omega, by simpa using h1, h2⟩

/-- The first pair, in the pair order, that meets a condition. -/
theorem find_rowPairs {l : List Nat} {P : Nat × Nat → Bool} {x : Nat × Nat} (h : (rowPairs l).find? P = some x) :
    ∃ i j : Nat, i < j ∧ l[i]? = some x.1 ∧ l[j]? = some x.2 ∧ P x = true ∧
      ∀ (i' j' a b : Nat), i' < j' → (i' < i ∨ (i' = i ∧ j' < j)) → l[i']? = some a → l[j']? = some b → P (a, b) = false := by
  induction l with
  | nil => simp [rowPairs] at h
  | cons a l ih =>
    simp only [rowPairs, List.find?_append] at h
    cases h1 : (l.map (fun b => (a, b))).find? P with
    | some y =>
      rw [h1] at h
      simp at h
      subst h
      rw [List.find?_map] at h1
      simp only [Option.map_eq_some_iff] at h1
      obtain ⟨b, hb, rfl⟩ := h1
      rw [List.find?_eq_some_iff_getElem] at hb
      obtain ⟨hP, j, hj, rfl, hall⟩ := hb
      refine ⟨0, j + 1, by omega, rfl, by simp [hj], hP, ?_⟩
      intro i' j' a' b' hij' hlt ha hb
      obtain rfl : i' = 0 := by omega
      obtain ⟨k, rfl⟩ : ∃ k, j' = k + 1 := ⟨j' - 1, by omega⟩
      simp only [List.getElem?_cons_succ] at hb
      simp at ha
      subst ha
      have hk : k < j := by omega
      have := hall k hk
      rw [List.getElem?_eq_getElem (by omega)] at hb
      cases hb
      simpa using this
    | none =>
      rw [h1] at h
      simp only [Option.none_or] at h
      obtain ⟨i, j, hij, hi, hj, hP, hall⟩ := ih h
      refine ⟨i + 1, j + 1, by omega, by simpa using hi, by simpa using hj, hP, ?_⟩
      intro i' j' a' b' hij' hlt ha hb
      obtain ⟨k, rfl⟩ : ∃ k, j' = k + 1 := ⟨j' - 1, by omega⟩
      simp only [List.getElem?_cons_succ] at hb
      cases i' with
      | zero =>
        simp at ha; subst ha
        rw [List.find?_eq_none] at h1
        have := h1 (a, b') (List.mem_map.mpr ⟨b', List.mem_iff_getElem?.mpr ⟨k, hb⟩, rfl⟩)
        simpa using this
      | succ i' => exact hall i' k a' b' (by omega) (by omega) (by simpa using ha) hb

/-- A column without a byte is one in which no pair agrees. -/
theorem voteByte_none {c : Config} {d : Demod} {vs : List Nat} {col : Nat} :
    voteByte c d vs col = none ↔ ∀ (i j a b : Nat), i < j → vs[i]? = some a → vs[j]? = some b → d.byte c a col ≠ d.byte c b col := by
  simp only [voteByte, Option.map_eq_none_iff, List.find?_eq_none, rowPairs_mem]
  constructor
  · intro h i j a b hij ha hb
    have := h (a, b) ⟨i, j, hij, ha, hb⟩
    simpa using this
  · rintro h ⟨a, b⟩ ⟨i, j, hij, ha, hb⟩
    simpa using h i j a b hij ha hb

theorem mapM_option_some {α β} {f : α → Option β} {l : List α} {r : List β} (h : l.mapM f = some r) :
    r.length = l.length ∧ ∀ (i : Nat) (x : α), l[i]? = some x → ∃ y, f x = some y ∧ r[i]? = some y := by
  induction l generalizing r with
  | nil => simp at h; subst h; simp
  | cons a l ih =>
    rw [List.mapM_cons] at h
    cases hf : f a with
    | none => simp [hf] at h
    | some y =>
      cases hl : l.mapM f with
      | none => simp [hf, hl] at h
      | some r' =>
        simp [hf, hl] at h
        subst h
        obtain ⟨h1, h2⟩ := ih hl
        refine ⟨by simp [h1], ?_⟩
        intro i x hx
        cases i with
        | zero => simp at hx; subst hx; exact ⟨y, hf, rfl⟩
        | succ i => exact h2 i x (by simpa using hx)

theorem mapM_option_none {α β} {f : α → Option β} {l : List α} : l.mapM f = none ↔ ∃ x ∈ l, f x = none := by
  induction l with
  | nil => simp
  | cons a l ih =>
    rw [List.mapM_cons]
    cases hf : f a with
    | none => simp [hf]
    | some y =>
      cases hl : l.mapM f with
      | none => simp [hf, ← ih, hl]
      | some r' =>
        have : ¬ ∃ x ∈ l, f x = none := by rw [← ih, hl]; simp
        simp [hf]
        simpa using this

/-! ## The row vote -/

/-- The checks of the row vote in their order. -/
theorem vote_cases {c : Config} {d : Demod} :
   (((d.avail c).take c.majRows).length < 2 → checkVote c d = .error (.noRows, 0)) ∧
   (2 ≤ ((d.avail c).take c.majRows).length → c.bbCols < voteCols c → checkVote c d = .error (.bounds, 0)) ∧
   (2 ≤ ((d.avail c).take c.majRows).length → voteCols c ≤ c.bbCols → checkVote c d = match (List.range (voteCols c)).mapM (voteByte c d ((d.avail c).take c.majRows)) with
  | some comb => .ok comb
  | none => .error (.rowMismatch, 0)) := by
  refine ⟨?_, ?_, ?_⟩
  · intro h
    have : ¬ (2 ≤ ((d.avail c).take c.majRows).length) := by omega
    simp only [checkVote, this, decide_false, require_false, Check.error_bind]
  · intro h h2
    have : ¬ (voteCols c ≤ c.bbCols) := by omega
    simp only [checkVote, h, this, decide_true, require_true, Check.ok_bind, decide_false, require_false, Check.error_bind]
  · intro h h2
    simp only [checkVote, h, h2, decide_true, require_true, Check.ok_bind] <;> rfl

/-- `ROW_VOTE` answers, and changes nothing else. -/
theorem exec_vote {s : State} {p : Nat} {d : Demod} (hp : p < s.cfg.nProto) (hd : s.demods[p]? = some d) :
    exec (.rowVote p) s = .next { s with result := some (voteAnswer s.cfg d) } := by
  simp only [exec, execRowVote]; rw [State.withProto_eq (List.getElem?_eq_getElem hp) hd]; rfl

/-- The combined buffer has one byte per column of the message. -/
theorem vote_length {c : Config} {d : Demod} {comb} (h : checkVote c d = .ok comb) : comb.length = voteCols c := by
  obtain ⟨c1, c2, c3⟩ := vote_cases (c := c) (d := d)
  by_cases h1 : ((d.avail c).take c.majRows).length < 2
  · rw [c1 h1] at h; cases h
  by_cases h2 : c.bbCols < voteCols c
  · rw [c2 (by omega) h2] at h; cases h
  rw [c3 (by omega) (by omega)] at h
  split at h
  · next hm => cases h; simpa using (mapM_option_some hm).1
  · cases h

/-- The rejects of the row vote carry no number. -/
theorem vote_error {c : Config} {d : Demod} {e} (h : checkVote c d = .error e) : e.2 = 0 := by
  obtain ⟨c1, c2, c3⟩ := vote_cases (c := c) (d := d)
  by_cases h1 : ((d.avail c).take c.majRows).length < 2
  · rw [c1 h1] at h; cases h; rfl
  by_cases h2 : c.bbCols < voteCols c
  · rw [c2 (by omega) h2] at h; cases h; rfl
  rw [c3 (by omega) (by omega)] at h
  split at h
  · cases h
  · cases h; rfl

/-! ## Framed items -/

theorem readField_inside {buf : List Byte} {w off : Nat} (hw : w ≤ 16) (h : off + w ≤ 8 * buf.length) :
    readField buf w off = .ok (readBits buf w off).value := by
  have : (readBits buf w off).err = .none := by rw [readBits_inside hw h]
  simp only [readField, this]

theorem readBits_one {buf : List Byte} {off : Nat} (h : off + 1 ≤ 8 * buf.length) :
    ((readBits buf 1 off).value != 0) = streamBit buf off := by
  rw [readBits_inside (by omega) h]
  simp only [readLoop]
  cases streamBit buf off <;> decide

/-- A framed item inside the buffer. -/
theorem readItem_inside {buf : List Byte} {w i bit : Nat} (hw : w ≤ 16) (h : bit + w + 1 ≤ 8 * buf.length) :
    readItem buf w i bit =
      if streamBit buf (bit + w) then .ok (readBits buf w bit).value else .error (.framingStop, i) := by
  rw [readItem, readField_inside hw (by omega), readField_inside (by omega) (by omega)]
  simp only [Check.ok_bind, readBits_one h]
  cases streamBit buf (bit + w) <;> rfl

/-- A run of items with all its stop bits. -/
theorem readItems_ok {buf : List Byte} {w : Nat} (hw : w ≤ 16) (count i bit : Nat)
    (h : bit + (w + 1) * count ≤ 8 * buf.length)
    (hs : ∀ k, k < count → streamBit buf (bit + (w + 1) * k + w) = true) :
    readItems buf w count i bit = .ok ((List.range count).map fun k => (readBits buf w (bit + (w + 1) * k)).value) := by
  induction count generalizing i bit with
  | zero => rfl
  | succ n ih =>
    rw [Nat.mul_succ] at h
    have h0 := hs 0 (by omega)
    simp only [Nat.mul_zero, Nat.add_zero] at h0
    rw [readItems, readItem_inside hw (by omega), if_pos h0, Check.ok_bind, ih (i+1) (bit + w + 1) (by omega)
      (fun k hk => by have := hs (k+1) (by omega); rw [Nat.mul_succ] at this; rw [← this]; congr 1; omega), Check.ok_bind]
    rw [List.range_succ_eq_map]
    simp only [List.map_cons, List.map_map, Nat.mul_zero, Nat.add_zero]
    congr 2
    apply List.map_congr_left
    intro k _
    simp only [Function.comp, Nat.mul_succ]
    congr 2; omega

/-- A run of items up to the first missing stop bit. -/
theorem readItems_error {buf : List Byte} {w : Nat} (hw : w ≤ 16) (count i bit k : Nat)
    (h : bit + (w + 1) * count ≤ 8 * buf.length) (hk : k < count)
    (hbad : streamBit buf (bit + (w + 1) * k + w) = false)
    (hs : ∀ j, j < k → streamBit buf (bit + (w + 1) * j + w) = true) :
    readItems buf w count i bit = .error (.framingStop, i + k) := by
  induction count generalizing i bit k with
  | zero => omega
  | succ n ih =>
    rw [Nat.mul_succ] at h
    cases k with
    | zero =>
      simp only [Nat.mul_zero, Nat.add_zero] at hbad
      rw [readItems, readItem_inside hw (by omega), hbad]; rfl
    | succ k =>
      have h0 := hs 0 (by omega)
      simp only [Nat.mul_zero, Nat.add_zero] at h0
      rw [readItems, readItem_inside hw (by omega), if_pos h0, Check.ok_bind, ih (i+1) (bit + w + 1) k (by omega) (by omega)
        (by rw [← hbad, Nat.mul_succ]; congr 1; omega)
        (fun j hj => by have := hs (j+1) (by omega); rw [Nat.mul_succ] at this; rw [← this]; congr 1; omega), Check.error_bind]
      congr 2; omega

theorem xorAll_eq (vs : List (BitVec 16)) : xorAll vs = (vs.map (·.setWidth 8)).foldl (· ^^^ ·) 0 := by
  simp [xorAll, List.foldl_map]

/-! ## No available row -/

/-- A buffer with no bit has no available row. -/
theorem Demod.avail_empty {c : Config} {d : Demod} (h : ∀ r, r < c.bbRows → d.rowBitsAt r = 0) : d.avail c = [] := by
  simp only [Demod.avail, List.filter_eq_nil_iff, List.mem_range, decide_eq_true_eq]
  intro r hr
  rw [h r hr]
  exact Nat.lt_irrefl 0

/-- Every verifier rejects it with `NO_ROWS` (R128). -/
theorem verify_empty {c : Config} {d : Demod} {v : VSel} (h : d.avail c = []) (hv : v ≠ .vNone) :
    verify c d v = some (.reject .noRows 0) := by
  cases v with
  | vNone => exact absurd rfl hv
  | vRed => simp only [verify, checkRed, h, Check.judge_error]
  | vXor8 =>
    have hvote : checkVote c d = .error (.noRows, 0) := vote_cases.1 (by rw [h, List.take_nil]; decide)
    simp only [verify, checkXor8, hvote, Check.error_bind, Check.judge_error]
  | vNibsum => simp only [verify, checkNibsum, h, Check.judge_error]

/-! ## The 12-bit field -/

/-- `T` is the sign extension of `T12` to 16 bits (R151). -/
theorem redValue_eq (f : BitVec 12) : redValue f = f.signExtend 16 := by
  apply BitVec.eq_of_toInt_eq
  rw [redValue, BitVec.toInt_ofInt, BitVec.toInt_signExtend_of_le (by omega)]
  have h1 := f.isLt
  have ht : f.toNat.testBit 11 = decide (2048 ≤ f.toNat) := by
    rw [Nat.testBit_eq_decide_div_mod_eq]
    congr 1
    apply propext
    omega
  simp only [sextN, ht]
  rw [BitVec.toInt_eq_toNat_cond]
  simp only [decide_eq_true_eq]
  rw [Int.bmod_eq_of_le]
  · split <;> split <;> omega
  · split <;> omega
  · split <;> omega

end Sys2Proof.Machine
end

