-- ==== Sys2Proof/Tests/Slice0.lean ====
section
/-! SUPPORT. Tests of one step or one word each, their expected results from the tables and the vectors of
spec/ (the vector's name stands beside it), and a witness for the hypotheses of every obligation. -/

namespace Sys2Proof.Tests
open Sys2Proof.Machine

/-! ## Helpers -/

/-- The state after an outcome. -/
def after : Result → Option State
  | .next t => some t
  | .fault _ => none
  | .refused _ => none

/-- A small configuration: two protocols, a table of two slots, two rows of four bytes. -/
def cfg : Config :=
  { Config.reference with
    levelLimit := 100, quietWindow := 5, tblCap := 2, bbRows := 2, bbCols := 4,
    descs := [⟨.pwmD, .vRed, ⟨4, 8, 20⟩⟩, ⟨.manch, .vNone, ⟨4, 0, 30⟩⟩] }

/-- Nothing seen yet. -/
def st0 : State := State.resetWith cfg

/-- A pulse is open since sample 1; this is sample 3. -/
def stHigh : State := { st0 with pulseOpen := true, pulseStart := 1, idx := 3 }

/-- A signal is open with one pulse, which ended at sample 3; this is sample 6. -/
def stSig : State := { st0 with sigOpen := true, sigStart := 1, lastEnd := 3, tbl := [⟨1, 3, 2⟩], idx := 6 }

/-- A second pulse of that signal is open since sample 5. -/
def stSigHigh : State := { stSig with pulseOpen := true, pulseStart := 5 }

/-- A third pulse, with the table full. -/
def stFull : State :=
  { stSig with tbl := [⟨1, 3, 2⟩, ⟨5, 6, 1⟩], lastEnd := 6, pulseOpen := true, pulseStart := 8, idx := 9 }

/-- A buffer with the given rows: bytes and bit count. -/
def bufferOf (c : Config) (rows : List (List Byte × Nat)) : Demod :=
  { Demod.reset c.bbRows with
    bb := (rows.zipIdx.flatMap fun (row, r) => row.1.zipIdx.map fun (x, k) => (bbAddr c r k, x)).filter
      (fun cell => cell.2 != 0)
    rowBits := rows.map (·.2) ++ List.replicate (c.bbRows - rows.length) 0 }

/-- A verifier's configuration: the defaults of R3, in a buffer of `rows` rows of `cols` columns. -/
def vcfg (v : VSel) (rows cols : Nat) : Config :=
  { Config.reference with bbRows := rows, bbCols := cols, descs := [⟨.pwmP, v, ⟨2, 6, 20⟩⟩] }

/-- A state whose one protocol has the given buffer. -/
def withBuffer (c : Config) (rows : List (List Byte × Nat)) : State :=
  { State.resetWith c with demods := [bufferOf c rows] }

/-- The verdicts among the events of an outcome. -/
def verdicts (r : Result) : Option (List (Bool × Reason × BitVec 4 × Payload)) :=
  (after r).map fun t => t.events.filterMap fun e =>
    match e with
    | .verdict v => some (v.accept, v.reason, v.info, v.payload)
    | .signalOpened _ | .pulse _ | .tableOverflow _ | .signalClosed _ _ _ _ _ => none
    | .bufferDone _ _ _ _ _ _ _ => none

/-! ## Decoding: words written out from spec/30_encoding.md -/

-- CMD: op 18:16, data 15:0 (R60, R61); the words of V-C1 to V-C14
theorem test_decode_idle : decodeCmd 0b000_0000000000000000#19 = .idle := by decide
theorem test_decode_sample : decodeCmd 0b001_1111111111111011#19 = .sample (BitVec.ofInt 16 (-5)) := by decide
theorem test_decode_eos : decodeCmd 0b010_0001001000110100#19 = .eos := by decide
theorem test_decode_stop : decodeCmd 0b011_0000000000000000#19 = .stop := by decide
theorem test_decode_rst : decodeCmd 0b100_0000000000000000#19 = .rst := by decide
theorem test_decode_rsv5 : decodeCmd 0b101_0000000000000000#19 = .rsv5 := by decide
theorem test_decode_rsv6 : decodeCmd 0b110_0000000000000000#19 = .rsv6 := by decide
theorem test_decode_rsv7 : decodeCmd 0b111_0000000000000000#19 = .rsv7 := by decide
-- EDGE: hi bit 1, pulse_open bit 0 (R62)
theorem test_decode_edges :
    decodeEdge 0b10 = .rise ∧ decodeEdge 0b11 = .hold ∧ decodeEdge 0b01 = .fall ∧ decodeEdge 0b00 = .low := by decide
-- DESC: mod 99:98, vsel 97:96, short 95:64, long 63:32, reset 31:0 (R64 to R66); program P3's word
theorem test_decode_descriptor :
    decodeDesc (0b10#2 ++ 0b11#2 ++ 0x00000004#32 ++ 0x00000000#32 ++ 0x0000001E#32) =
      .ok ⟨.manch, .vNibsum, ⟨4, 0, 30⟩⟩ := rfl
theorem test_decode_pwmD : decode (.modOp 0x2000000020000000A00000014#100 1 ⟨1, 2, 1, none⟩) =
    .ok (.pwmD .vXor8 ⟨2, 10, 20⟩ 1 ⟨1, 2, 1, none⟩) := rfl
theorem test_decode_pwmP : decode (.modOp 0x5000000020000000600000014#100 0 ⟨1, 2, 1, none⟩) =
    .ok (.pwmP .vRed ⟨2, 6, 20⟩ 0 ⟨1, 2, 1, none⟩) := rfl
theorem test_decode_manch : decode (.modOp 0x8000000040000000000000001#100 0 ⟨1, 2, 1, none⟩) =
    .ok (.manch .vNone ⟨4, 0, 1⟩ 0 ⟨1, 2, 1, none⟩) := rfl
theorem test_decode_vNone : decode (.verOp 0x0000000010000000200000003#100 2) = .ok (.vNone .pwmD ⟨1, 2, 3⟩ 2) := rfl
theorem test_decode_vRed : decode (.verOp 0x5000000020000000600000014#100 0) = .ok (.vRed .pwmP ⟨2, 6, 20⟩ 0) := rfl
theorem test_decode_vXor8 : decode (.verOp 0x2000000020000000A00000014#100 1) = .ok (.vXor8 .pwmD ⟨2, 10, 20⟩ 1) := rfl
theorem test_decode_vNibsum : decode (.verOp 0xB00000004000000000000001E#100 0) =
    .ok (.vNibsum .manch ⟨4, 0, 30⟩ 0) := rfl
theorem test_decode_reserved_modulation :
    decodeDesc 0xC000000000000000000000000#100 = .error .reservedModulation := rfl
-- RDB: width 20:16, off 15:0 (R71)
theorem test_decode_rdbits : decodeRdb 0b01000_0000000000000100#21 [0xAB, 0xCD] = .rdbits 8 4 [0xAB, 0xCD] := by decide
-- The packings of R67 and R71
theorem test_pack_record : PulseRecord.pack ⟨5, 6, 1, some 2⟩ = 0x00000005_00000006_00000001#96 ++ 1#1 ++ 2#32 := by
  decide
theorem test_pack_response : Response.pack ⟨.bounds, 0⟩ = 0b10_0000000000000000#18 := by decide

/-! ## Words of the opcode table and the step that runs them -/

theorem test_table_command : decodeTableWord 24 0x10064 = some (.sample 100) := by decide
theorem test_table_edge : decodeTableWord 8 0b10 = some .rise := by decide
theorem test_table_modulation :
    decodeTableWord 104 0x4000000000000000000000000 = some (.pwmP .vNone ⟨0, 0, 0⟩ 0 ⟨0, 0, 0, none⟩) := by decide
theorem test_table_verifier : decodeTableWord 104 0x1000000000000000000000000 = some (.vRed .pwmD ⟨0, 0, 0⟩ 0) := by
  decide
theorem test_table_reserved_modulation : decodeTableWord 104 0xC000000000000000000000000 = none := by decide
theorem test_fetched_stop_halts :
    (after (step (State.reset.withFetchWord 24 0x30000))).map (·.halted) = some true := by decide
theorem test_fetched_fall_records_a_pulse :
    (after (step (State.reset.withFetchWord 8 0b01))).map (·.tbl) = some [⟨0, 0, 0⟩] := by decide
theorem test_fetched_descriptor_demodulates :
    (after (step (State.reset.withFetchWord 104 0x4000000000000000000000000))).map
      (·.demods.map (·.rowBitsAt 0)) = some [1] := by decide
theorem test_fetched_verifier_judges :
    verdicts (step (State.reset.withFetchWord 104 0x1000000000000000000000000)) =
      some [(false, .noRows, 0, .none)] := by decide

/-! ## WellFormed: a term that each check refuses -/

theorem test_wf_good : ((Instr.addBit 1 true).wf cfg && (Instr.sext 16 0xFFFF).wf cfg &&
    (Instr.nib [0xAB] 1).wf cfg) = true := by decide
theorem test_wf_modulation_protocol : ((Instr.pwmD .vNone ⟨0, 0, 0⟩ 2 ⟨0, 0, 0, none⟩).wf cfg ||
    (Instr.pwmP .vNone ⟨0, 0, 0⟩ 2 ⟨0, 0, 0, none⟩).wf cfg ||
    (Instr.manch .vNone ⟨0, 0, 0⟩ 2 ⟨0, 0, 0, none⟩).wf cfg) = false := by decide
theorem test_wf_verifier_protocol : ((Instr.vNone .pwmD ⟨0, 0, 0⟩ 2).wf cfg || (Instr.vRed .pwmD ⟨0, 0, 0⟩ 2).wf cfg ||
    (Instr.vXor8 .pwmD ⟨0, 0, 0⟩ 2).wf cfg || (Instr.vNibsum .pwmD ⟨0, 0, 0⟩ 2).wf cfg) = false := by decide
theorem test_wf_subop_protocol : ((Instr.demod 2 ⟨0, 0, 0, none⟩).wf cfg || (Instr.rowAdv 2 ⟨0, 0, 0, none⟩).wf cfg ||
    (Instr.addBit 2 true).wf cfg || (Instr.nextRow 2).wf cfg || (Instr.bbDone 2).wf cfg || (Instr.bbClear 2).wf cfg ||
    (Instr.rowVote 2).wf cfg) = false := by decide
theorem test_wf_sext_width : ((Instr.sext 0 0).wf cfg || (Instr.sext 17 0).wf cfg) = false := by decide
theorem test_wf_sext_value : (Instr.sext 8 0x100).wf cfg = false := by decide
theorem test_wf_nib : (Instr.nib [0xAB, 0xCD] 4).wf cfg = false := by decide
theorem test_config_admissible : ({ cfg with tblCap := 0 }.admissible || { cfg with bbRows := 0 }.admissible ||
    { cfg with bbCols := 0 }.admissible) = false := by decide
theorem test_config_well_formed : Config.reference.wellFormed = true := by decide
theorem test_config_ill_formed : ({ Config.reference with redHdrCols := [34] }.wellFormed ||
    { Config.reference with tempNib := 66 }.wellFormed || { Config.reference with xor8Start := 184 }.wellFormed ||
    { Config.reference with nibLongLen := 51 }.wellFormed || { Config.reference with nibShortLen := 51 }.wellFormed ||
    { Config.reference with majRows := 1 }.wellFormed || { Config.reference with redMinRows := 1 }.wellFormed) =
      false := by decide

/-! ## Commands (V-C, LEVEL_LIMIT = 100) -/

theorem test_idle : after (exec .idle stHigh) = some stHigh := by decide
-- V-C3: RISE at sample 0, ST = 0x0001
theorem test_sample_rises : (after (exec (.sample 100) st0)).map (fun t => (t.st, t.pulseStart, t.idx)) =
    some (0x0001, 0, 1) := by decide
-- V-C6: the most negative sample is low
theorem test_sample_is_signed : (after (exec (.sample 0x8000) st0)).map (fun t => (t.st, t.idx)) = some (0, 1) := by
  decide
-- V-C8, and R83 for an open signal: SignalClosed(1, 3, 6, 1, ...)
theorem test_eos : (after (exec .eos st0)).map (·.st) = some 0x0004 := by decide
theorem test_eos_closes : (after (exec .eos stSigHigh)).map (fun t => (t.events.head?, t.st, t.tbl)) =
    some (some (.signalClosed 1 3 6 1 [⟨1, 3, 2⟩]), 0x0004, []) := by decide
-- V-C9, and R84 for an open signal: no event
theorem test_stop : (after (exec .stop stSigHigh)).map (fun t => (t.st, t.events, t.tbl, t.lastEnd)) =
    some (0x0004, [], [], 3) := by decide
theorem test_stop_halted : after (exec .stop { stSig with halted := true }) = some { stSig with halted := true } := by
  decide
-- R85, halted or not
theorem test_rst : after (exec .rst { stFull with halted := true, badcmd := true, tblOvf := true }) = some st0 := by
  decide
-- V-C11
theorem test_rsv5 : (after (exec .rsv5 st0)).map (·.st) = some 0x0010 := by decide
theorem test_rsv6 : (after (exec .rsv6 st0)).map (·.st) = some 0x0010 := by decide
theorem test_rsv7 : (after (exec .rsv7 { st0 with halted := true })).map (·.st) = some 0x0014 := by decide
-- R190: the reset pin wins over the command of its cycle; R60: a cycle that drives nothing is an IDLE
theorem test_reset_pin : after (step { stFull with input := [⟨true, true, 0x70000⟩] }) = some st0 := by decide
theorem test_undriven_cycle : after (step { stSig with input := [⟨false, false, 0x30000⟩] }) = some stSig := by decide
theorem test_ill_formed_configuration :
    step { st0 with cfg := { cfg with tblCap := 0 } } = .refused .illFormedConfig := rfl

/-! ## Extractor -/

theorem test_rise : (after (exec .rise { st0 with idx := 7 })).map (fun t => (t.pulseOpen, t.pulseStart, t.events)) =
    some (true, 7, []) := by decide
theorem test_hold : after (exec .hold stHigh) = some stHigh := by decide
-- V-E2: SignalOpened(1), Pulse{1,3,2,-}; then Pulse{5,6,1,2}
theorem test_fall_first : (after (exec .fall stHigh)).map (fun t => (t.events, t.sigStart, t.lastEnd)) =
    some ([.signalOpened 1, .pulse ⟨1, 3, 2, none⟩], 1, 3) := by decide
theorem test_fall_overflows : (after (exec .fall stFull)).map (fun t => (t.events, t.st, t.tbl)) =
    some ([.tableOverflow 9], 0x0008, []) := by decide
-- V-E4's boundary: a count of 5 is not above the window of 5, a count of 6 is
theorem test_low_waits : after (exec .low { stSig with idx := 7 }) = some { stSig with idx := 7 } := by decide
theorem test_low_closes : (after (exec .low { stSig with idx := 8 })).map (·.events.head?) =
    some (some (.signalClosed 1 3 8 1 [⟨1, 3, 2⟩])) := by decide
theorem test_sigOpen : (after (exec (.sigOpen ⟨4, 6, 2, none⟩) st0)).map (fun t => (t.sigOpen, t.sigStart, t.events)) =
    some (true, 4, [.signalOpened 4]) := by decide
theorem test_tblAppend : (after (exec (.tblAppend ⟨5, 6, 1, some 2⟩) stSig)).map (fun t => (t.tbl, t.lastEnd)) =
    some ([⟨1, 3, 2⟩, ⟨5, 6, 1⟩], 6) := by decide
theorem test_tblAppend_full : exec (.tblAppend ⟨8, 9, 1, some 2⟩) stFull = .fault .noTableSlot := rfl
theorem test_tblAbort : (after (exec (.tblAbort 9) stFull)).map (fun t => (t.events, t.tbl, t.sigOpen, t.pulseStart)) =
    some ([.tableOverflow 9], [], false, 8) := by decide
-- R108: SignalClosed, then BitBufferDone and Verdict in ascending p (R70's NO_ROWS for p = 0; V_NONE for p = 1)
theorem test_sigClose : (after (exec (.sigClose 6) stSig)).map (fun t => (t.events.map (·.tag), t.sigOpen, t.sigStart)) =
    some ([3, 4, 5, 4], false, 1) := by decide
-- V-E2: the gap between the two pulses of that signal
theorem test_gaps : gapsOf cfg [⟨1, 3, 2⟩, ⟨5, 6, 1⟩] = [2] := by decide

/-! ## Demodulator -/

/-- Protocol `p`'s demodulator after an outcome. -/
def demodAfter (p : Nat) (r : Result) : Option Demod := (after r).bind (·.demods[p]?)

-- V-D2 (SHORT 4, LONG 8, RESET 20): gap 6 is a 1, gap 5 a 0; V-D6: gap 21 gives no bit
theorem test_pwmD : (demodAfter 0 (exec (.pwmD .vNone ⟨4, 8, 20⟩ 0 ⟨1, 2, 1, some 6⟩) st0)).map
    (fun d => (d.byte cfg 0 0, d.rowBits, d.bitpos)) = some (0x80, [1, 0], 6) := by decide
theorem test_pwmD_long_gap : after (exec (.pwmD .vNone ⟨4, 8, 20⟩ 0 ⟨1, 2, 1, some 21⟩) st0) = some st0 := by decide
-- V-D3 (SHORT 2, LONG 6): length 4 is a 0, length 3 a 1
theorem test_pwmP_long : (demodAfter 0 (exec (.pwmP .vNone ⟨2, 6, 20⟩ 0 ⟨0, 4, 4, none⟩) st0)).map
    (fun d => (d.byte cfg 0 0, d.rowBits)) = some (0x00, [1, 0]) := by decide
theorem test_pwmP_short : (demodAfter 0 (exec (.pwmP .vNone ⟨2, 6, 20⟩ 0 ⟨0, 3, 3, none⟩) st0)).map
    (fun d => (d.byte cfg 0 0, d.rowBits)) = some (0x80, [1, 0]) := by decide
-- V-D4's first pulse {0,4,4,-} with SHORT 4: only its rising edge is a data edge; V-D5: 6 is not above 6
theorem test_manch : (demodAfter 1 (exec (.manch .vNone ⟨4, 0, 30⟩ 1 ⟨0, 4, 4, none⟩) st0)).map
    (fun d => (d.rowBits, d.mValid, d.mLast)) = some ([1, 0], true, 0) := by decide
theorem test_manch_falling_edge : (demodAfter 1 (exec (.manch .vNone ⟨4, 0, 30⟩ 1 ⟨0, 7, 7, none⟩) st0)).map
    (fun d => (d.byte cfg 0 0, d.rowBits, d.mLast)) = some (0x40, [2, 0], 7) := by decide
theorem test_demod : (demodAfter 0 (exec (.demod 0 ⟨30, 31, 1, some 20⟩) st0)).map
    (fun d => (d.byte cfg 0 0, d.row)) = some (0x80, 0) := by decide
theorem test_demod_next_row : (demodAfter 1 (exec (.demod 1 ⟨40, 41, 1, some 31⟩) st0)).map
    (fun d => (d.rowBits, d.row, d.mLast)) = some ([0, 1], 1, 40) := by decide
theorem test_rowAdv : (demodAfter 0 (exec (.rowAdv 0 ⟨30, 31, 1, some 21⟩) st0)).map
    (fun d => (d.row, d.col, d.bitpos, d.mValid)) = some (1, 0, 7, false) := by decide
theorem test_rowAdv_boundary : after (exec (.rowAdv 0 ⟨30, 31, 1, some 20⟩) st0) = some st0 := by decide
-- V-D1: the third bit of 1, 0, 1 makes 0xA0 with the cursor at bit 4
theorem test_addBit : (demodAfter 0 (exec (.addBit 0 true) { st0 with demods := [{ bufferOf cfg [([0x80], 2)] with bitpos := 5 }] })).map
    (fun d => (d.byte cfg 0 0, d.rowBits, d.bitpos)) = some (0xA0, [3, 0], 4) := by decide
-- R127: past the last column
theorem test_addBit_truncates : (demodAfter 0 (exec (.addBit 0 true) { st0 with demods := [{ bufferOf cfg [([], 32)] with col := 4 }] })).map
    (fun d => (d.bb, d.rowBits, d.trunc)) = some ([], [32, 0], true) := by decide
theorem test_nextRow : (demodAfter 0 (exec (.nextRow 0) { st0 with demods := [{ bufferOf cfg [([0xFF], 8)] with col := 1 }] })).map
    (fun d => (d.row, d.col, d.bitpos)) = some (1, 0, 7) := by decide
theorem test_nextRow_saturates : (demodAfter 0 (exec (.nextRow 0) { st0 with demods := [{ bufferOf cfg [] with row := 2 }] })).map
    (·.row) = some 2 := by decide
theorem test_bbDone : (after (exec (.bbDone 1) st0)).map (·.events) =
    some [.bufferDone 1 [[0, 0, 0, 0], [0, 0, 0, 0]] [0, 0] 0 0 7 false] := by decide
theorem test_bbClear : (demodAfter 0 (exec (.bbClear 0) { st0 with demods := [{ bufferOf cfg [([0xFF], 8)] with col := 1, trunc := true, mValid := true, mLast := 9 }] })) =
    some { Demod.reset 2 with mLast := 9 } := by decide

/-! ## Verifiers -/

/-- V-R1's row. -/
def redRow : List Byte := [0x5A, 0x30, 0xE7, 0x11]

theorem test_vNone : after (exec (.vNone .manch ⟨4, 0, 30⟩ 1) st0) = some st0 := by decide
-- V-R1 (T = 231) and V-R3
theorem test_vRed : verdicts (exec (.vRed .pwmP ⟨2, 6, 20⟩ 0) (withBuffer (vcfg .vRed 3 4) [(redRow, 32), (redRow, 32)])) =
    some [(true, .ok, 0, .field 231)] := by decide
theorem test_vRed_mismatch : verdicts (exec (.vRed .pwmP ⟨2, 6, 20⟩ 0)
    (withBuffer (vcfg .vRed 3 4) [(redRow, 32), (redRow, 32), ([0x5B, 0x30, 0xE7, 0x11], 32)])) =
    some [(false, .rowMismatch, 0, .none)] := by decide

/-- V-X1's row. -/
def xorRow : List Byte := [0x00, 0x00, 0x52, 0x25, 0x96, 0xA8, 0xF5, 0x66, 0x7B, 0x7B, 0x87, 0xE9, 0x74, 0xA0]

/-- V-X5: three rows with one damaged byte each in the second and the third. -/
def stVote : State :=
  withBuffer (vcfg .vXor8 3 14) [(xorRow, 107), (xorRow.set 5 0x57, 107), (xorRow.set 9 0x6B, 107)]

theorem test_vXor8 : verdicts (exec (.vXor8 .pwmD ⟨2, 6, 20⟩ 0) stVote) =
    some [(true, .ok, 0, .bytes [0x12, 0x34, 0x56, 0x78, 0x9A, 0xBC, 0xDE, 0xF0, 0xA5])] := by decide
-- V-X4: the stop bit of byte 4
theorem test_vXor8_framing : verdicts (exec (.vXor8 .pwmD ⟨2, 6, 20⟩ 0)
    (withBuffer (vcfg .vXor8 2 14) [(xorRow.set 7 0x64, 107), (xorRow.set 7 0x64, 107)])) =
    some [(false, .framingStop, 4, .none)] := by decide
theorem test_rowVote : (after (exec (.rowVote 0) stVote)).map (·.result) = some (some (.comb xorRow)) := by
  decide
-- V-X6
theorem test_rowVote_mismatch : (after (exec (.rowVote 0)
    (withBuffer (vcfg .vXor8 2 14) [(xorRow, 107), (xorRow.set 5 0x57, 107)]))).map (·.result) =
    some (some (.rejected .rowMismatch)) := by decide

/-- V-N1's row. -/
def nibRow : List Byte := [0x00, 0x31, 0x4E, 0x4B, 0x56, 0xF4, 0x63, 0x80]

theorem test_vNibsum : verdicts (exec (.vNibsum .pwmD ⟨2, 6, 20⟩ 0) (withBuffer (vcfg .vNibsum 2 8) [(nibRow, 60)])) =
    some [(true, .ok, 0, .nibbles [1, 2, 3, 4, 5, 6, 7, 8, 8])] := by decide
-- V-N4: the XOR check comes before the sum check
theorem test_vNibsum_xor : verdicts (exec (.vNibsum .pwmD ⟨2, 6, 20⟩ 0)
    (withBuffer (vcfg .vNibsum 2 8) [((nibRow.set 6 0x73).set 7 0x40, 60)])) =
    some [(false, .checksumXor, 0, .none)] := by decide

/-! ## Reader -/

-- V-B1 and V-B15
theorem test_rdbits : (after (exec (.rdbits 8 4 [0xAB, 0xCD]) st0)).map (·.result) =
    some (some (.response ⟨.none, 0x3D⟩)) := by decide
theorem test_rdbits_width_first : (after (exec (.rdbits 17 100 [0xAB, 0xCD]) st0)).map (·.result) =
    some (some (.response ⟨.width, 0⟩)) := by decide
-- V-B17: sext_12(0xF9C) = -100
theorem test_sext : (after (exec (.sext 12 0xF9C) st0)).map (·.result) =
    some (some (.sext (BitVec.ofInt 16 (-100)))) := by decide
-- R95 states no result for v = 0x100, N = 8: some value is answered
theorem test_sext_range : ∃ w, after (exec (.sext 8 0x100) st0) = some { st0 with result := some (.sext w) } := ⟨_, rfl⟩
-- V-B19
theorem test_nib : (after (exec (.nib [0xAB, 0xCD] 1) st0)).map (·.result) = some (some (.nib 0xB)) := by decide
theorem test_nib_high : (after (exec (.nib [0xAB, 0xCD] 2) st0)).map (·.result) = some (some (.nib 0xC)) := by decide

/-! ## Stimulus (R74, R75) -/

theorem test_stimulus_words : (stimSample 100, stimSample (-5), stimRsv 6) = (0x10064#19, 0x1FFFB#19, 0x60000#19) := by
  decide
theorem test_stimulus_bits : stimBitsP [true, false] 2 1 1 ++ stimBitsD [true] 1 1 2 1 =
    stimHi 1 ++ stimLo 1 ++ stimHi 2 ++ stimLo 1 ++ (stimHi 1 ++ stimLo 2 ++ stimHi 1 ++ stimLo 1) := by decide

/-! ## Witnesses: for every obligation with hypotheses, a case that meets them, clause by clause -/

theorem test_witness_EncodedInstructionDecodesToItself : encode (.sample 5) = some (.cmd 0x10005#19) := by decide
theorem test_witness_DecodedWordIsItsInstructionsWord_command :
    decode (.cmd 0x10005#19) = .ok (.sample 5) ∧ (0x10005#19).extractLsb' 16 3 = 0b001#3 := ⟨rfl, by decide⟩
theorem test_witness_DecodedWordIsItsInstructionsWord_other : decode (.edge 0b10#2) = .ok .rise ∧ ∀ w, Code.edge 0b10#2 ≠ .cmd w :=
  ⟨rfl, fun w h => by cases h⟩
theorem test_witness_DescriptorWords : decodeDesc 0x5000000020000000600000014#100 = .ok ⟨.pwmP, .vRed, ⟨2, 6, 20⟩⟩ ∧
    (0xC000000000000000000000000#100).extractLsb' 98 2 = 0b11#2 := ⟨rfl, by decide⟩

/-- A state with a command presented. -/
def stInput (pins : Pins) : State := { stSig with input := [pins, undriven] }

theorem test_witness_StepRunsThePresentedCommand_driven : (stInput ⟨false, true, 0x10005⟩).cfg.admissible = true ∧
    (stInput ⟨false, true, 0x10005⟩).input = { rst := false, inValid := true, cmd := 0x10005 } :: [undriven] := by decide
theorem test_witness_StepCompletesOrRefusesTheConfiguration_next : 1 ≤ st0.cfg.tblCap.toNat ∧ 1 ≤ st0.cfg.bbRows ∧ 1 ≤ st0.cfg.bbCols := by decide
theorem test_witness_StepCompletesOrRefusesTheConfiguration_refused : ({ cfg with tblCap := 0 } : Config).tblCap.toNat = 0 ∧
    ({ cfg with bbRows := 0 } : Config).bbRows = 0 ∧ ({ cfg with bbCols := 0 } : Config).bbCols = 0 := by decide
theorem test_witness_CommandCodesAndTheSampleOperand : cfg.sampleW = 16 ∧ (0x7FFF#16).toNat < 2 ^ 15 ∧
    ¬ (0x8000#16).toNat < 2 ^ 15 := by decide
theorem test_witness_StatusAndConfigurationWords : st0.cfg.descs.length < 2 ^ 16 ∧ st0.cfg.descs[1]? = some ⟨.manch, .vNone, ⟨4, 0, 30⟩⟩ ∧
    LimitsFit st0.cfg ⟨4, 0, 30⟩ ∧ (st0.cfg.levelLimit.setWidth st0.cfg.sampleW).toInt = st0.cfg.levelLimit.toInt := by decide
theorem test_witness_StepRunsThePresentedCommand_undriven : (stInput ⟨false, false, 0x30000⟩).cfg.admissible = true ∧
    (stInput ⟨false, false, 0x30000⟩).input = { rst := false, inValid := false, cmd := 0x30000 } :: [undriven] ∧
    st0.cfg.admissible = true ∧ st0.input = [] := by decide
theorem test_witness_StepRunsThePresentedCommand_reset : (stInput ⟨true, true, 0x70000⟩).cfg.admissible = true ∧
    (stInput ⟨true, true, 0x70000⟩).input = { rst := true, inValid := true, cmd := 0x70000 } :: [undriven] := by decide
-- the four edges, at the level limit and just below it
theorem test_witness_SampleRunsItsEdgeOperation : (st0.cfg.sampleW = 16 ∧ st0.cfg.idxW = 32 ∧
    stHigh.cfg.sampleW = 16 ∧ stHigh.cfg.idxW = 32) ∧ (st0.halted = false ∧ st0.pulseOpen = false) ∧
    (stHigh.halted = false ∧ stHigh.pulseOpen = true) ∧ true = decide (st0.cfg.levelLimit.toInt ≤ (100#16).toInt) ∧
    false = decide (st0.cfg.levelLimit.toInt ≤ (99#16).toInt) ∧ true = decide (stHigh.cfg.levelLimit.toInt ≤ (100#16).toInt) ∧
    false = decide (stHigh.cfg.levelLimit.toInt ≤ (99#16).toInt) ∧ ({ stSig with halted := true } : State).halted = true := by
  decide
theorem test_witness_EosClosesTheOpenSignalAndHalts : (stHigh.halted = false ∧ stHigh.sigOpen = false) ∧
    (stSigHigh.halted = false ∧ stSigHigh.sigOpen = true) ∧
    ({ stSig with halted := true } : State).halted = true := by decide
theorem test_witness_StopDropsTheOpenSignalAndHalts : stSigHigh.halted = false ∧
    ({ stSig with halted := true } : State).halted = true := by decide
theorem test_witness_HaltedBlockIgnoresCommands : ({ stSig with halted := true } : State).halted = true := by decide
-- first pulse; later pulse with room for it; later pulse with a full table
theorem test_witness_FallCompletesThePulse :
    (stHigh.cfg.idxW = 32 ∧ stSigHigh.cfg.idxW = 32 ∧ stFull.cfg.idxW = 32) ∧ ((⟨1, 3, 2, none⟩ : PulseRecord) = { start := stHigh.pulseStart, stop := stHigh.idx, length := stHigh.idx - stHigh.pulseStart, gap := if stHigh.sigOpen then some (stHigh.pulseStart - stHigh.lastEnd) else none } ∧
      stHigh.tbl.length ≤ stHigh.cfg.tblCap.toNat ∧ stHigh.sigOpen = false) ∧
    ((⟨5, 6, 1, some 2⟩ : PulseRecord) = { start := stSigHigh.pulseStart, stop := stSigHigh.idx, length := stSigHigh.idx - stSigHigh.pulseStart, gap := if stSigHigh.sigOpen then some (stSigHigh.pulseStart - stSigHigh.lastEnd) else none } ∧
      stSigHigh.tbl.length ≤ stSigHigh.cfg.tblCap.toNat ∧ stSigHigh.sigOpen = true ∧ stSigHigh.tbl.length ≠ stSigHigh.cfg.tblCap.toNat) ∧
    ((⟨8, 9, 1, some 2⟩ : PulseRecord) = { start := stFull.pulseStart, stop := stFull.idx, length := stFull.idx - stFull.pulseStart, gap := if stFull.sigOpen then some (stFull.pulseStart - stFull.lastEnd) else none } ∧
      stFull.tbl.length ≤ stFull.cfg.tblCap.toNat ∧ stFull.tbl.length = stFull.cfg.tblCap.toNat) := by decide
-- a count just above the window, one equal to it, and no signal
theorem test_witness_LowRunsTheQuietCheck : stSig.cfg.idxW = 32 ∧ st0.cfg.idxW = 32 ∧
    (({ stSig with idx := 8 } : State).sigOpen = true ∧
      stSig.cfg.quietWindow.toNat < (({ stSig with idx := 8 } : State).idx + 1 - stSig.lastEnd).toNat) ∧
    (({ stSig with idx := 7 } : State).sigOpen = true ∧
      (({ stSig with idx := 7 } : State).idx + 1 - stSig.lastEnd).toNat ≤ stSig.cfg.quietWindow.toNat) ∧
    st0.sigOpen = false := by decide
theorem test_witness_TblAppendStoresAndDemodulates : stSig.tbl.length < stSig.cfg.tblCap.toNat ∧
    stSig.demods.length = stSig.cfg.nProto ∧ 1 < stSig.cfg.nProto := by decide
theorem test_witness_SigCloseReportsAndClears : stSig.demods.length = stSig.cfg.nProto ∧ 0 < stSig.cfg.nProto := by decide
-- one sample that overflows and one that closes
theorem test_witness_OverflowAndCloseNeverMeet :
    (∃ t, exec (.sample 0) stFull = .next t ∧ Event.tableOverflow 9 ∈ t.events) ∧
    (∃ t, exec (.sample 0) { stSig with idx := 8 } = .next t ∧ Event.signalClosed 1 3 8 1 [⟨1, 3, 2⟩] ∈ t.events) :=
  ⟨⟨_, rfl, by decide⟩, ⟨_, rfl, by decide⟩⟩

/-- `stSigHigh` with indexes of 4 bits, which have wrapped since the first pulse, and samples of 8 bits. -/
def stNarrow : State :=
  { stSigHigh with
    cfg := { cfg with idxW := 4, sampleW := 8, descs := [⟨.pwmD, .vRed, ⟨4, 8, 12⟩⟩, ⟨.manch, .vNone, ⟨4, 0, 12⟩⟩] }
    sigStart := 12, lastEnd := 14, tbl := [⟨12, 14, 2⟩], pulseStart := 15, idx := 1
    demods := [Demod.reset 2, { Demod.reset 2 with mValid := true, mLast := 14 }] }

theorem test_witness_IndexArithmeticIsModuloIdxW_sample : stNarrow.halted = false := by decide
-- the pulse 15 .. 1 has length 2, and its gap from 14 is 1
theorem test_witness_IndexArithmeticIsModuloIdxW_fall : stNarrow.tbl.length < stNarrow.cfg.tblCap.toNat ∧
    (⟨15, 1, 2, some 1⟩ : PulseRecord).start = stNarrow.pulseStart ∧ (⟨15, 1, 2, some 1⟩ : PulseRecord).stop = stNarrow.idx ∧
    (2#32).toNat = (stNarrow.idx - stNarrow.pulseStart).toNat % 2 ^ stNarrow.cfg.idxW.val ∧ stNarrow.sigOpen = true ∧
    (1#32).toNat = (stNarrow.pulseStart - stNarrow.lastEnd).toNat % 2 ^ stNarrow.cfg.idxW.val ∧ stHigh.sigOpen = false := by
  decide
-- counts of 6 and 5 against a window of 5
theorem test_witness_IndexArithmeticIsModuloIdxW_low :
    (stNarrow.sigOpen = true ∧
      stNarrow.cfg.quietWindow.toNat < (({ stNarrow with idx := 3 } : State).idx + 1 - stNarrow.lastEnd).toNat % 2 ^ stNarrow.cfg.idxW.val) ∧
    (({ stNarrow with idx := 2 } : State).idx + 1 - stNarrow.lastEnd).toNat % 2 ^ stNarrow.cfg.idxW.val ≤ stNarrow.cfg.quietWindow.toNat := by
  decide
-- an edge 6 samples after 14 (at 4) is not more than 1.5 × 4 away, one 7 samples after (at 5) is
theorem test_witness_IndexArithmeticIsModuloIdxW_manch : 1 < stNarrow.cfg.nProto ∧
    stNarrow.demods[1]? = some { Demod.reset 2 with mValid := true, mLast := 14 } ∧
    2 * ((4#32 - 14#32).toNat % 2 ^ stNarrow.cfg.idxW.val) ≤ 3 * ((4#32).toNat % 2 ^ stNarrow.cfg.idxW.val) ∧
    3 * ((4#32).toNat % 2 ^ stNarrow.cfg.idxW.val) < 2 * ((5#32 - 14#32).toNat % 2 ^ stNarrow.cfg.idxW.val) := by decide
-- of limits 20, 24, 28 the low four bits are 4, 8, 12
theorem test_witness_IndexArithmeticIsModuloIdxW_limits : (4#32).toNat = (20#32).toNat % 2 ^ stNarrow.cfg.idxW.val ∧
    (8#32).toNat = (24#32).toNat % 2 ^ stNarrow.cfg.idxW.val ∧ (12#32).toNat = (28#32).toNat % 2 ^ stNarrow.cfg.idxW.val := by decide
-- a gap above RESET = 12, and one equal to it
theorem test_witness_IndexArithmeticIsModuloIdxW_rowAdv : stNarrow.cfg.descs[0]? = some ⟨.pwmD, .vRed, ⟨4, 8, 12⟩⟩ ∧
    stNarrow.demods[0]? = some (Demod.reset 2) ∧ (12#32).toNat % 2 ^ stNarrow.cfg.idxW.val < (13#32).toNat ∧
    (12#32).toNat ≤ (12#32).toNat % 2 ^ stNarrow.cfg.idxW.val := by decide
theorem test_witness_IndexArithmeticIsModuloIdxW_gaps :
    stFull.tbl[0]? = some ⟨1, 3, 2⟩ ∧ stFull.tbl[0 + 1]? = some ⟨5, 6, 1⟩ := by decide
-- what R82, R103 and R107 give for 4-bit indexes and 8-bit samples
theorem test_narrow_index_wraps : (after (exec (.sample 0x7F) { stNarrow with idx := 15 })).map (·.idx) = some 0 := by decide
theorem test_narrow_sample_sign : (after (exec (.sample 0x80) { stNarrow with pulseOpen := false, cfg := { stNarrow.cfg with levelLimit := 0 } })).map (·.pulseOpen) =
    some false := by decide
theorem test_narrow_fall : (after (exec .fall stNarrow)).map (fun t => (t.events, t.tbl)) =
    some ([.pulse ⟨15, 1, 2, some 1⟩], [⟨12, 14, 2⟩, ⟨15, 1, 2⟩]) := by decide
theorem test_narrow_low : (after (exec .low { stNarrow with idx := 3 })).map (·.sigOpen) = some false := by decide
-- 4-bit limits 4 and 8 from the words 20 and 24 (R3): gap 6 is long, gap 5 short
theorem test_narrow_limits : (demodAfter 0 (exec (.pwmD .vNone ⟨20, 24, 28⟩ 0 ⟨1, 2, 1, some 6⟩) stNarrow)).map
    (fun d => (d.byte cfg 0 0, d.rowBits)) = some (0x80, [1, 0]) := by decide
theorem test_narrow_manch : (demodAfter 1 (exec (.manch .vNone ⟨4, 0, 30⟩ 1 ⟨4, 5, 1, none⟩) stNarrow)).map
    (fun d => (d.rowBits, d.mLast)) = some ([1, 0], 5) := by decide

/-- Three protocols, one of each modulation. -/
def cfgMods : Config :=
  { cfg with descs := [⟨.pwmD, .vRed, ⟨4, 8, 20⟩⟩, ⟨.pwmP, .vXor8, ⟨4, 8, 20⟩⟩, ⟨.manch, .vNibsum, ⟨4, 8, 20⟩⟩, ⟨.pwmP, .vNone, ⟨4, 8, 20⟩⟩] }

/-- The state after reset under it. -/
def stMods : State := State.resetWith cfgMods

theorem test_witness_DemodAdvancesThenModulates :
    (stMods.cfg.descs[0]? = some ⟨.pwmD, .vRed, ⟨4, 8, 20⟩⟩ ∧ 0 < stMods.demods.length) ∧
    (stMods.cfg.descs[1]? = some ⟨.pwmP, .vXor8, ⟨4, 8, 20⟩⟩ ∧ 1 < stMods.demods.length) ∧
    (stMods.cfg.descs[2]? = some ⟨.manch, .vNibsum, ⟨4, 8, 20⟩⟩ ∧ 2 < stMods.demods.length) := by decide

/-- Protocol 0 of the small configuration with the given demodulator. -/
def stDemod (d : Demod) : State := { st0 with demods := [d, Demod.reset 2] }

/-- The last bit of a byte; the last column used up; the last row used up. -/
def dLastBit : Demod := { Demod.reset 2 with bb := [(0, 0x80)], rowBits := [7, 0], bitpos := 0 }
def dRowFull : Demod := { Demod.reset 2 with rowBits := [32, 0], col := 4 }
def dAllFull : Demod := { Demod.reset 2 with row := 2 }

theorem test_witness_AddBitStoresAtTheCursorOrTruncates :
    (0 < (stDemod dLastBit).cfg.nProto ∧ (stDemod dLastBit).demods[0]? = some dLastBit ∧ dLastBit.bb.wf = true ∧
      dLastBit.row ≤ cfg.bbRows ∧ dLastBit.col ≤ cfg.bbCols ∧ ¬ (dLastBit.row = cfg.bbRows ∨ dLastBit.col = cfg.bbCols) ∧
      dLastBit.bitpos.val = 0) ∧
    ((stDemod (Demod.reset 2)).demods[0]? = some (Demod.reset 2) ∧ (Demod.reset 2).bb.wf = true ∧
      ¬ ((Demod.reset 2).row = cfg.bbRows ∨ (Demod.reset 2).col = cfg.bbCols) ∧ (Demod.reset 2).bitpos.val ≠ 0) ∧
    ((stDemod dRowFull).demods[0]? = some dRowFull ∧ dRowFull.bb.wf = true ∧ dRowFull.row ≤ cfg.bbRows ∧
      dRowFull.col ≤ cfg.bbCols ∧ dRowFull.col = cfg.bbCols) ∧
    ((stDemod dAllFull).demods[0]? = some dAllFull ∧ dAllFull.bb.wf = true ∧ dAllFull.row ≤ cfg.bbRows ∧
      dAllFull.col ≤ cfg.bbCols ∧ dAllFull.row = cfg.bbRows) := by decide
theorem test_witness_NextRowAdvancesAndSaturates :
    (0 < st0.cfg.nProto ∧ (stDemod dRowFull).demods[0]? = some dRowFull ∧ dRowFull.row < cfg.bbRows) ∧
    ((stDemod dAllFull).demods[0]? = some dAllFull ∧ ¬ dAllFull.row < cfg.bbRows) := by decide
-- a gap just above RESET = 20, one equal to it, none
theorem test_witness_RowAdvFollowsTheResetLimit :
    st0.cfg.descs[0]? = some ⟨.pwmD, .vRed, ⟨4, 8, 20⟩⟩ ∧ st0.demods[0]? = some (Demod.reset 2) ∧
    Fits st0.cfg 20 ∧ ((⟨30, 31, 1, some 21⟩ : PulseRecord).gap = some 21 ∧ (20#32).toNat < (21#32).toNat) ∧
    ((⟨30, 31, 1, some 20⟩ : PulseRecord).gap = some 20 ∧ (20#32).toNat ≤ (20#32).toNat) ∧
    (⟨30, 31, 1, none⟩ : PulseRecord).gap = none := by decide
-- gaps at RESET (long), at the midpoint (long), just below it (short), above RESET, none
theorem test_witness_PwmDStoresTheGapsBit : 0 < st0.cfg.nProto ∧ 0 < st0.demods.length ∧ LimitsFit st0.cfg ⟨4, 8, 20⟩ ∧
    ((20#32).toNat ≤ (20#32).toNat ∧ 2 * (20#32).toNat ≥ (4#32).toNat + (8#32).toNat) ∧
    ((6#32).toNat ≤ (20#32).toNat ∧ 2 * (6#32).toNat ≥ (4#32).toNat + (8#32).toNat) ∧
    ((5#32).toNat ≤ (20#32).toNat ∧ 2 * (5#32).toNat < (4#32).toNat + (8#32).toNat) ∧
    (20#32).toNat < (21#32).toNat := by decide
theorem test_witness_PwmPStoresThePulsesBit : 1 < stMods.cfg.nProto ∧ 1 < stMods.demods.length ∧ LimitsFit stMods.cfg ⟨4, 8, 20⟩ ∧
    2 * (6#32).toNat ≥ (4#32).toNat + (8#32).toNat ∧ 2 * (5#32).toNat < (4#32).toNat + (8#32).toNat := by decide
-- first edge of a row; 6 is not more than 1.5 × 4, 7 is
theorem test_witness_ManchStoresDataEdges : st0.cfg.idxW = 32 ∧ 1 < st0.cfg.nProto ∧ st0.demods[1]? = some (Demod.reset 2) ∧
    (Demod.reset 2).mValid = false ∧
    ¬ (({ Demod.reset 2 with mValid := true, mLast := 1 } : Demod).mValid = false ∨ 2 * (7#32 - 1#32).toNat > 3 * (4#32).toNat) ∧
    (({ Demod.reset 2 with mValid := true, mLast := 1 } : Demod).mValid = false ∨ 2 * (8#32 - 1#32).toNat > 3 * (4#32).toNat) := by
  decide
theorem test_witness_BbDoneReportsAndVerifies :
    ((0#16).toNat = 0 ∧ (3#16).toNat = 3 ∧ (∀ r, r < stMods.cfg.bbRows → (Demod.reset 2).rowBitsAt r = 0)) ∧
    (stMods.cfg.descs[0]? = some ⟨.pwmD, .vRed, ⟨4, 8, 20⟩⟩ ∧ stMods.demods[0]? = some (Demod.reset 2)) ∧
    (stMods.cfg.descs[1]? = some ⟨.pwmP, .vXor8, ⟨4, 8, 20⟩⟩ ∧ stMods.demods[1]? = some (Demod.reset 2)) ∧
    (stMods.cfg.descs[2]? = some ⟨.manch, .vNibsum, ⟨4, 8, 20⟩⟩ ∧ stMods.demods[2]? = some (Demod.reset 2)) ∧
    (stMods.cfg.descs[3]? = some ⟨.pwmP, .vNone, ⟨4, 8, 20⟩⟩ ∧ stMods.demods[3]? = some (Demod.reset 2)) := by decide
theorem test_witness_BbClearEmptiesTheBuffer : 0 < st0.cfg.nProto ∧ (stDemod dLastBit).demods[0]? = some dLastBit := by decide
theorem test_witness_DemodulatorOperationsFrame :
    (∃ t, exec (.pwmD .vNone ⟨4, 8, 20⟩ 0 ⟨1, 2, 1, some 6⟩) st0 = .next t) ∧
    (∃ t, exec (.pwmP .vNone ⟨4, 8, 20⟩ 0 ⟨1, 2, 1, some 6⟩) st0 = .next t) ∧
    (∃ t, exec (.manch .vNone ⟨4, 8, 20⟩ 0 ⟨1, 2, 1, some 6⟩) st0 = .next t) ∧
    (∃ t, exec (.demod 0 ⟨1, 2, 1, some 6⟩) st0 = .next t) ∧ (∃ t, exec (.rowAdv 0 ⟨1, 2, 1, some 6⟩) st0 = .next t) ∧
    (∃ t, exec (.addBit 0 true) st0 = .next t) ∧ (∃ t, exec (.nextRow 0) st0 = .next t) ∧
    (∃ t, exec (.bbClear 0) st0 = .next t) ∧ (1 : Nat) ≠ 0 :=
  ⟨⟨_, rfl⟩, ⟨_, rfl⟩, ⟨_, rfl⟩, ⟨_, rfl⟩, ⟨_, rfl⟩, ⟨_, rfl⟩, ⟨_, rfl⟩, ⟨_, rfl⟩, by decide⟩
theorem test_witness_BitBufferStoresOnlyAtTheCursor :
    stMods.cfg.descs[2]? = some ⟨.manch, .vNibsum, ⟨4, 8, 20⟩⟩ ∧ stMods.demods[2]? = some (Demod.reset 2) ∧
    (Demod.reset 2).bb.wf = true ∧ (1 : Nat) ≠ bbAddr cfgMods 0 0 ∧
    (∃ t d', exec (.addBit 2 true) stMods = .next t ∧ t.demods[2]? = some d') ∧
    (∃ t d', exec (.pwmD .vNone ⟨4, 8, 20⟩ 2 ⟨1, 2, 1, some 6⟩) stMods = .next t ∧ t.demods[2]? = some d') ∧
    (∃ t d', exec (.pwmP .vNone ⟨4, 8, 20⟩ 2 ⟨1, 2, 1, some 6⟩) stMods = .next t ∧ t.demods[2]? = some d') ∧
    (∃ t d', exec (.manch .vNone ⟨4, 8, 20⟩ 2 ⟨1, 9, 8, some 6⟩) stMods = .next t ∧ t.demods[2]? = some d') ∧
    (∃ t d', exec (.nextRow 2) stMods = .next t ∧ t.demods[2]? = some d') ∧
    (∃ t d', exec (.rowAdv 2 ⟨30, 39, 9, some 21⟩) stMods = .next t ∧ t.demods[2]? = some d') ∧
    (∃ t d', exec (.demod 2 ⟨30, 39, 9, some 21⟩) stMods = .next t ∧ t.demods[2]? = some d') :=
  ⟨by decide, by decide, by decide, by decide, ⟨_, _, rfl, rfl⟩, ⟨_, _, rfl, rfl⟩, ⟨_, _, rfl, rfl⟩, ⟨_, _, rfl, rfl⟩,
    ⟨_, _, rfl, rfl⟩, ⟨_, _, rfl, rfl⟩, ⟨_, _, rfl, rfl⟩⟩

/-- Two protocols with one descriptor, at a falling edge. -/
def stTwins : State :=
  { State.resetWith { cfg with descs := [⟨.pwmP, .vNone, ⟨2, 6, 20⟩⟩, ⟨.pwmP, .vNone, ⟨2, 6, 20⟩⟩] } with
    pulseOpen := true, idx := 3 }

theorem test_witness_IdenticalDescriptorsGiveIdenticalBuffers : 0 < stTwins.cfg.nProto ∧ 1 < stTwins.cfg.nProto ∧
    stTwins.cfg.descs[0]? = stTwins.cfg.descs[1]? ∧ stTwins.demods[0]? = stTwins.demods[1]? ∧
    ∃ t, step { stTwins with input := drive [0x10000] } = .next t := ⟨by decide, by decide, by decide, by decide, ⟨_, rfl⟩⟩

theorem test_witness_VNoneGivesNoVerdict : 1 < st0.cfg.nProto ∧ 1 < st0.demods.length := by decide

/-- The hypotheses that the verifier statements share, for protocol 0 holding the given rows. -/
abbrev held (c : Config) (rows : List (List Byte × Nat)) (avail : List Nat) : Prop :=
  0 < (withBuffer c rows).cfg.nProto ∧ (withBuffer c rows).demods[0]? = some (bufferOf c rows) ∧
  avail = (bufferOf c rows).avail c

/-- Byte `col` of row `r` of those rows. -/
abbrev byteOf (c : Config) (rows : List (List Byte × Nat)) (r col : Nat) : Byte := (bufferOf c rows).byte c r col

theorem test_witness_VRedVerdict_noRows : held (vcfg .vRed 3 4) [(redRow, 32)] [0] ∧
    [0].length < (vcfg .vRed 3 4).redMinRows := by decide
theorem test_witness_VRedVerdict_empty : held { vcfg .vRed 3 4 with redMinRows := 0 } [] [] := by decide
theorem test_witness_VRedVerdict_bounds : held (vcfg .vRed 3 2) [([0x5A], 8), ([0x5A], 8)] [0, 1] ∧
    (vcfg .vRed 3 2).redMinRows ≤ [0, 1].length ∧ (vcfg .vRed 3 2).bbCols ≤ ((vcfg .vRed 3 2).tempNib + 2) / 2 := by decide
theorem test_witness_VRedVerdict_column :
    held { vcfg .vRed 3 4 with redHdrCols := [4] } [([0x5A], 8), ([0x5A], 8)] [0, 1] ∧ 2 ≤ [0, 1].length ∧
    ∃ col ∈ [4], ({ vcfg .vRed 3 4 with redHdrCols := [4] } : Config).bbCols ≤ col := by decide
theorem test_witness_VRedVerdict_mismatch : held (vcfg .vRed 3 4) [(redRow, 32), ([0x5B], 8)] [0, 1] ∧
    (vcfg .vRed 3 4).redMinRows ≤ [0, 1].length ∧ (∀ col ∈ (vcfg .vRed 3 4).redHdrCols, col < (vcfg .vRed 3 4).bbCols) ∧
    ((vcfg .vRed 3 4).tempNib + 2) / 2 < (vcfg .vRed 3 4).bbCols ∧ [0, 1].head? = some 0 ∧
    ∃ col ∈ (vcfg .vRed 3 4).redHdrCols, ∃ r ∈ [0, 1],
      byteOf (vcfg .vRed 3 4) [(redRow, 32), ([0x5B], 8)] r col ≠ byteOf (vcfg .vRed 3 4) [(redRow, 32), ([0x5B], 8)] 0 col := by
  decide
theorem test_witness_VRedVerdict_accept : held (vcfg .vRed 3 4) [(redRow, 32), ([0x5A], 8)] [0, 1] ∧
    (vcfg .vRed 3 4).redMinRows ≤ [0, 1].length ∧ (∀ col ∈ (vcfg .vRed 3 4).redHdrCols, col < (vcfg .vRed 3 4).bbCols) ∧
    ((vcfg .vRed 3 4).tempNib + 2) / 2 < (vcfg .vRed 3 4).bbCols ∧ [0, 1].head? = some 0 ∧
    ∀ col ∈ (vcfg .vRed 3 4).redHdrCols, ∀ r ∈ [0, 1],
      byteOf (vcfg .vRed 3 4) [(redRow, 32), ([0x5A], 8)] r col = byteOf (vcfg .vRed 3 4) [(redRow, 32), ([0x5A], 8)] 0 col := by
  decide
-- with RED_MIN_ROWS = 0 as with its default
theorem test_witness_EmptyBufferIsRejectedWithNoRows : held { vcfg .vRed 3 4 with redMinRows := 0 } [] [] ∧
    ∀ r, r < (vcfg .vRed 3 4).bbRows → (bufferOf { vcfg .vRed 3 4 with redMinRows := 0 } []).rowBitsAt r = 0 := by decide
-- R128: "every verifier rejects it with NO_ROWS"
theorem test_empty_buffer : verdicts (exec (.vRed .pwmP ⟨2, 6, 20⟩ 0) (withBuffer { vcfg .vRed 3 4 with redMinRows := 0 } [])) =
    some [(false, .noRows, 0, .none)] := by decide

/-- A short vote, so that every column is looked at: no framed byte, one checksum byte (`NB = 1`). -/
def cfgVote : Config := { vcfg .vXor8 3 1 with xor8Start := 0, xor8NBytes := 0 }

theorem test_witness_RowVoteCombines_noRows : held cfgVote [([1], 8)] [0] ∧ ([0].take cfgVote.majRows).length < 2 := by decide
-- V-X14: 13 columns for a message of 14
theorem test_witness_RowVoteCombines_bounds : held (vcfg .vXor8 2 13) [(xorRow.take 13, 104), (xorRow.take 13, 104)] [0, 1] ∧
    2 ≤ ([0, 1].take (vcfg .vXor8 2 13).majRows).length ∧
    (vcfg .vXor8 2 13).bbCols < ((vcfg .vXor8 2 13).xor8Start + 9 * (vcfg .vXor8 2 13).xor8NBytes + 8 + 7) / 8 := by decide
-- three rows that differ pairwise; three of which only the last two agree
theorem test_witness_RowVoteCombines_mismatch : held cfgVote [([1], 8), ([2], 8), ([3], 8)] [0, 1, 2] ∧
    [0, 1, 2].take cfgVote.majRows = [0, 1, 2] ∧ (cfgVote.xor8Start + 9 * cfgVote.xor8NBytes + 8 + 7) / 8 = 1 ∧
    1 ≤ cfgVote.bbCols ∧ ∀ a b, a < b → b < 3 →
      byteOf cfgVote [([1], 8), ([2], 8), ([3], 8)] a 0 ≠ byteOf cfgVote [([1], 8), ([2], 8), ([3], 8)] b 0 :=
  ⟨by decide, by decide, by decide, by decide, fun a b h h' => by
    rcases b with _ | _ | _ | b <;> rcases a with _ | _ | a <;> first | omega | decide⟩
theorem test_witness_RowVoteCombines_agree : held cfgVote [([1], 8), ([2], 8), ([2], 8)] [0, 1, 2] ∧
    [0, 1, 2].take cfgVote.majRows = [0, 1, 2] ∧ (cfgVote.xor8Start + 9 * cfgVote.xor8NBytes + 8 + 7) / 8 ≤ cfgVote.bbCols ∧
    byteOf cfgVote [([1], 8), ([2], 8), ([2], 8)] 1 0 = byteOf cfgVote [([1], 8), ([2], 8), ([2], 8)] 2 0 := by decide

/-- One framed byte and its checksum: data `0x01` (stream `10000000`), stop bit, checksum. -/
def cfgXor : Config := { vcfg .vXor8 2 3 with xor8Start := 0, xor8NBytes := 1 }

/-- Two equal rows under it. -/
def stXor (row : List Byte) : State := withBuffer cfgXor [(row, 17), (row, 17)]

theorem test_witness_VXor8Verdict : 0 < cfgXor.nProto ∧ (stXor [0x80, 0xC0, 0x00]).demods[0]? = some (bufferOf cfgXor [([0x80, 0xC0, 0x00], 17), ([0x80, 0xC0, 0x00], 17)]) := by
  decide
theorem test_witness_VXor8Verdict_rejected : (after (exec (.rowVote 0) (withBuffer cfgXor []))).map (·.result) =
    some (some (.rejected .noRows)) := by decide
theorem test_witness_VXor8Verdict_framing : (after (exec (.rowVote 0) (stXor [0x80, 0x40, 0x00]))).map (·.result) =
      some (some (.comb [0x80, 0x40, 0x00])) ∧ streamBit [0x80, 0x40, 0x00] (0 + 9 * 0 + 8) = false := by decide
theorem test_witness_VXor8Verdict_checksum : (after (exec (.rowVote 0) (stXor [0x80, 0x80, 0x00]))).map (·.result) =
      some (some (.comb [0x80, 0x80, 0x00])) ∧ streamBit [0x80, 0x80, 0x00] (0 + 9 * 0 + 8) = true ∧
    (readBits [0x80, 0x80, 0x00] 8 9).value.setWidth 8 ≠ (readBits [0x80, 0x80, 0x00] 8 0).value.setWidth 8 := by decide
theorem test_witness_VXor8Verdict_accept : (after (exec (.rowVote 0) (stXor [0x80, 0xC0, 0x00]))).map (·.result) =
      some (some (.comb [0x80, 0xC0, 0x00])) ∧ streamBit [0x80, 0xC0, 0x00] (0 + 9 * 0 + 8) = true ∧
    (readBits [0x80, 0xC0, 0x00] 8 9).value.setWidth 8 = (readBits [0x80, 0xC0, 0x00] 8 0).value.setWidth 8 := by decide

/-- A type nibble, one or two further nibbles and the sum nibble, from bit 0: 14 bits with one further nibble. -/
def cfgNib (cols : Nat) : Config := { vcfg .vNibsum 2 cols with nibStart := 0, nibShortLen := 1, nibLongLen := 2 }

/-- The nibbles and the stop bits of a row, as the statement names them. -/
def nibOf (c : Config) (row : List Byte) (i : Nat) : BitVec 4 := (readBits row 4 (c.nibStart + 5 * i)).value.setWidth 4
def stopOf (c : Config) (row : List Byte) (i : Nat) : Bool := streamBit row (c.nibStart + 5 * i + 4)

/-- The hypotheses of the statement's second clause, for one row. -/
abbrev heldRow (c : Config) (row : List Byte) (bits n total : Nat) : Prop :=
  held c [(row, bits)] [0] ∧ row = (bufferOf c [(row, bits)]).rowBytes c 0 ∧
  n = (if (nibOf c row 0).toNat = c.nibLongType then c.nibLongLen else c.nibShortLen) ∧
  total = c.nibStart + 5 * (n + 1) + 4

/-- The bit count of that row. -/
abbrev bitsOf (c : Config) (row : List Byte) (bits : Nat) : Nat := (bufferOf c [(row, bits)]).rowBitsAt 0

theorem test_witness_VNibsumVerdict_noRows : held (cfgNib 2) [] [] := by decide
-- from bit 4 of a one-byte row there is no room for the type nibble and its stop bit
theorem test_witness_VNibsumVerdict_bounds : heldRow { cfgNib 1 with nibStart := 4 } [0x88] 8 1 18 ∧
    8 * (cfgNib 1).bbCols < 4 + 5 := by decide
-- 1000 0: the type nibble's stop bit is missing
theorem test_witness_VNibsumVerdict_typeStop : heldRow (cfgNib 2) [0x80, 0x00] 14 1 14 ∧ 0 + 5 ≤ 8 * (cfgNib 2).bbCols ∧
    stopOf (cfgNib 2) [0x80, 0x00] 0 = false := by decide
-- 1000 1 is type 1: 14 bits in all, which a row of 8 does not hold; 13 stored bits are one short of 14
theorem test_witness_VNibsumVerdict_total : heldRow (cfgNib 1) [0x88] 8 1 14 ∧ 0 + 5 ≤ 8 * (cfgNib 1).bbCols ∧
    stopOf (cfgNib 1) [0x88] 0 = true ∧ 8 * (cfgNib 1).bbCols < 14 := by decide
theorem test_witness_VNibsumVerdict_count : heldRow (cfgNib 2) [0x8C, 0x78] 13 1 14 ∧ 14 ≤ 8 * (cfgNib 2).bbCols ∧
    stopOf (cfgNib 2) [0x8C, 0x78] 0 = true ∧ bitsOf (cfgNib 2) [0x8C, 0x78] 13 < 14 := by decide
-- 10001 10000: the second stop bit is missing
theorem test_witness_VNibsumVerdict_stop : heldRow (cfgNib 2) [0x8C, 0x1C] 14 1 14 ∧ 14 ≤ bitsOf (cfgNib 2) [0x8C, 0x1C] 14 ∧
    stopOf (cfgNib 2) [0x8C, 0x1C] 0 = true ∧ stopOf (cfgNib 2) [0x8C, 0x1C] 1 = false := by decide
-- 10001 01001: 1 xor 2 is not 0
theorem test_witness_VNibsumVerdict_xor : heldRow (cfgNib 2) [0x8A, 0x5C] 14 1 14 ∧ 14 ≤ bitsOf (cfgNib 2) [0x8A, 0x5C] 14 ∧
    (∀ i, i ≤ 1 → stopOf (cfgNib 2) [0x8A, 0x5C] i = true) ∧
    ((List.range 2).map (nibOf (cfgNib 2) [0x8A, 0x5C])).foldl (· ^^^ ·) 0 ≠ 0 := by decide
-- 10001 10001: 1 xor 1 is 0; the sum nibble must be (2 + 5) mod 16 = 7, and is 0 or 7
theorem test_witness_VNibsumVerdict_sum : heldRow (cfgNib 2) [0x8C, 0x40] 14 1 14 ∧ 14 ≤ bitsOf (cfgNib 2) [0x8C, 0x40] 14 ∧
    (∀ i, i ≤ 1 → stopOf (cfgNib 2) [0x8C, 0x40] i = true) ∧
    ((List.range 2).map (nibOf (cfgNib 2) [0x8C, 0x40])).foldl (· ^^^ ·) 0 = 0 ∧
    (nibOf (cfgNib 2) [0x8C, 0x40] 2).toNat ≠
      (((List.range 2).map fun i => (nibOf (cfgNib 2) [0x8C, 0x40] i).toNat).sum + (cfgNib 2).nibSumConst) % 16 := by decide
theorem test_witness_VNibsumVerdict_accept : heldRow (cfgNib 2) [0x8C, 0x78] 14 1 14 ∧ 14 ≤ bitsOf (cfgNib 2) [0x8C, 0x78] 14 ∧
    (∀ i, i ≤ 1 → stopOf (cfgNib 2) [0x8C, 0x78] i = true) ∧
    ((List.range 2).map (nibOf (cfgNib 2) [0x8C, 0x78])).foldl (· ^^^ ·) 0 = 0 ∧
    (nibOf (cfgNib 2) [0x8C, 0x78] 2).toNat =
      (((List.range 2).map fun i => (nibOf (cfgNib 2) [0x8C, 0x78] i).toNat).sum + (cfgNib 2).nibSumConst) % 16 := by decide

theorem test_witness_WellFormedConfigurationNeverReportsBounds : Config.reference.wellFormed = true := by decide
theorem test_witness_VerdictDependsOnTheBufferAlone :
    let s := stDemod dLastBit
    let s' := { stDemod { dLastBit with mLast := 9, trunc := true } with idx := 7 }
    s.cfg = s'.cfg ∧ 0 < s.cfg.nProto ∧ s.demods[0]? = some dLastBit ∧
    s'.demods[0]? = some { dLastBit with mLast := 9, trunc := true } ∧
    (∀ a, dLastBit.bb.read a = ({ dLastBit with mLast := 9, trunc := true } : Demod).bb.read a) ∧
    dLastBit.rowBits = ({ dLastBit with mLast := 9, trunc := true } : Demod).rowBits :=
  ⟨rfl, by decide, rfl, rfl, fun _ => rfl, rfl⟩

-- the last width that is read and the first that is not; the last offset and the first past the end
theorem test_witness_RdbitsReadsTheFieldReversed : 16 < (17#5).toNat ∧ (16#5).toNat ≤ 16 ∧
    8 * [0xAB#8, 0xCD#8].length < (1#16).toNat + (16#5).toNat ∧ (0#16).toNat + (16#5).toNat ≤ 8 * [0xAB#8, 0xCD#8].length := by
  decide
theorem test_witness_ReaderRoundTrip : 16 ≤ 16 ∧ 0 + 16 ≤ 8 * [0xAB#8, 0xCD#8].length ∧ 4 + 12 = 16 := by decide
theorem test_witness_DirectAccessIsNotReversed : [0xAB#8, 0xCD#8][1]? = some 0xCD ∧ 7 < 8 ∧ 3 / 2 < [0xAB#8, 0xCD#8].length ∧ 3 < 4 := by
  decide
theorem test_witness_SextExtendsTheSign : (1 ≤ 1 ∧ 1 ≤ 16 ∧ (1#16).toNat < 2 ^ 1) ∧ (1 ≤ 16 ∧ 16 ≤ 16 ∧ (0xFFFF#16).toNat < 2 ^ 16) := by
  decide
theorem test_witness_NibReadsTheNibbleAsStored : [0xAB#8, 0xCD#8][2 / 2]? = some 0xCD ∧ 2 % 2 = 0 ∧ [0xAB#8, 0xCD#8][3 / 2]? = some 0xCD ∧
    3 % 2 ≠ 0 ∧ [0xAB#8, 0xCD#8].length ≤ 4 / 2 := by decide
theorem test_witness_OperandsThatDoNotExist : st0.cfg.nProto ≤ 2 ∧ ¬ (1 ≤ 0 ∧ 0 ≤ 16 ∧ (0#16).toNat < 2 ^ 0) ∧
    ¬ (1 ≤ 8 ∧ 8 ≤ 16 ∧ (0x100#16).toNat < 2 ^ 8) ∧ stFull.tbl.length = stFull.cfg.tblCap.toNat := by decide
theorem test_witness_NoInstructionChangesTheConfiguration : ∃ t, exec .fall stSigHigh = .next t := ⟨_, rfl⟩
theorem test_witness_OnlySampleAndResetWriteIdx : (∃ t, exec (.sample 0) stSigHigh = .next t) ∧ (∃ t, exec .rst stSig = .next t) ∧
    (∃ t, exec .eos stSig = .next t ∧ (∀ data, Instr.eos ≠ .sample data) ∧ Instr.eos ≠ .rst) :=
  ⟨⟨_, rfl⟩, ⟨_, rfl⟩, ⟨_, rfl, nofun, nofun⟩⟩
theorem test_witness_OnlyEosAndStopHalt : (∃ t, exec .eos stSig = .next t) ∧ (∃ t, exec .stop stSig = .next t) ∧
    (∃ t, exec .rst { stSig with halted := true } = .next t) ∧
    (∃ t, exec (.sample 0) stSig = .next t ∧ Instr.sample 0 ≠ .eos ∧ Instr.sample 0 ≠ .stop ∧ Instr.sample 0 ≠ .rst) :=
  ⟨⟨_, rfl⟩, ⟨_, rfl⟩, ⟨_, rfl⟩, ⟨_, rfl, nofun, nofun, nofun⟩⟩
theorem test_witness_StickyFlags : (∃ t, exec .rsv5 st0 = .next t ∧ t.badcmd = true ∧ st0.badcmd = false) ∧
    (∃ t, exec (.sample 0) stFull = .next t ∧ t.tblOvf = true ∧ stFull.tblOvf = false) ∧
    (∃ t, exec (.tblAbort 3) stSig = .next t) ∧ (∃ t, exec .rst { stSig with badcmd := true } = .next t) :=
  ⟨⟨_, rfl, by decide, by decide⟩, ⟨_, rfl, by decide, by decide⟩, ⟨_, rfl⟩, ⟨_, rfl⟩⟩
theorem test_witness_ResetHasTheInvariants : cfg.admissible = true := by decide

/-! ### The invariants, in a state with an open signal and a stored bit -/

/-- `stSig` with a bit stored for each protocol. -/
def stInv : State := { stSig with demods := [(Demod.reset 2).addBit cfg true, (Demod.reset 2).addBit cfg false] }

theorem test_stInv_Inv : stInv.Inv := by
  have hr : Demod.Inv cfg (Demod.reset 2) := (Demod.reset_empty cfg).inv
  refine ⟨by decide, nofun, fun _ => by decide, by decide, nofun, fun d hd => ?_,
    ⟨by decide, by decide, by decide, by decide, by decide, by decide⟩⟩
  simp only [stInv, List.mem_cons, List.not_mem_nil, or_false] at hd
  rcases hd with rfl | rfl
  · exact hr.addBit true
  · exact hr.addBit false

theorem test_stInv_GapInv : stInv.GapInv := ⟨nofun, fun _ => by decide⟩

theorem test_witness_StepKeepsTheInvariants : stInv.Inv ∧ ∃ t, step stInv = .next t := ⟨test_stInv_Inv, ⟨_, rfl⟩⟩
theorem test_witness_StepKeepsTheGapBounds : stInv.Inv ∧ stInv.GapInv ∧ stInv.cfg.quietWindow.toNat < 2 ^ stInv.cfg.idxW.val - 1 ∧
    ∃ t, step stInv = .next t := ⟨test_stInv_Inv, test_stInv_GapInv, by decide, ⟨_, rfl⟩⟩

end Sys2Proof.Tests
end

section
/-! PROOFS. The state after reset (R29) and the words that present the state and the configuration (R22). -/

namespace Sys2Proof.Machine

/-! ## Reset -/

/-- In an empty demodulator every byte of the buffer reads 0. -/
theorem Demod.Empty.byte {c : Config} {d : Demod} (h : Demod.Empty c d) (r col : Nat) : d.byte c r col = 0 := by
  rw [Demod.byte, h.bb, Memory.read_nil]

@[simp] theorem State.resetWith_demods (c : Config) :
    (State.resetWith c).demods = List.replicate c.nProto (Demod.reset c.bbRows) := rfl

/-- No flag is set after reset, whatever the configuration. -/
@[simp] theorem State.resetWith_st (c : Config) : (State.resetWith c).st = 0x0000#16 := by
  simp [State.st, State.resetWith]

/-- Settles O8: the elements outside the demodulators are `State.resetWith`'s fields; every demodulator is the reset
one, which is empty. -/
theorem resetValues : Obligations.ResetValues := by
  intro c
  refine ⟨rfl, rfl, rfl, rfl, rfl, rfl, rfl, rfl, rfl, rfl, State.resetWith_st c, rfl, ?_, fun d hd => ?_⟩
  · rw [State.resetWith_demods, List.length_replicate]
  · rw [State.resetWith_demods] at hd
    obtain rfl : d = Demod.reset c.bbRows := List.eq_of_mem_replicate hd
    have h := Demod.reset_empty c
    exact ⟨h.byte, h.row, h.col, h.bitpos, h.rowBits, h.trunc, h.mValid, rfl⟩

/-! ## The status word -/

/-- The bits of `ST` from bit 0 up; all others read as 0 (R22). -/
theorem State.st_getLsbD (s : State) (i : Nat) :
    s.st.getLsbD i = [s.pulseOpen, s.sigOpen, s.halted, s.tblOvf, s.badcmd].getD i false := by
  simp only [State.st, BitVec.getLsbD_append]
  rcases i with _ | _ | _ | _ | _ | i <;> simp

/-! ## The configuration words -/

/-- `CFG_LEVEL` is the whole field where the field holds a number of `SAMPLE_W` bits. -/
theorem State.cfgLevel_eq {s : State} (h : sampleValue s.cfg s.cfg.levelLimit = s.cfg.levelLimit.toInt) :
    s.cfgLevel = s.cfg.levelLimit := by
  rw [State.cfgLevel, h, BitVec.ofInt_toInt]

/-- `CFG_NPROTO` is `N_PROTO` where that fits 16 bits. -/
theorem State.cfgNProto_toNat {s : State} (h : s.cfg.nProto < 2 ^ 16) : s.cfgNProto.toNat = s.cfg.nProto := by
  rw [State.cfgNProto, BitVec.toNat_ofNat, Nat.mod_eq_of_lt h]

/-- `CFG_DESC[p]` is the descriptor's own word where its limits are numbers of `IDX_W` bits. -/
theorem State.cfgDesc_eq {s : State} {p : Nat} {d : Desc} (hd : s.cfg.descs[p]? = some d)
    (hfit : LimitsFit s.cfg d.limits) : s.cfgDesc p = some (encodeDesc d) := by
  rw [State.cfgDesc, hd, Option.map_some, wrapLimits_of_fits hfit]

/-- Settles O9: the status word by its bits, each configuration word by its own lemma. -/
theorem statusAndConfigurationWords : Obligations.StatusAndConfigurationWords := by
  intro s
  have hbit := s.st_getLsbD
  have hhigh : ∀ i, 5 ≤ i → s.st.getLsbD i = false := fun i hi => by
    rw [hbit, List.getD_eq_default _ _ hi]
  exact ⟨hbit 0, hbit 1, hbit 2, hbit 3, hbit 4, hhigh, State.resetWith_st s.cfg, State.cfgLevel_eq, rfl, rfl,
    State.cfgNProto_toNat, fun _ _ => State.cfgDesc_eq⟩

end Sys2Proof.Machine
end

section
/-! PROOFS. The command words (R61) and the operand of `SAMPLE` (R63). -/

namespace Sys2Proof.Machine

/-- R61's table: the command of a word with operation code `op`. -/
theorem decodeCmd_cmdWord (op : BitVec 3) (data : Sample) :
    decodeCmd (cmdWord op data) = [.idle, .sample data, .eos, .stop, .rst, .rsv5, .rsv6].getD op.toNat .rsv7 := by
  rw [decodeCmd, cmdOp_cmdWord, cmdData_cmdWord]
  rcases op.toNat with _ | _ | _ | _ | _ | _ | _ | _ <;> rfl

/-- R63 at R3's default `SAMPLE_W = 16`: the upper half of the `data` values are the negative numbers. -/
theorem sampleValue_eq_ite {c : Config} (h : c.sampleW = 16) (data : Sample) :
    sampleValue c data = if data.toNat < 2 ^ 15 then (data.toNat : Int) else (data.toNat : Int) - 2 ^ 16 := by
  rw [sampleValue_default h, BitVec.toInt_eq_toNat_cond]
  have hsign : 2 * data.toNat < 2 ^ 16 ↔ data.toNat < 2 ^ 15 := by omega
  simp only [hsign, Nat.cast_pow, Nat.cast_ofNat]

/-- Settles O3: one row of R61's table for each operation code, and the two's-complement reading of `data`. -/
theorem commandCodesAndTheSampleOperand : Obligations.CommandCodesAndTheSampleOperand := fun data =>
  have row (op : BitVec 3) := decodeCmd_cmdWord op data
  ⟨row 0b000#3, row 0b001#3, row 0b010#3, row 0b011#3, row 0b100#3, row 0b101#3, row 0b110#3, row 0b111#3,
    fun _ h => sampleValue_eq_ite h data⟩

end Sys2Proof.Machine
end

section
/-! PROOFS. The commands (R81 to R87). -/

namespace Sys2Proof.Machine

/-! ## What each command answers -/

theorem exec_sample_of_halted {s : State} (h : s.halted = true) (data : Sample) : exec (.sample data) s = .next s := by
  rw [exec, execSample, if_pos h]

theorem exec_sample_of_running {s : State} (h : s.halted = false) (data : Sample) :
    exec (.sample data) s = .next (s.takeSample data) := by
  rw [exec, execSample, if_neg (by simp [h])]

theorem exec_eos_of_halted {s : State} (h : s.halted = true) : exec .eos s = .next s := by
  rw [exec, execEos, if_pos h]

theorem exec_eos_of_running {s : State} (h : s.halted = false) : exec .eos s = .next s.endStream := by
  rw [exec, execEos, if_neg (by simp [h])]

theorem exec_stop_of_halted {s : State} (h : s.halted = true) : exec .stop s = .next s := by
  rw [exec, execStop, if_pos h]

theorem exec_stop_of_running {s : State} (h : s.halted = false) : exec .stop s = .next s.shutDown := by
  rw [exec, execStop, if_neg (by simp [h])]

/-! ## The sample -/

/-- At R3's default `SAMPLE_W = 16` the comparator compares the whole fields (R100). -/
theorem comparator_default {c : Config} (h : c.sampleW = 16) (data : Sample) :
    comparator c data = decide (c.levelLimit.toInt ≤ data.toInt) := by
  rw [comparator, sampleValue_default h, sampleValue_default h]

/-- The extractor's step is the operation that the edge word selects (R62, R113). -/
theorem exec_decodeEdge (hi pulseOpen : Bool) {s : State} (ho : s.pulseOpen = pulseOpen) :
    exec (decodeEdge (edgeWord hi pulseOpen)) s = .next (s.extractorStep hi) := by
  subst ho
  rcases s.extractorStep_cases hi with ⟨rfl, ho, e⟩ | ⟨rfl, ho, e⟩ | ⟨rfl, ho, e⟩ | ⟨rfl, ho, e⟩ <;> rw [ho, e] <;> rfl

/-- At R3's defaults a sample is the edge operation of its comparison, with `idx` advanced modulo `2^32` (R82). -/
theorem State.takeSample_default {s : State} (hs : s.cfg.sampleW = 16) (hw : s.cfg.idxW = 32) (data : Sample) :
    s.takeSample data =
      { s.extractorStep (decide (s.cfg.levelLimit.toInt ≤ data.toInt)) with idx := s.idx + 1 } := by
  rw [State.takeSample_eq, comparator_default hs, wrap_default hw]

/-- Settles O12: the state between is the extractor's step, which is the operation of the edge word. -/
theorem sampleRunsItsEdgeOperation : Obligations.SampleRunsItsEdgeOperation := by
  intro s data hi hs hw hhi
  refine ⟨fun hh => exec_sample_of_halted hh data, fun hh => ⟨s.extractorStep hi, ?rise, ?hold, ?fall, ?low, ?sample⟩⟩
  case rise => rintro rfl; exact exec_decodeEdge true false
  case hold => rintro rfl; exact exec_decodeEdge true true
  case fall => rintro rfl; exact exec_decodeEdge false true
  case low => rintro rfl; exact exec_decodeEdge false false
  case sample => rw [exec_sample_of_running hh, State.takeSample_default hs hw, hhi]

/-! ## `IDLE`, `RST` and the reserved operation codes -/

/-- Settles O10: `IDLE` answers the state it is given. -/
theorem idleChangesNothing : Obligations.IdleChangesNothing := fun _ => rfl

/-- Settles O11: `RST` answers `State.resetAll`, which is the reset state with the ports kept. -/
theorem resetCommandGivesTheResetState : Obligations.ResetCommandGivesTheResetState := fun _ => rfl

/-- Settles O15: each of the three raises R176's condition, whose recovery sets `badcmd`. -/
theorem reservedCommandsOnlySetBadcmd : Obligations.ReservedCommandsOnlySetBadcmd := fun _ => ⟨rfl, rfl, rfl⟩

/-! ## The end of a stream -/

theorem State.endStream_of_sigClosed {s : State} (h : s.sigOpen = false) :
    s.endStream = { s with pulseOpen := false, halted := true } := by
  simp [State.endStream, h]

theorem State.endStream_of_sigOpen {s : State} (h : s.sigOpen = true) :
    s.endStream = { ({ s with pulseOpen := false } : State).closeSignal s.idx with halted := true } := by
  simp [State.endStream, h]

/-- Settles O13: halted, no signal open, a signal open; the last closes the signal of the state without its pulse. -/
theorem eosClosesTheOpenSignalAndHalts : Obligations.EosClosesTheOpenSignalAndHalts := by
  refine fun s => ⟨exec_eos_of_halted, fun hh ho => ?_, fun hh ho => ?_⟩
  · rw [exec_eos_of_running hh, State.endStream_of_sigClosed ho]
  · refine ⟨({ s with pulseOpen := false } : State).closeSignal s.idx, rfl, ?_⟩
    rw [exec_eos_of_running hh, State.endStream_of_sigOpen ho]

/-- Settles O14: `State.shutDown` is `capture_clear` of the state without its pulse, every field given (R88, R129). -/
theorem stopDropsTheOpenSignalAndHalts : Obligations.StopDropsTheOpenSignalAndHalts :=
  fun _ => ⟨exec_stop_of_halted, exec_stop_of_running⟩

/-! ## While halted -/

/-- Settles O16: the halted case of each command; `RST` and the reserved operation codes do not look at `halted`. -/
theorem haltedBlockIgnoresCommands : Obligations.HaltedBlockIgnoresCommands := fun s data hh =>
  ⟨idleChangesNothing s, exec_sample_of_halted hh data, exec_eos_of_halted hh, exec_stop_of_halted hh,
    resetCommandGivesTheResetState s, reservedCommandsOnlySetBadcmd s⟩

end Sys2Proof.Machine
end

section
/-! PROOFS. The bitstream reader and the field helpers: `RDBITS` (R90 to R92), `SEXT` (R95) and `NIB` (R96). -/

namespace Sys2Proof.Machine

/-! ## `RDBITS` -/

/-- `RDBITS` writes its answer and nothing else. -/
theorem exec_rdbits (width : BitVec 5) (off : BitVec 16) (buf : List Byte) (s : State) :
    exec (.rdbits width off buf) s =
      .next { s with result := some (.response (readBits buf width.toNat off.toNat)) } := rfl

/-- Settles O48: the answer is that of `read_bits`, whose three cases are the three clauses. -/
theorem rdbitsReadsTheFieldReversed : Obligations.RdbitsReadsTheFieldReversed := by
  refine fun s width off buf => ⟨_, exec_rdbits width off buf s, readBits_width, readBits_bounds, fun hw hin => ⟨?_, ?_⟩⟩
  · rw [readBits_inside hw hin]
  · exact readBits_getLsbD hw hin

/-! ## `SEXT` -/

/-- `SEXT` writes its answer and nothing else. -/
theorem exec_sext (n : Nat) (v : BitVec 16) (s : State) :
    exec (.sext n v) s = .next { s with result := some (.sext (sextResult n v)) } := rfl

/-- The range R95 gives a sign extension: it is a two's-complement number of `n` bits. -/
theorem sextN_mem_range {n v : Nat} (hn : 1 ≤ n) (hv : v < 2 ^ n) :
    -(2 : Int) ^ (n - 1) ≤ sextN n v ∧ sextN n v < 2 ^ (n - 1) := by
  obtain ⟨m, rfl⟩ := Nat.exists_eq_add_of_le' hn
  have hv' : (v : Int) < 2 ^ m * 2 := by rw [← pow_succ]; exact_mod_cast hv
  rw [sextN, Nat.add_sub_cancel, pow_succ]
  cases hb : v.testBit m with
  | true =>
    have hlow : (2 : Int) ^ m ≤ v := by exact_mod_cast Nat.ge_two_pow_of_testBit hb
    rw [if_pos rfl]
    omega
  | false =>
    have hhigh : (v : Int) < 2 ^ m := by
      by_contra hle
      have hset := Nat.testBit_of_two_pow_le_and_two_pow_add_one_gt (by exact_mod_cast not_lt.mp hle) hv
      exact absurd hset (by rw [hb]; decide)
    rw [if_neg Bool.false_ne_true]
    omega

/-- In R95's operand range the 16-bit word that `SEXT` answers is the sign extension as a signed number. -/
theorem sextResult_toInt {n : Nat} {v : BitVec 16} (h1 : 1 ≤ n) (h16 : n ≤ 16) (hv : v.toNat < 2 ^ n) :
    (sextResult n v).toInt = sextN n v.toNat := by
  obtain ⟨hlo, hhi⟩ := sextN_mem_range h1 hv
  have hpow : (2 : Int) ^ (n - 1) ≤ 2 ^ 15 := pow_le_pow_right₀ (by decide) (by omega)
  rw [sextResult, if_pos ⟨h1, h16, hv⟩, BitVec.toInt_ofInt]
  exact Int.bmod_eq_of_le (by omega) (by omega)

/-- Settles O51: bit `n - 1` of the operand decides between the two values of `sextN`, and both fit 16 bits. -/
theorem sextExtendsTheSign : Obligations.SextExtendsTheSign :=
  fun s n v h1 h16 hv => ⟨_, exec_sext n v s, sextResult_toInt h1 h16 hv⟩

/-! ## `NIB` -/

/-- Inside the sequence `NIB` writes the nibble as its answer and nothing else. -/
theorem exec_nib {buf : List Byte} {j : Nat} (h : j / 2 < buf.length) (s : State) :
    exec (.nib buf j) s = .next { s with result := some (.nib (nibAt buf j)) } :=
  if_pos h

/-- R96 by the parity of `j`, in terms of the byte that holds the nibble. -/
theorem nibAt_eq {buf : List Byte} {j : Nat} {x : Byte} (hx : buf[j / 2]? = some x) :
    nibAt buf j = if j % 2 = 0 then x.extractLsb' 4 4 else x.extractLsb' 0 4 := by
  rw [nibAt, List.getD_eq_getElem?_getD, hx, Option.getD_some]

/-- Settles O52: the byte is inside the sequence, and the parity of `j` picks its half. -/
theorem nibReadsTheNibbleAsStored : Obligations.NibReadsTheNibbleAsStored := by
  intro s buf j x hx
  obtain ⟨hlt, -⟩ := List.getElem?_eq_some_iff.mp hx
  rw [exec_nib hlt, nibAt_eq hx]
  exact ⟨fun heven => by rw [if_pos heven], fun hodd => by rw [if_neg hodd]⟩

end Sys2Proof.Machine
end

section
/-! PROOFS. The pulse extractor (R101 to R109). -/

namespace Sys2Proof.Machine

/-! ## The edges that complete no pulse -/

/-- Settles O17: `State.risingEdge` writes the two fields, and `HOLD` answers the state it is given. -/
theorem riseOpensAPulseAndHoldKeepsIt : Obligations.RiseOpensAPulseAndHoldKeepsIt := fun _ => ⟨rfl, rfl⟩

theorem exec_low (s : State) : exec .low s = .next (s.quietCheck s.idx) := rfl

/-- At R3's default `IDX_W = 32` the quiet count is a plain difference of words (R107). -/
theorem exceedsQuiet_default {c : Config} (h : c.idxW = 32) (n lastEnd : Word) :
    exceedsQuiet c n lastEnd = decide (c.quietWindow.toNat < (n + 1 - lastEnd).toNat) := by
  rw [exceedsQuiet, wrap_default h]

theorem State.quietCheck_of_exceeds {n : Word} {s : State} (ho : s.sigOpen = true)
    (hq : exceedsQuiet s.cfg n s.lastEnd = true) : s.quietCheck n = s.closeSignal n := by
  rw [State.quietCheck, ho, hq]; rfl

theorem State.quietCheck_of_within {n : Word} {s : State} (hq : exceedsQuiet s.cfg n s.lastEnd = false) :
    s.quietCheck n = s := by
  rw [State.quietCheck, hq, Bool.and_false]; rfl

theorem State.quietCheck_of_sigClosed {s : State} (ho : s.sigOpen = false) (n : Word) : s.quietCheck n = s := by
  rw [State.quietCheck, ho]; rfl

/-- Settles O19: the quiet check's three cases, with the count compared at `IDX_W = 32`. -/
theorem lowRunsTheQuietCheck : Obligations.LowRunsTheQuietCheck := by
  intro s hw
  have hexceeds := exceedsQuiet_default hw s.idx s.lastEnd
  refine ⟨fun ho hlt => ⟨s.closeSignal s.idx, rfl, ?above⟩, fun _ hle => ?within, fun ho => ?closed⟩
  case above => rw [exec_low, State.quietCheck_of_exceeds ho (hexceeds.trans (decide_eq_true hlt))]
  case within => rw [exec_low, State.quietCheck_of_within (hexceeds.trans (decide_eq_false (by omega)))]
  case closed => rw [exec_low, State.quietCheck_of_sigClosed ho]

/-! ## The signal's boundary and the table -/

/-- Settles O20: `State.openSignal` writes the two fields and emits the one event. -/
theorem sigOpenOpensAtThePulsesStart : Obligations.SigOpenOpensAtThePulsesStart := fun _ _ => rfl

/-- Settles O22: the recovery from the overflow is the flag, the event and `capture_clear`, which clears every
demodulator (R88, R129, R173). -/
theorem tblAbortDiscardsTheSignal : Obligations.TblAbortDiscardsTheSignal := fun _ _ => rfl

theorem State.tblFull_eq_false {s : State} : s.tblFull = false ↔ s.tbl.length < s.cfg.tblCap.toNat := by
  rw [State.tblFull, decide_eq_false_iff_not, Nat.not_le]

theorem exec_tblAppend {s : State} (h : s.tbl.length < s.cfg.tblCap.toNat) (r : PulseRecord) :
    exec (.tblAppend r) s = .next (s.appendPulse r) := by
  rw [exec, execTblAppend, State.tblFull_eq_false.mpr h, if_neg Bool.false_ne_true]

/-- `DEMOD` replaces the demodulator of its protocol (R120). -/
theorem exec_demod {p : Nat} {s : State} {desc : Desc} {d : Demod} (hdesc : s.cfg.descs[p]? = some desc)
    (hd : s.demods[p]? = some d) (r : PulseRecord) :
    exec (.demod p r) s = .next (s.setDemod p (d.demodulate s.cfg desc r)) :=
  State.withProto_eq hdesc hd _

theorem State.setDemod_getElem? {p : Nat} {s : State} {d : Demod} (hd : s.demods[p]? = some d) (d' : Demod) :
    (s.setDemod p d').demods[p]? = some d' := by
  obtain ⟨hlt, -⟩ := List.getElem?_eq_some_iff.mp hd
  rw [State.setDemod_demods, List.getElem?_set_self hlt]

/-- Settles O21: the append's demodulators are those of `State.demodAll`, which at `p` holds what `DEMOD` of `p` alone
puts there. -/
theorem tblAppendStoresAndDemodulates : Obligations.TblAppendStoresAndDemodulates := by
  intro s r hroom hshape
  refine ⟨s.appendPulse r, exec_tblAppend hroom r, rfl, ?_, fun p hp => ?_⟩
  · rw [State.appendPulse_demods, State.demodAll_length]
  · obtain ⟨desc, d, hdesc, hd⟩ := State.proto_exists hp hshape
    refine ⟨_, exec_demod hdesc hd r, ?_⟩
    rw [State.appendPulse_demods, State.demodAll_getElem? hdesc hd, State.setDemod_getElem? hd]

/-! ## The close -/

/-- `BB_DONE` emits the completed buffer and its verdict, and writes nothing (R128). -/
theorem exec_bbDone {p : Nat} {s : State} {desc : Desc} {d : Demod} (hdesc : s.cfg.descs[p]? = some desc)
    (hd : s.demods[p]? = some d) : exec (.bbDone p) s = .next (s.emitAll (bbDoneEvents s.cfg p desc d)) :=
  State.withProto_eq hdesc hd _

/-- The share of protocol `p` in `State.doneEvents`. -/
def State.doneEventsOf (s : State) (p : Nat) : List Event :=
  match s.cfg.descs[p]?, s.demods[p]? with
  | some desc, some d => bbDoneEvents s.cfg p desc d
  | _, _ => []

theorem State.doneEvents_eq (s : State) : s.doneEvents = (List.range s.cfg.nProto).flatMap s.doneEventsOf := rfl

theorem exec_bbDone_eq_doneEventsOf {p : Nat} {s : State} (hp : p < s.cfg.nProto)
    (hshape : s.demods.length = s.cfg.nProto) : exec (.bbDone p) s = .next (s.emitAll (s.doneEventsOf p)) := by
  obtain ⟨desc, d, hdesc, hd⟩ := State.proto_exists hp hshape
  rw [exec_bbDone hdesc hd, State.doneEventsOf, hdesc, hd]

theorem exec_sigClose (n : Word) (s : State) : exec (.sigClose n) s =
    .next (s.emitAll (s.closedEvent n :: (List.range s.cfg.nProto).flatMap s.doneEventsOf)).captureClear := by
  rw [← State.doneEvents_eq]; rfl

/-- Settles O23: the events of protocol `p` are its share of `State.doneEvents`; the clear is `capture_clear`'s. -/
theorem sigCloseReportsAndClears : Obligations.SigCloseReportsAndClears :=
  fun s n hshape => ⟨s.doneEventsOf, fun _ hp => exec_bbDone_eq_doneEventsOf hp hshape, exec_sigClose n s⟩

/-! ## The falling edge -/

/-- At R3's default `IDX_W = 32` the length and the gap of the completed pulse are plain differences (R103, R104). -/
theorem State.fallRecord_default {s : State} (h : s.cfg.idxW = 32) :
    s.fallRecord = { start := s.pulseStart, stop := s.idx, length := s.idx - s.pulseStart
                     gap := if s.sigOpen then some (s.pulseStart - s.lastEnd) else none } := by
  rw [State.fallRecord, wrap_default h, wrap_default h]

theorem State.closePulse_of_sigOpen {s : State} (h : s.sigOpen = true) :
    s.closePulse = { s with pulseOpen := false } := by
  rw [State.closePulse, if_pos h]

theorem exec_sigOpen_eq_closePulse {s : State} (h : s.sigOpen = false) :
    exec (.sigOpen s.fallRecord) { s with pulseOpen := false } = .next s.closePulse := by
  rw [State.closePulse, h]; rfl

/-- With a full table the table step of `FALL` is `TBL_ABORT` (R103, R109). -/
theorem exec_tblAbort_eq_takePulse {s : State} (h : s.cfg.tblCap.toNat ≤ s.tbl.length) :
    exec (.tblAbort s.idx) s.closePulse = .next s.takePulse := by
  rcases s.takePulse_cases with ⟨-, htake⟩ | ⟨hroom, -⟩
  · rw [htake]; rfl
  · omega

/-- With room in the table the table step of `FALL` is `TBL_APPEND` (R103, R106). -/
theorem exec_tblAppend_eq_takePulse {s : State} (h : s.tbl.length < s.cfg.tblCap.toNat) :
    exec (.tblAppend s.fallRecord) s.closePulse = .next s.takePulse := by
  rcases s.takePulse_cases with ⟨hfull, -⟩ | ⟨-, htake⟩
  · omega
  · rw [htake, exec_tblAppend (by rwa [s.closePulse_tbl, s.closePulse_frame.cfg])]

/-- `FALL` ends with the quiet check of `LOW`: its table step leaves `idx` alone (R103, R107). -/
theorem exec_low_takePulse (s : State) : exec .low s.takePulse = .next s.fallingEdge := by
  rw [exec_low, s.takePulse_frame.idx, State.fallingEdge]

/-- Settles O18: the states between are `State.closePulse` and `State.takePulse`. -/
theorem fallCompletesThePulse : Obligations.FallCompletesThePulse := by
  intro s r hw hr hcap
  obtain rfl : r = s.fallRecord := hr.trans (State.fallRecord_default hw).symm
  refine ⟨s.closePulse, s.takePulse, s.fallingEdge, State.closePulse_of_sigOpen, exec_sigOpen_eq_closePulse,
    ?full, ?room, exec_low_takePulse s, rfl⟩ <;> rw [s.closePulse_tbl, s.closePulse_frame.cfg]
  case full => exact fun hfull => exec_tblAbort_eq_takePulse hfull.ge
  case room => exact fun hne => exec_tblAppend_eq_takePulse (Nat.lt_of_le_of_ne hcap hne)

end Sys2Proof.Machine
end

section
/-! PROOFS. The demodulator (R120 to R129). -/

namespace Sys2Proof.Machine

/-! ## What each operation answers

Each replaces its protocol's demodulator and nothing else. -/

theorem State.setDemod_setDemod (p : Nat) (d d' : Demod) (s : State) :
    (s.setDemod p d).setDemod p d' = s.setDemod p d' := by
  simp only [State.setDemod, List.set_set]

theorem State.emitAll_cons (e : Event) (es : List Event) (s : State) : s.emitAll (e :: es) = (s.emit e).emitAll es := by
  simp only [State.emitAll, State.emit, List.append_assoc, List.singleton_append]

theorem exec_rowAdv {p : Nat} {s : State} {desc : Desc} {d : Demod} (hdesc : s.cfg.descs[p]? = some desc)
    (hd : s.demods[p]? = some d) (r : PulseRecord) :
    exec (.rowAdv p r) s = .next (s.setDemod p (d.rowAdv s.cfg desc.limits r)) :=
  State.withProto_eq hdesc hd _

section
variable {p : Nat} {s : State} {d : Demod} (hp : p < s.cfg.nProto) (hd : s.demods[p]? = some d)
include hp hd

theorem exec_addBit (b : Bool) : exec (.addBit p b) s = .next (s.setDemod p (d.addBit s.cfg b)) :=
  State.withProto_eq (List.getElem?_eq_getElem hp) hd _

theorem exec_nextRow : exec (.nextRow p) s = .next (s.setDemod p (d.nextRow s.cfg)) :=
  State.withProto_eq (List.getElem?_eq_getElem hp) hd _

theorem exec_bbClear : exec (.bbClear p) s = .next (s.setDemod p (d.clear s.cfg)) :=
  State.withProto_eq (List.getElem?_eq_getElem hp) hd _

theorem exec_pwmD (v : VSel) (lim : Limits) (r : PulseRecord) :
    exec (.pwmD v lim p r) s = .next (s.setDemod p (d.pwmD s.cfg lim r)) :=
  State.withProto_eq (List.getElem?_eq_getElem hp) hd _

theorem exec_pwmP (v : VSel) (lim : Limits) (r : PulseRecord) :
    exec (.pwmP v lim p r) s = .next (s.setDemod p (d.pwmP s.cfg lim r)) :=
  State.withProto_eq (List.getElem?_eq_getElem hp) hd _

theorem exec_manch (v : VSel) (lim : Limits) (r : PulseRecord) :
    exec (.manch v lim p r) s = .next (s.setDemod p (d.manch s.cfg lim r)) :=
  State.withProto_eq (List.getElem?_eq_getElem hp) hd _

/-- The operation of a descriptor's modulation field (R65) is the modulation that `DEMOD` runs (R120). -/
theorem exec_modInstr (desc : Desc) (r : PulseRecord) :
    exec (desc.modInstr p r) s = .next (s.setDemod p (d.modulate s.cfg desc r)) := by
  rw [Desc.modInstr, Demod.modulate]
  cases desc.modulation with
  | pwmD => exact exec_pwmD hp hd _ _ _
  | pwmP => exact exec_pwmP hp hd _ _ _
  | manch => exact exec_manch hp hd _ _ _

/-- The operation of a descriptor's verifier field (R66) emits the verdict that `BB_DONE` emits (R128). -/
theorem exec_verInstr (desc : Desc) :
    exec (desc.verInstr p) s = .next (s.emitAll (verdictEvents s.cfg p desc.vsel d)) := by
  rw [Desc.verInstr]
  cases desc.vsel with
  | vNone => exact exec_verifier hp hd
  | vRed => exact exec_verifier hp hd
  | vXor8 => exact exec_verifier hp hd
  | vNibsum => exact exec_verifier hp hd

end

/-- Settles O26: `Demod.demodulate` is the composition; the row advance leaves the configuration alone. -/
theorem demodAdvancesThenModulates : Obligations.DemodAdvancesThenModulates := by
  intro s p r desc hdesc hlt
  obtain ⟨hp, -⟩ := List.getElem?_eq_some_iff.mp hdesc
  have hd := List.getElem?_eq_getElem hlt
  refine ⟨_, _, exec_rowAdv hdesc hd r, ?_, exec_demod hdesc hd r⟩
  refine (exec_modInstr (s := s.setDemod p _) hp (State.setDemod_getElem? hd _) desc r).trans ?_
  rw [State.setDemod_setDemod]
  rfl

/-! ## The bit store -/

/-- The store of R121 byte by byte: only a 1 changes a byte, and only the cursor's. -/
theorem Demod.storeBit_read (c : Config) {d : Demod} (hwf : d.bb.wf = true) (b : Bool) (a : Nat) :
    (d.storeBit c b).bb.read a =
      if a = bbAddr c d.row d.col ∧ b = true then d.bb.read a ||| 1#8 <<< d.bitpos.val else d.bb.read a := by
  cases b with
  | false => simp [Demod.storeBit]
  | true =>
    simp only [Demod.storeBit, Demod.orBit, Demod.byte, Memory.read_write hwf, and_true, if_true]
    by_cases ha : a = bbAddr c d.row d.col
    · rw [if_pos ha, if_pos ha, ha]
    · rw [if_neg ha, if_neg ha]

/-- After bit 0 of a byte the cursor is at the next column's first bit (R121). -/
theorem Demod.storeBit_cursor_of_zero (c : Config) {d : Demod} (h : d.bitpos.val = 0) (b : Bool) :
    (d.storeBit c b).bitpos = 7 ∧ (d.storeBit c b).col = d.col + 1 := by
  have hzero : d.bitpos = 0 := Fin.ext h
  exact ⟨if_pos hzero, if_pos hzero⟩

/-- Inside a byte the cursor moves one bit down (R121). -/
theorem Demod.storeBit_cursor_of_ne_zero (c : Config) {d : Demod} (h : d.bitpos.val ≠ 0) (b : Bool) :
    (d.storeBit c b).bitpos.val = d.bitpos.val - 1 ∧ (d.storeBit c b).col = d.col := by
  have hne : d.bitpos ≠ 0 := fun hzero => h (congrArg Fin.val hzero)
  exact ⟨congrArg Fin.val (if_neg hne), if_neg hne⟩

/-- Settles O27: a cursor in range is past the end exactly at the two bounds; otherwise `Demod.storeBit` stores. -/
theorem addBitStoresAtTheCursorOrTruncates : Obligations.AddBitStoresAtTheCursorOrTruncates := by
  intro s p b d hp hd hwf hrow hcol
  refine ⟨_, exec_addBit hp hd b, fun hend => ?full, fun hroom => ?room⟩
  case full => exact Demod.addBit_pastEnd (Demod.pastEnd_true.mpr (by omega)) b
  case room =>
    rw [Demod.addBit_room (Demod.pastEnd_false.mpr (by omega))]
    exact ⟨Demod.storeBit_read s.cfg hwf b, rfl, rfl, fun h => Demod.storeBit_cursor_of_zero s.cfg h b,
      fun h => Demod.storeBit_cursor_of_ne_zero s.cfg h b, rfl, rfl, rfl⟩

/-! ## The rows -/

/-- Settles O28: `Demod.nextRow` writes these three fields. -/
theorem nextRowAdvancesAndSaturates : Obligations.NextRowAdvancesAndSaturates := by
  rintro s p d _ hp hd rfl
  exact exec_nextRow hp hd

theorem Demod.rowAdv_of_gap {r : PulseRecord} {g : Word} (h : r.gap = some g) (c : Config) (lim : Limits) (d : Demod) :
    d.rowAdv c lim r = if exceedsReset c lim g then { d.nextRow c with mValid := false } else d := by
  rw [Demod.rowAdv, h]

theorem Demod.rowAdv_of_noGap {r : PulseRecord} (h : r.gap = none) (c : Config) (lim : Limits) (d : Demod) :
    d.rowAdv c lim r = d := by
  rw [Demod.rowAdv, h]

/-- A `RESET` of `IDX_W` bits is compared as the number in its field. -/
theorem exceedsReset_of_fits {c : Config} {lim : Limits} (h : Fits c lim.reset) (g : Word) :
    exceedsReset c lim g = decide (lim.reset.toNat < g.toNat) := by
  rw [exceedsReset, wrapLimits_reset, Nat.mod_eq_of_lt h]

/-- Settles O29: the gap's comparison with `RESET` decides; without a row advance the demodulator put back is the
one that was there. -/
theorem rowAdvFollowsTheResetLimit : Obligations.RowAdvFollowsTheResetLimit := by
  intro s p r desc d hdesc hd hfit
  rw [exec_rowAdv hdesc hd r]
  refine ⟨?above, fun g hg hle => ?within, fun hg => ?first⟩
  case above =>
    rintro g _ hg hlt rfl
    rw [Demod.rowAdv_of_gap hg, exceedsReset_of_fits hfit, if_pos (decide_eq_true hlt)]
    rfl
  case within =>
    rw [Demod.rowAdv_of_gap hg, exceedsReset_of_fits hfit, decide_eq_false (Nat.not_lt.mpr hle),
      if_neg Bool.false_ne_true, State.setDemod_self hd]
  case first => rw [Demod.rowAdv_of_noGap hg, State.setDemod_self hd]

/-! ## The midpoint test -/

/-- Limits of `IDX_W` bits are compared as the numbers in their fields (R72). -/
theorem isLong_of_fits {c : Config} {lim : Limits} (h : LimitsFit c lim) (x : Word) :
    isLong c lim x = decide (lim.short.toNat + lim.long.toNat ≤ 2 * x.toNat) := by
  rw [isLong, wrapLimits_of_fits h]

theorem Demod.pwmD_of_gap {r : PulseRecord} {g : Word} (h : r.gap = some g) (c : Config) (lim : Limits) (d : Demod) :
    d.pwmD c lim r = if exceedsReset c lim g then d
      else d.addBit c (if isLong c lim g then c.pwmdLongBit else !c.pwmdLongBit) := by
  rw [Demod.pwmD, h]

theorem Demod.pwmD_of_noGap {r : PulseRecord} (h : r.gap = none) (c : Config) (lim : Limits) (d : Demod) :
    d.pwmD c lim r = d := by
  rw [Demod.pwmD, h]

/-- `ADD_BIT` of the long bit or of its complement, as the midpoint test of `x` says (R124, R125). -/
theorem exec_addBit_midpoint {p : Nat} {s : State} {d : Demod} {lim : Limits} (hp : p < s.cfg.nProto)
    (hd : s.demods[p]? = some d) (hfit : LimitsFit s.cfg lim) (x : Word) (long : Bool) :
    (2 * x.toNat ≥ lim.short.toNat + lim.long.toNat →
      exec (.addBit p long) s =
        .next (s.setDemod p (d.addBit s.cfg (if isLong s.cfg lim x then long else !long)))) ∧
    (2 * x.toNat < lim.short.toNat + lim.long.toNat →
      exec (.addBit p (!long)) s =
        .next (s.setDemod p (d.addBit s.cfg (if isLong s.cfg lim x then long else !long)))) := by
  rw [isLong_of_fits hfit]
  refine ⟨fun hge => ?_, fun hlt => ?_⟩
  · rw [if_pos (decide_eq_true hge), exec_addBit hp hd]
  · rw [decide_eq_false (Nat.not_le.mpr hlt), if_neg Bool.false_ne_true, exec_addBit hp hd]

/-- Settles O30: `RESET` decides whether there is a bit and the midpoint test of the gap which one. -/
theorem pwmDStoresTheGapsBit : Obligations.PwmDStoresTheGapsBit := by
  intro s v lim p r hp hlt hfit
  have hd := List.getElem?_eq_getElem hlt
  have hreset := exceedsReset_of_fits hfit.2.2
  refine ⟨_, exec_pwmD hp hd v lim r, fun g hg hle => ?within, fun g hg habove => ?above, fun hg => ?first⟩
  case within =>
    rw [Demod.pwmD_of_gap hg, hreset, decide_eq_false (Nat.not_lt.mpr hle), if_neg Bool.false_ne_true]
    exact exec_addBit_midpoint hp hd hfit g s.cfg.pwmdLongBit
  case above => rw [Demod.pwmD_of_gap hg, hreset, if_pos (decide_eq_true habove), State.setDemod_self hd]
  case first => rw [Demod.pwmD_of_noGap hg, State.setDemod_self hd]

/-- Settles O31: the midpoint test of the pulse's length. -/
theorem pwmPStoresThePulsesBit : Obligations.PwmPStoresThePulsesBit := by
  intro s v lim p r hp hlt hfit
  have hd := List.getElem?_eq_getElem hlt
  exact ⟨_, exec_pwmP hp hd v lim r, exec_addBit_midpoint hp hd hfit r.length s.cfg.pwmpLongBit⟩

/-! ## The Manchester edges -/

/-- At R3's default `IDX_W = 32` the interval and the half-bit window are the plain words (R126). -/
theorem Demod.isDataEdge_default {c : Config} (h : c.idxW = 32) (lim : Limits) (t : Word) (d : Demod) :
    d.isDataEdge c lim t = true ↔ d.mValid = false ∨ 2 * (t - d.mLast).toNat > 3 * lim.short.toNat := by
  simp [Demod.isDataEdge, exceedsHalfBits, wrap_default h, wrapLimits_default h]

/-- One edge of a pulse: a data edge stores its bit as `ADD_BIT` does and is remembered, any other is ignored. -/
theorem manchEdge_stores_dataEdges {p : Nat} {s : State} {d : Demod} (hw : s.cfg.idxW = 32) (hp : p < s.cfg.nProto)
    (hd : s.demods[p]? = some d) (lim : Limits) (t : Word) (b : Bool) :
    ((d.mValid = false ∨ 2 * (t - d.mLast).toNat > 3 * lim.short.toNat) →
      ∃ e, exec (.addBit p b) s = .next (s.setDemod p e) ∧
        d.manchEdge s.cfg lim t b = { e with mLast := t, mValid := true }) ∧
    (¬ (d.mValid = false ∨ 2 * (t - d.mLast).toNat > 3 * lim.short.toNat) → d.manchEdge s.cfg lim t b = d) := by
  rw [← Demod.isDataEdge_default hw]
  exact ⟨fun hdata => ⟨_, exec_addBit hp hd b, if_pos hdata⟩, fun hother => if_neg hother⟩

/-- Settles O32: the two edges in order, the falling one in the state that the rising one left. -/
theorem manchStoresDataEdges : Obligations.ManchStoresDataEdges := by
  intro s v lim p r d hw hp hd
  obtain ⟨hrise, hriseOther⟩ := manchEdge_stores_dataEdges hw hp hd lim r.start s.cfg.manchRiseBit
  obtain ⟨hfall, hfallOther⟩ := manchEdge_stores_dataEdges (s := s.setDemod p _) hw hp
    (State.setDemod_getElem? hd (d.manchEdge s.cfg lim r.start s.cfg.manchRiseBit)) lim r.stop (!s.cfg.manchRiseBit)
  simp only [State.setDemod_setDemod] at hfall
  exact ⟨_, _, exec_manch hp hd v lim r, hrise, hriseOther, hfall, hfallOther⟩

/-! ## Completion and clear -/

/-- A buffer with no bit: every verifier's verdict is the reject with `NO_ROWS` (R128). -/
theorem verdictEvents_of_noBits {c : Config} {d : Demod} {v : VSel} (h : ∀ r, r < c.bbRows → d.rowBitsAt r = 0)
    (hv : v ≠ .vNone) (p : Nat) :
    verdictEvents c p v d = [.verdict (Verdict.ofJudgement p v (.reject .noRows 0))] := by
  rw [verdictEvents, verify_empty (Demod.avail_empty h) hv]

/-- Settles O33: `bbDoneEvents` is the `BitBufferDone` event and then what the selected verifier emits. -/
theorem bbDoneReportsAndVerifies : Obligations.BbDoneReportsAndVerifies := by
  rintro s _ pw desc d done rfl hdesc hd rfl
  obtain ⟨hp, -⟩ := List.getElem?_eq_some_iff.mp hdesc
  have hpw : BitVec.ofNat 16 pw.toNat = pw := (BitVec.ofNat_toNat 16 pw).trans (BitVec.setWidth_eq pw)
  refine ⟨bbDoneEvents s.cfg pw.toNat desc d, exec_bbDone hdesc hd, ?verifies, fun hempty hv => ?noBits⟩
  case verifies =>
    refine (exec_verInstr (s := s.emit _) hp hd desc).trans ?_
    rw [← State.emitAll_cons, bbDoneEvents, hpw]
    rfl
  case noBits =>
    rw [bbDoneEvents, hpw, verdictEvents_of_noBits hempty hv, Verdict.ofJudgement, hpw]
    rfl

/-- Settles O34: `Demod.clear` leaves an empty demodulator and does not write `m_last`. -/
theorem bbClearEmptiesTheBuffer : Obligations.BbClearEmptiesTheBuffer := by
  intro s p d hp hd
  have hempty := Demod.clear_empty s.cfg d
  exact ⟨_, exec_bbClear hp hd, hempty.byte, hempty.row, hempty.col, hempty.bitpos, hempty.rowBits, hempty.trunc,
    hempty.mValid, rfl⟩

end Sys2Proof.Machine
end

section
/-! PROOFS. The verifiers (R142 to R151). -/

namespace Sys2Proof.Machine

/-! ## The available rows -/

theorem Demod.mem_avail {c : Config} {d : Demod} {r : Nat} : r ∈ d.avail c ↔ r < c.bbRows ∧ 0 < d.rowBitsAt r := by
  rw [Demod.avail, List.mem_filter, List.mem_range, decide_eq_true_eq]

theorem Demod.avail_ascending (c : Config) (d : Demod) : (d.avail c).Pairwise (· < ·) :=
  List.pairwise_lt_range.filter _

/-- Settles O38: the filter keeps the rows with a bit and the order of the row numbers. -/
theorem availableRowsHoldABit : Obligations.AvailableRowsHoldABit :=
  fun c d => ⟨fun _ => Demod.mem_avail, d.avail_ascending c⟩

/-! ## What each verifier answers -/

section
variable {s : State} {p : Nat} {d : Demod} (hp : p < s.cfg.nProto) (hd : s.demods[p]? = some d) (m : Modulation)
  (lim : Limits)
include hp hd

theorem exec_vNone : exec (.vNone m lim p) s = .next s := by
  refine (exec_verifier (v := .vNone) hp hd).trans ?_
  rw [verdictEvents, verify, List.append_nil]

theorem exec_vRed : exec (.vRed m lim p) s =
    .next { s with events := s.events ++ [.verdict (Verdict.ofJudgement p .vRed (checkRed s.cfg d).judge)] } :=
  exec_verifier (v := .vRed) hp hd

theorem exec_vXor8 : exec (.vXor8 m lim p) s =
    .next { s with events := s.events ++ [.verdict (Verdict.ofJudgement p .vXor8 (checkXor8 s.cfg d).judge)] } :=
  exec_verifier (v := .vXor8) hp hd

theorem exec_vNibsum : exec (.vNibsum m lim p) s =
    .next { s with events := s.events ++ [.verdict (Verdict.ofJudgement p .vNibsum (checkNibsum s.cfg d).judge)] } :=
  exec_verifier (v := .vNibsum) hp hd

end

/-- Settles O40: no verdict, so no event is appended. -/
theorem vNoneGivesNoVerdict : Obligations.VNoneGivesNoVerdict :=
  fun _ m lim _ hp hlt => exec_vNone hp (List.getElem?_eq_getElem hlt) m lim

/-! ## One check after another -/

theorem require_pass {α : Type} {cond : Bool} (h : cond = true) (code : Reason) (info : Nat) (k : Unit → Check α) :
    (require cond code info >>= k) = k () := by
  rw [h, require_true, Check.ok_bind]

theorem require_fail {α : Type} {cond : Bool} (h : cond = false) (code : Reason) (info : Nat) (k : Unit → Check α) :
    (require cond code info >>= k) = .error (code, info) := by
  rw [h, require_false, Check.error_bind]

/-! ## `V_RED` -/

theorem redAgree_iff {c : Config} {d : Demod} {a : Nat} {rows : List Nat} :
    redAgree c d a rows = true ↔ ∀ col ∈ c.redHdrCols, ∀ r ∈ rows, d.byte c r col = d.byte c a col := by
  simp only [redAgree, List.all_eq_true, beq_iff_eq]

/-- The columns that `V_RED` reads are those of the header and those of the field's three nibbles (R144 step 2). -/
theorem redColumnsInside_iff {c : Config} :
    (c.redHdrCols.all (fun col => decide (col < c.bbCols)) && decide ((c.tempNib + 2) / 2 < c.bbCols)) = true ↔
      (∀ col ∈ c.redHdrCols, col < c.bbCols) ∧ (c.tempNib + 2) / 2 < c.bbCols := by
  simp only [Bool.and_eq_true, List.all_eq_true, decide_eq_true_eq]

theorem checkRed_of_fewRows {c : Config} {d : Demod} (h : (d.avail c).length < c.redMinRows ∨ d.avail c = []) :
    checkRed c d = .error (.noRows, 0) := by
  rw [checkRed]
  cases havail : d.avail c with
  | nil => rfl
  | cons a rest =>
    have hfew : (a :: rest).length < c.redMinRows := by simpa [havail] using h
    exact require_fail (decide_eq_false (Nat.not_le.mpr hfew)) _ _ _

section
variable {c : Config} {d : Demod} {a : Nat} (ha : (d.avail c).head? = some a)
  (hmin : c.redMinRows ≤ (d.avail c).length)
include ha hmin

/-- With enough rows the bounds of the columns come next (R144 step 2). -/
theorem checkRed_of_enoughRows : checkRed c d = (do
    require (c.redHdrCols.all (fun col => decide (col < c.bbCols)) && decide ((c.tempNib + 2) / 2 < c.bbCols)) .bounds 0
    require (redAgree c d a (d.avail c)) .rowMismatch 0
    .ok (.field (redValue (redField12 c (d.rowBytes c a))))) := by
  obtain ⟨rest, havail⟩ := List.head?_eq_some_iff.mp ha
  rw [havail] at hmin ⊢
  rw [checkRed, havail]
  exact require_pass (decide_eq_true hmin) _ _ _

theorem checkRed_of_outside
    (hout : (∃ col ∈ c.redHdrCols, c.bbCols ≤ col) ∨ c.bbCols ≤ (c.tempNib + 2) / 2) :
    checkRed c d = .error (.bounds, 0) := by
  rw [checkRed_of_enoughRows ha hmin]
  refine require_fail (Bool.eq_false_iff.mpr fun hinside => ?_) _ _ _
  obtain ⟨hcols, hfield⟩ := redColumnsInside_iff.mp hinside
  rcases hout with ⟨col, hcol, hle⟩ | hle
  · exact Nat.not_lt.mpr hle (hcols col hcol)
  · exact Nat.not_lt.mpr hle hfield

variable (hcols : ∀ col ∈ c.redHdrCols, col < c.bbCols) (hfield : (c.tempNib + 2) / 2 < c.bbCols)
include hcols hfield

/-- With every column inside the rows the header columns are compared (R144 step 3). -/
theorem checkRed_of_inside : checkRed c d = (do
    require (redAgree c d a (d.avail c)) .rowMismatch 0
    .ok (.field (redValue (redField12 c (d.rowBytes c a))))) := by
  rw [checkRed_of_enoughRows ha hmin]
  exact require_pass (redColumnsInside_iff.mpr ⟨hcols, hfield⟩) _ _ _

theorem checkRed_of_mismatch
    (hne : ∃ col ∈ c.redHdrCols, ∃ r ∈ d.avail c, d.byte c r col ≠ d.byte c a col) :
    checkRed c d = .error (.rowMismatch, 0) := by
  obtain ⟨col, hcol, r, hr, hne⟩ := hne
  rw [checkRed_of_inside ha hmin hcols hfield]
  exact require_fail (Bool.eq_false_iff.mpr fun hagree => hne (redAgree_iff.mp hagree col hcol r hr)) _ _ _

theorem checkRed_of_agree (heq : ∀ col ∈ c.redHdrCols, ∀ r ∈ d.avail c, d.byte c r col = d.byte c a col) :
    checkRed c d = .ok (.field ((redField12 c (d.rowBytes c a)).signExtend 16)) := by
  rw [checkRed_of_inside ha hmin hcols hfield, require_pass (redAgree_iff.mpr heq), redValue_eq]

end

/-- Settles O41: one clause for each check of `checkRed`, in its order. -/
theorem vRedVerdict : Obligations.VRedVerdict := by
  rintro s m lim p d _ hp hd rfl
  refine ⟨_, exec_vRed hp hd m lim, fun hfew => ?fewRows, fun hne hmin => ⟨fun hout => ?outside,
    fun hcols hfield a ha => ⟨fun hdiffer => ?mismatch, fun hagree => ⟨_, ?agree, rfl⟩⟩⟩⟩
  case fewRows => rw [checkRed_of_fewRows hfew, Check.judge_error]
  case outside => rw [checkRed_of_outside (List.head?_eq_some_head hne) hmin hout, Check.judge_error]
  case mismatch => rw [checkRed_of_mismatch ha hmin hcols hfield hdiffer, Check.judge_error]
  case agree => rw [checkRed_of_agree ha hmin hcols hfield hagree, Check.judge_ok, redField12]

/-! ## `ROW_VOTE` -/

theorem voteAnswer_of_error {c : Config} {d : Demod} {code : Reason} {info : Nat}
    (h : checkVote c d = .error (code, info)) : voteAnswer c d = .rejected code := by
  rw [voteAnswer, h]

theorem voteAnswer_of_ok {c : Config} {d : Demod} {comb : List Byte} (h : checkVote c d = .ok comb) :
    voteAnswer c d = .comb comb := by
  rw [voteAnswer, h]

/-- `x` is the byte that the first agreeing pair of the rows `vs`, in the pair order, holds in column `col` (R145
step 3). -/
def HeldByFirstPair (c : Config) (d : Demod) (vs : List Nat) (col : Nat) (x : Option Byte) : Prop :=
  ∃ i j a b : Nat, i < j ∧ vs[i]? = some a ∧ vs[j]? = some b ∧
    d.byte c a col = d.byte c b col ∧ x = some (d.byte c a col) ∧
    ∀ (i' j' a' b' : Nat), i' < j' → (i' < i ∨ (i' = i ∧ j' < j)) → vs[i']? = some a' → vs[j']? = some b' →
      d.byte c a' col ≠ d.byte c b' col

theorem voteByte_heldByFirstPair {c : Config} {d : Demod} {vs : List Nat} {col : Nat}
    (h : voteByte c d vs col ≠ none) : HeldByFirstPair c d vs col (voteByte c d vs col) := by
  rw [voteByte] at h ⊢
  cases hfind : (rowPairs vs).find? (fun ij => d.byte c ij.1 col == d.byte c ij.2 col) with
  | none => exact absurd (by rw [hfind, Option.map_none]) h
  | some ab =>
    obtain ⟨i, j, hij, ha, hb, hagree, hfirst⟩ := find_rowPairs hfind
    exact ⟨i, j, ab.1, ab.2, hij, ha, hb, beq_iff_eq.mp hagree, rfl, fun i' j' a' b' hij' hlt ha' hb' =>
      beq_eq_false_iff_ne.mp (hfirst i' j' a' b' hij' hlt ha' hb')⟩

theorem mapM_range_getElem? {α : Type} {f : Nat → Option α} {n : Nat} {r : List α}
    (h : (List.range n).mapM f = some r) {i : Nat} (hi : i < n) : r[i]? = f i := by
  obtain ⟨y, hf, hr⟩ := (mapM_option_some h).2 i i (List.getElem?_range hi)
  rw [hr, hf]

section
variable {c : Config} {d : Demod} {vs : List Nat} (hvs : vs = (d.avail c).take c.majRows) (htwo : 2 ≤ vs.length)
  (hcols : voteCols c ≤ c.bbCols)
include hvs htwo hcols

theorem checkVote_of_mismatch {col : Nat} (hcol : col < voteCols c) (hnone : voteByte c d vs col = none) :
    checkVote c d = .error (.rowMismatch, 0) := by
  subst hvs
  rw [vote_cases.2.2 htwo hcols, mapM_option_none.mpr ⟨col, List.mem_range.mpr hcol, hnone⟩]

/-- Where every column has an agreeing pair the combined buffer holds the votes of the columns. -/
theorem checkVote_of_agree (hsome : ∀ col, col < voteCols c → voteByte c d vs col ≠ none) :
    ∃ comb, checkVote c d = .ok comb ∧ ∀ col, col < voteCols c → comb[col]? = voteByte c d vs col := by
  subst hvs
  have hne : (List.range (voteCols c)).mapM (voteByte c d ((d.avail c).take c.majRows)) ≠ none := fun hnone => by
    obtain ⟨col, hcol, hbyte⟩ := mapM_option_none.mp hnone
    exact hsome col (List.mem_range.mp hcol) hbyte
  obtain ⟨comb, hcomb⟩ := Option.ne_none_iff_exists'.mp hne
  refine ⟨comb, ?_, fun col hcol => mapM_range_getElem? hcomb hcol⟩
  rw [vote_cases.2.2 htwo hcols, hcomb]

end

/-- Settles O43: one clause for each check of `checkVote`, and the vote of every column of the combined buffer. -/
theorem rowVoteCombines : Obligations.RowVoteCombines := by
  rintro s p d vs _ hp hd hvs rfl
  refine ⟨_, exec_vote hp hd, fun hfew => ?fewRows, fun htwo hout => ?outside, fun htwo hcols =>
    ⟨fun ⟨col, hcol, hnone⟩ => ?mismatch, fun hpairs => ?agree⟩⟩
  case fewRows => exact voteAnswer_of_error (vote_cases.1 (hvs ▸ hfew))
  case outside => exact voteAnswer_of_error (vote_cases.2.1 (hvs ▸ htwo) hout)
  case mismatch => exact voteAnswer_of_error (checkVote_of_mismatch hvs htwo hcols hcol (voteByte_none.mpr hnone))
  case agree =>
    have hsome : ∀ col, col < voteCols s.cfg → voteByte s.cfg d vs col ≠ none := fun col hcol hnone => by
      obtain ⟨i, j, a, b, hij, ha, hb, hagree⟩ := hpairs col hcol
      exact voteByte_none.mp hnone i j a b hij ha hb hagree
    obtain ⟨comb, hcomb, hbyte⟩ := checkVote_of_agree hvs htwo hcols hsome
    refine ⟨comb, voteAnswer_of_ok hcomb, vote_length hcomb, fun col hcol => ?_⟩
    rw [hbyte col hcol]
    exact voteByte_heldByFirstPair (hsome col hcol)

/-! ## `V_XOR8` -/

theorem checkVote_of_rejected {c : Config} {d : Demod} {code : Reason} (h : voteAnswer c d = .rejected code) :
    checkVote c d = .error (code, 0) := by
  rw [voteAnswer] at h
  cases hvote : checkVote c d with
  | ok comb => rw [hvote] at h; cases h
  | error e =>
    obtain ⟨code', info⟩ := e
    obtain rfl : info = 0 := vote_error hvote
    rw [hvote] at h
    cases h
    rfl

theorem checkVote_of_comb {c : Config} {d : Demod} {comb : List Byte} (h : voteAnswer c d = .comb comb) :
    checkVote c d = .ok comb := by
  rw [voteAnswer] at h
  cases hvote : checkVote c d with
  | ok comb' => rw [hvote] at h; cases h; rfl
  | error e => rw [hvote] at h; cases h

/-- Byte `i` of a message of `V_XOR8` (R147): a data byte `d[i]`, or the checksum byte for `i = XOR8_NBYTES`. -/
def xorByte (c : Config) (comb : List Byte) (i : Nat) : Byte :=
  (readBits comb 8 (c.xor8Start + 9 * i)).value.setWidth 8

theorem checkXor8_of_voteError {c : Config} {d : Demod} {e : Reason × Nat} (h : checkVote c d = .error e) :
    checkXor8 c d = .error e := by
  rw [checkXor8, h, Check.error_bind]

section
variable {c : Config} {d : Demod} {comb : List Byte} (hvote : checkVote c d = .ok comb)
include hvote

/-- The combined buffer holds the whole message (R145 step 2). -/
theorem vote_holds_message : c.xor8Start + 9 * c.xor8NBytes + 8 ≤ 8 * comb.length := by
  rw [vote_length hvote, voteCols]
  omega

theorem checkXor8_of_missingStop {i : Nat} (hi : i < c.xor8NBytes)
    (hbad : streamBit comb (c.xor8Start + 9 * i + 8) = false)
    (hfirst : ∀ k, k < i → streamBit comb (c.xor8Start + 9 * k + 8) = true) :
    checkXor8 c d = .error (.framingStop, i) := by
  have hin := vote_holds_message hvote
  rw [checkXor8, hvote, Check.ok_bind, readItems_error (by decide) _ 0 _ i (by omega) hi hbad hfirst, Check.error_bind,
    Nat.zero_add]

variable (hstops : ∀ i, i < c.xor8NBytes → streamBit comb (c.xor8Start + 9 * i + 8) = true)
include hstops

/-- With every stop bit in place only the checksum is left (R147 step 5). -/
theorem checkXor8_of_stops : checkXor8 c d = (do
    require (xorByte c comb c.xor8NBytes == ((List.range c.xor8NBytes).map (xorByte c comb)).foldl (· ^^^ ·) 0)
      .checksumXor 0
    .ok (.bytes ((List.range c.xor8NBytes).map (xorByte c comb)))) := by
  have hin := vote_holds_message hvote
  rw [checkXor8, hvote, Check.ok_bind, readItems_ok (by decide) _ 0 _ (by omega) hstops, Check.ok_bind,
    readField_inside (by decide) (by omega), Check.ok_bind, xorAll_eq, List.map_map]
  rfl

theorem checkXor8_of_badChecksum
    (hne : xorByte c comb c.xor8NBytes ≠ ((List.range c.xor8NBytes).map (xorByte c comb)).foldl (· ^^^ ·) 0) :
    checkXor8 c d = .error (.checksumXor, 0) := by
  rw [checkXor8_of_stops hvote hstops, require_fail (beq_eq_false_iff_ne.mpr hne)]

theorem checkXor8_of_checksum
    (heq : xorByte c comb c.xor8NBytes = ((List.range c.xor8NBytes).map (xorByte c comb)).foldl (· ^^^ ·) 0) :
    checkXor8 c d = .ok (.bytes ((List.range c.xor8NBytes).map (xorByte c comb))) := by
  rw [checkXor8_of_stops hvote hstops, require_pass (beq_iff_eq.mpr heq)]

end

/-- Settles O44: the answer of `ROW_VOTE` is the vote inside `checkXor8`, whose checks on the combined buffer follow. -/
theorem vXor8Verdict : Obligations.VXor8Verdict := by
  intro s m lim p d hp hd
  refine ⟨_, _, exec_vote hp hd, exec_vXor8 hp hd m lim, fun code hcode => ?rejected,
    fun comb data ck hcomb hdata hck => ?voted⟩
  case rejected => rw [checkXor8_of_voteError (checkVote_of_rejected hcode), Check.judge_error]
  case voted =>
    obtain rfl : data = xorByte s.cfg comb := funext hdata
    obtain rfl : ck = xorByte s.cfg comb s.cfg.xor8NBytes := hck
    have hvote := checkVote_of_comb hcomb
    refine ⟨fun i hi hbad hfirst => ?missing, fun hstops => ⟨fun hne => ?differ, fun heq => ?accept⟩⟩
    case missing => rw [checkXor8_of_missingStop hvote hi hbad hfirst, Check.judge_error]
    case differ => rw [checkXor8_of_badChecksum hvote hstops hne, Check.judge_error]
    case accept => rw [checkXor8_of_checksum hvote hstops heq, Check.judge_ok]

end Sys2Proof.Machine
end

section
/-! PROOFS. `V_NIBSUM` (R148): its checks in three stages, each with its rejects and what it leaves for the next. -/

namespace Sys2Proof.Machine

/-! ## The nibbles of a message -/

/-- Nibble `i` of a message of `V_NIBSUM` (R148): the type nibble for `i = 0`, the sum nibble after the last of the
further ones. -/
def msgNibble (c : Config) (row : List Byte) (i : Nat) : BitVec 4 :=
  (readBits row 4 (c.nibStart + 5 * i)).value.setWidth 4

/-- Nibbles as `read_bits` answers them, in 16 bits (R71). -/
def widenNibbles (nibs : List (BitVec 4)) : List (BitVec 16) := nibs.map (·.setWidth 16)

/-- A value of four bits is its low nibble. -/
theorem setWidth_setWidth_of_lt {v : BitVec 16} (h : v.toNat < 2 ^ 4) : (v.setWidth 4).setWidth 16 = v := by
  apply BitVec.eq_of_toNat_eq
  rw [BitVec.toNat_setWidth, BitVec.toNat_setWidth, Nat.mod_eq_of_lt h, Nat.mod_eq_of_lt v.isLt]

theorem widenNibbles_map_setWidth (nibs : List (BitVec 4)) : (widenNibbles nibs).map (·.setWidth 4) = nibs := by
  rw [widenNibbles, List.map_map]
  refine (List.map_congr_left fun x _ => ?_).trans (List.map_id nibs)
  exact BitVec.setWidth_setWidth_of_le x (by decide)

/-- The 8-bit XOR of nibbles is their 4-bit XOR. -/
theorem xorAll_widenNibbles (nibs : List (BitVec 4)) :
    xorAll (widenNibbles nibs) = (nibs.foldl (· ^^^ ·) 0).setWidth 8 := by
  suffices hfrom : ∀ x : BitVec 4, (widenNibbles nibs).foldl (fun x v => x ^^^ v.setWidth 8) (x.setWidth 8) =
      (nibs.foldl (· ^^^ ·) x).setWidth 8 from hfrom 0
  induction nibs with
  | nil => exact fun _ => rfl
  | cons y ys ih =>
    intro x
    rw [List.foldl_cons, ← ih (x ^^^ y), BitVec.setWidth_xor, widenNibbles, List.map_cons, List.foldl_cons,
      BitVec.setWidth_setWidth_of_le y (by decide)]
    rfl

theorem xorAll_widenNibbles_eq_zero {nibs : List (BitVec 4)} :
    xorAll (widenNibbles nibs) = 0 ↔ nibs.foldl (· ^^^ ·) 0 = 0 := by
  rw [xorAll_widenNibbles]
  generalize nibs.foldl (· ^^^ ·) 0 = x
  exact ⟨fun h => by bv_omega, fun h => by rw [h]; rfl⟩

/-- The 8-bit sum of nibbles is their sum modulo 256. -/
theorem sumAll_widenNibbles_toNat (nibs : List (BitVec 4)) :
    (sumAll (widenNibbles nibs)).toNat = (nibs.map BitVec.toNat).sum % 256 := by
  suffices hfrom : ∀ x : Byte, ((widenNibbles nibs).foldl (fun x v => x + v.setWidth 8) x).toNat =
      (x.toNat + (nibs.map BitVec.toNat).sum) % 256 by
    rw [sumAll, hfrom]
    exact congrArg (· % 256) (Nat.zero_add _)
  induction nibs with
  | nil => exact fun x => (Nat.mod_eq_of_lt x.isLt).symm
  | cons y ys ih =>
    intro x
    have hy := y.isLt
    refine (ih _).trans ?_
    rw [List.map_cons, List.sum_cons, BitVec.toNat_add, BitVec.toNat_setWidth, BitVec.toNat_setWidth]
    omega

/-! ## Reading them -/

section
variable {c : Config} {row : List Byte}

theorem readBits_msgNibble {i : Nat} (hin : c.nibStart + 5 * i + 4 ≤ 8 * row.length) :
    (readBits row 4 (c.nibStart + 5 * i)).value = (msgNibble c row i).setWidth 16 := by
  refine (setWidth_setWidth_of_lt ?_).symm
  rw [readBits_toNat (by decide) hin]
  exact readLoop_lt row 4 _

/-- The type nibble, when the row holds it and its stop bit. -/
theorem readItem_typeNibble (hin : c.nibStart + 5 ≤ 8 * row.length) :
    readItem row 4 0 c.nibStart =
      if streamBit row (c.nibStart + 4) then .ok ((msgNibble c row 0).setWidth 16) else .error (.framingStop, 0) := by
  rw [readItem_inside (by decide) hin, ← readBits_msgNibble (i := 0) (by omega)]
  rfl

/-- Item `k` of the further nibbles is nibble `k + 1` of the message. -/
theorem furtherNibble_offset (c : Config) (k : Nat) :
    c.nibStart + 5 + (4 + 1) * k = c.nibStart + 5 * (k + 1) := by
  omega

variable {n : Nat} (hin : c.nibStart + 5 * (n + 1) ≤ 8 * row.length)
include hin

/-- The further nibbles, up to the first missing stop bit. -/
theorem readItems_furtherNibbles_error {k : Nat} (hk : k < n)
    (hbad : streamBit row (c.nibStart + 5 * (k + 1) + 4) = false)
    (hfirst : ∀ i, i < k + 1 → streamBit row (c.nibStart + 5 * i + 4) = true) :
    readItems row 4 n 1 (c.nibStart + 5) = .error (.framingStop, k + 1) := by
  rw [readItems_error (by decide) n 1 _ k (by omega) hk (by rwa [furtherNibble_offset])
    fun i hi => by rw [furtherNibble_offset]; exact hfirst (i + 1) (by omega), Nat.add_comm]

/-- The further nibbles, with all their stop bits. -/
theorem readItems_furtherNibbles (hstops : ∀ i, i ≤ n → streamBit row (c.nibStart + 5 * i + 4) = true) :
    readItems row 4 n 1 (c.nibStart + 5) =
      .ok (widenNibbles ((List.range n).map fun k => msgNibble c row (k + 1))) := by
  rw [readItems_ok (by decide) n 1 _ (by omega)
    fun k hk => by rw [furtherNibble_offset]; exact hstops (k + 1) hk, widenNibbles, List.map_map]
  refine congrArg _ (List.map_congr_left fun k hk => ?_)
  have hlt := List.mem_range.mp hk
  rw [furtherNibble_offset, readBits_msgNibble (by omega)]
  rfl

end

/-- The type nibble before the further ones: the nibbles of the message in order. -/
theorem cons_furtherNibbles (c : Config) (row : List Byte) (n : Nat) :
    (msgNibble c row 0).setWidth 16 :: widenNibbles ((List.range n).map fun k => msgNibble c row (k + 1)) =
      widenNibbles ((List.range (n + 1)).map (msgNibble c row)) := by
  rw [List.range_succ_eq_map, List.map_cons, List.map_map]
  rfl

/-! ## The stages of `V_NIBSUM` -/

/-- The sums over the nibbles read (R148 steps 7 to 9). -/
def checkNibsumSums (c : Config) (row : List Byte) (n : Nat) (items : List (BitVec 16)) : Check Payload := do
  require (xorAll items == 0) .checksumXor 0
  let sr ← readField row 4 (c.nibStart + 5 * (n + 1))
  require (decide (sr.toNat = ((sumAll items).toNat + c.nibSumConst) % 16)) .checksumSum 0
  .ok (.nibbles (items.map (·.setWidth 4)))

/-- What follows the type nibble: the length of the message and its further nibbles (R148 steps 4 to 6), then the
sums. -/
def checkNibsumLength (c : Config) (d : Demod) (a : Nat) (dec0 : BitVec 16) : Check Payload := do
  require (decide (nibTotal c (nibCount c dec0) ≤ 8 * c.bbCols)) .bounds 0
  require (decide (nibTotal c (nibCount c dec0) ≤ d.rowBitsAt a)) .framingCount 0
  let rest ← readItems (d.rowBytes c a) 4 (nibCount c dec0) 1 (c.nibStart + 5)
  checkNibsumSums c (d.rowBytes c a) (nibCount c dec0) (dec0 :: rest)

theorem checkNibsumRow_eq (c : Config) (d : Demod) (a : Nat) : checkNibsumRow c d a = (do
    require (decide (c.nibStart + 5 ≤ 8 * c.bbCols)) .bounds 0
    let dec0 ← readItem (d.rowBytes c a) 4 0 c.nibStart
    checkNibsumLength c d a dec0) := rfl

theorem checkNibsum_of_noRow {c : Config} {d : Demod} (h : d.avail c = []) : checkNibsum c d = .error (.noRows, 0) := by
  rw [checkNibsum, h]

theorem checkNibsum_of_head {c : Config} {d : Demod} {a : Nat} (ha : (d.avail c).head? = some a) :
    checkNibsum c d = checkNibsumRow c d a := by
  obtain ⟨rest, havail⟩ := List.head?_eq_some_iff.mp ha
  rw [checkNibsum, havail]

theorem Demod.rowBytes_length (c : Config) (d : Demod) (r : Nat) : (d.rowBytes c r).length = c.bbCols := by
  rw [Demod.rowBytes, List.length_map, List.length_range]

/-! ## The type nibble -/

section
variable {c : Config} {d : Demod} {a : Nat}

theorem checkNibsumRow_of_outside (h : 8 * c.bbCols < c.nibStart + 5) : checkNibsumRow c d a = .error (.bounds, 0) := by
  rw [checkNibsumRow_eq, require_fail (decide_eq_false (Nat.not_le.mpr h))]

variable (hin : c.nibStart + 5 ≤ 8 * c.bbCols)
include hin

theorem checkNibsumRow_of_inside : checkNibsumRow c d a =
    ((if streamBit (d.rowBytes c a) (c.nibStart + 4) then .ok ((msgNibble c (d.rowBytes c a) 0).setWidth 16)
      else .error (.framingStop, 0)) >>= checkNibsumLength c d a) := by
  rw [checkNibsumRow_eq, require_pass (decide_eq_true hin), readItem_typeNibble (by rwa [Demod.rowBytes_length])]

theorem checkNibsumRow_of_missingStop (hbad : streamBit (d.rowBytes c a) (c.nibStart + 4) = false) :
    checkNibsumRow c d a = .error (.framingStop, 0) := by
  rw [checkNibsumRow_of_inside hin, if_neg (Bool.eq_false_iff.mp hbad), Check.error_bind]

theorem checkNibsumRow_of_stop (hstop : streamBit (d.rowBytes c a) (c.nibStart + 4) = true) :
    checkNibsumRow c d a = checkNibsumLength c d a ((msgNibble c (d.rowBytes c a) 0).setWidth 16) := by
  rw [checkNibsumRow_of_inside hin, if_pos hstop, Check.ok_bind]

end

/-! ## The length and the further nibbles -/

theorem nibCount_eq (c : Config) (x : BitVec 4) :
    nibCount c (x.setWidth 16) = if x.toNat = c.nibLongType then c.nibLongLen else c.nibShortLen := by
  rw [nibCount, BitVec.toNat_setWidth_of_le (by decide)]

/-- A row as long as the message holds all its nibbles, the sum nibble included. -/
theorem row_holds_message {c : Config} {n : Nat} (hin : nibTotal c n ≤ 8 * c.bbCols) (d : Demod) (a : Nat) :
    c.nibStart + 5 * (n + 1) + 4 ≤ 8 * (d.rowBytes c a).length := by
  rw [Demod.rowBytes_length]
  exact hin

section
variable {c : Config} {d : Demod} {a n : Nat} {dec0 : BitVec 16} (hn : n = nibCount c dec0)
include hn

theorem checkNibsumLength_of_outside (h : 8 * c.bbCols < nibTotal c n) :
    checkNibsumLength c d a dec0 = .error (.bounds, 0) := by
  rw [checkNibsumLength, ← hn, require_fail (decide_eq_false (Nat.not_le.mpr h))]

variable (hin : nibTotal c n ≤ 8 * c.bbCols)
include hin

theorem checkNibsumLength_of_fewBits (h : d.rowBitsAt a < nibTotal c n) :
    checkNibsumLength c d a dec0 = .error (.framingCount, 0) := by
  rw [checkNibsumLength, ← hn, require_pass (decide_eq_true hin), require_fail (decide_eq_false (Nat.not_le.mpr h))]

variable (hheld : nibTotal c n ≤ d.rowBitsAt a)
include hheld

theorem checkNibsumLength_of_held : checkNibsumLength c d a dec0 =
    (readItems (d.rowBytes c a) 4 n 1 (c.nibStart + 5) >>= fun rest =>
      checkNibsumSums c (d.rowBytes c a) n (dec0 :: rest)) := by
  rw [checkNibsumLength, ← hn, require_pass (decide_eq_true hin), require_pass (decide_eq_true hheld)]

theorem checkNibsumLength_of_missingStop {k : Nat} (hk : k < n)
    (hbad : streamBit (d.rowBytes c a) (c.nibStart + 5 * (k + 1) + 4) = false)
    (hfirst : ∀ i, i < k + 1 → streamBit (d.rowBytes c a) (c.nibStart + 5 * i + 4) = true) :
    checkNibsumLength c d a dec0 = .error (.framingStop, k + 1) := by
  have hrow := row_holds_message hin d a
  rw [checkNibsumLength_of_held hn hin hheld, readItems_furtherNibbles_error (by omega) hk hbad hfirst,
    Check.error_bind]

theorem checkNibsumLength_of_stops (hdec0 : dec0 = (msgNibble c (d.rowBytes c a) 0).setWidth 16)
    (hstops : ∀ i, i ≤ n → streamBit (d.rowBytes c a) (c.nibStart + 5 * i + 4) = true) :
    checkNibsumLength c d a dec0 = checkNibsumSums c (d.rowBytes c a) n
      (widenNibbles ((List.range (n + 1)).map (msgNibble c (d.rowBytes c a)))) := by
  have hrow := row_holds_message hin d a
  rw [checkNibsumLength_of_held hn hin hheld, readItems_furtherNibbles (by omega) hstops, Check.ok_bind, hdec0,
    cons_furtherNibbles]

end

/-! ## The sums -/

section
variable {c : Config} {row : List Byte} {n : Nat} {nibs : List (BitVec 4)}

theorem checkNibsumSums_of_badXor (hne : nibs.foldl (· ^^^ ·) 0 ≠ 0) :
    checkNibsumSums c row n (widenNibbles nibs) = .error (.checksumXor, 0) :=
  require_fail (beq_eq_false_iff_ne.mpr (mt xorAll_widenNibbles_eq_zero.mp hne)) _ _ _

/-- The sum is compared modulo 16, which the running sum's 8 bits do not change. -/
theorem checkNibsumSums_of_xor (hxor : nibs.foldl (· ^^^ ·) 0 = 0)
    (hin : c.nibStart + 5 * (n + 1) + 4 ≤ 8 * row.length) : checkNibsumSums c row n (widenNibbles nibs) = (do
      require (decide ((msgNibble c row (n + 1)).toNat = ((nibs.map BitVec.toNat).sum + c.nibSumConst) % 16))
        .checksumSum 0
      .ok (.nibbles nibs)) := by
  have hmod : ((nibs.map BitVec.toNat).sum % 256 + c.nibSumConst) % 16 =
      ((nibs.map BitVec.toNat).sum + c.nibSumConst) % 16 := by omega
  rw [checkNibsumSums, require_pass (beq_iff_eq.mpr (xorAll_widenNibbles_eq_zero.mpr hxor)),
    readField_inside (by decide) hin, Check.ok_bind, readBits_msgNibble hin, BitVec.toNat_setWidth_of_le (by decide),
    sumAll_widenNibbles_toNat, hmod, widenNibbles_map_setWidth]

end

/-- Settles O45: the stages in order; a missing stop bit is the type nibble's or one of the further nibbles'. -/
theorem vNibsumVerdict : Obligations.VNibsumVerdict := by
  intro s m lim p d hp hd
  refine ⟨_, exec_vNibsum hp hd m lim, fun hnone => ?noRows, ?row⟩
  case noRows => rw [checkNibsum_of_noRow hnone, Check.judge_error]
  case row =>
    rintro a n _ _ nib stop ha rfl hnib hstop hn rfl
    obtain rfl : nib = msgNibble s.cfg (d.rowBytes s.cfg a) := funext hnib
    rw [← nibCount_eq] at hn
    simp only [hstop]
    rw [checkNibsum_of_head ha]
    refine ⟨fun hout => ?short, fun htype => ⟨fun hbad => ?typeStop, fun hstop0 => ?rest⟩⟩
    case short => rw [checkNibsumRow_of_outside hout, Check.judge_error]
    case typeStop => rw [checkNibsumRow_of_missingStop htype hbad, Check.judge_error]
    case rest =>
      rw [checkNibsumRow_of_stop htype hstop0]
      refine ⟨fun hout => ?total, fun hin => ⟨fun hfew => ?count, fun hheld =>
        ⟨fun i hi hbad hfirst => ?stop, fun hstops => ?sums⟩⟩⟩
      case total => rw [checkNibsumLength_of_outside hn hout, Check.judge_error]
      case count => rw [checkNibsumLength_of_fewBits hn hin hfew, Check.judge_error]
      case stop =>
        cases i with
        | zero => exact absurd hstop0 (Bool.eq_false_iff.mp hbad)
        | succ k => rw [checkNibsumLength_of_missingStop hn hin hheld hi hbad hfirst, Check.judge_error]
      case sums =>
        rw [checkNibsumLength_of_stops hn hin hheld rfl hstops]
        refine ⟨fun hne => ?badXor, fun hxor => ?xor⟩
        case badXor => rw [checkNibsumSums_of_badXor hne, Check.judge_error]
        case xor =>
          rw [checkNibsumSums_of_xor hxor (row_holds_message hin d a), List.map_map, Function.comp_def]
          exact ⟨fun hne => by rw [require_fail (decide_eq_false hne), Check.judge_error],
            fun heq => by rw [require_pass (decide_eq_true heq), Check.judge_ok]⟩

end Sys2Proof.Machine
end

section
/-! PROOFS. The invariants of the state (R28): they hold after reset, and every step keeps them. -/

namespace Sys2Proof.Machine

/-! ## The empty capture -/

/-- A state with an empty capture meets the invariants when its indexes have `IDX_W` bits and no pulse is open while
it is halted (R28 (a)). -/
theorem State.inv_of_captureEmpty {s : State} (hprotos : s.demods.length = s.cfg.nProto) (hsig : s.sigOpen = false)
    (htbl : s.tbl = []) (hempty : ∀ d ∈ s.demods, Demod.Empty s.cfg d)
    (hhalted : s.halted = true → s.pulseOpen = false) (hidx : s.IndexInv) : s.Inv where
  protos := hprotos
  closed _ := ⟨htbl, hempty⟩
  openTbl ho := by rw [hsig] at ho; cases ho
  lengths e he := by rw [htbl] at he; cases he
  stopped hh := ⟨hhalted hh, hsig⟩
  demod d hd := (hempty d hd).inv
  indexes := hidx

theorem State.gapInv_of_captureEmpty {s : State} (hsig : s.sigOpen = false) (htbl : s.tbl = []) : s.GapInv where
  gaps g hg := by rw [htbl] at hg; cases hg
  quiet ho := by rw [hsig] at ho; cases ho

theorem fits_zero (c : Config) : Fits c 0 := Nat.two_pow_pos _

theorem State.resetWith_inv (c : Config) : (State.resetWith c).Inv := by
  have hreset : ∀ d ∈ (State.resetWith c).demods, d = Demod.reset c.bbRows := fun d hd => List.eq_of_mem_replicate hd
  refine State.inv_of_captureEmpty List.length_replicate rfl rfl (fun d hd => ?_) (fun _ => rfl) ?_
  · rw [hreset d hd]
    exact Demod.reset_empty c
  · have hzero := fits_zero c
    exact ⟨hzero, hzero, hzero, hzero, nofun, fun d hd => (hreset d hd).symm ▸ hzero⟩

/-- Settles O58: every demodulator is the empty one, every index 0, and no signal is open. -/
theorem resetHasTheInvariants : Obligations.ResetHasTheInvariants :=
  fun c _ => ⟨State.resetWith_inv c, State.gapInv_of_captureEmpty rfl rfl⟩

/-- Clearing the capture keeps the indexes: `m_last` is not written (R129). -/
theorem State.IndexInv.captureClear {s : State} (h : s.IndexInv) : s.captureClear.IndexInv := by
  refine { h with tbl := nofun, mLast := fun d hd => ?_ }
  obtain ⟨d', hd', rfl⟩ := List.mem_map.mp hd
  exact h.mLast d' hd'

/-- After `capture_clear` the invariants need no more than the indexes and R28 (e) for the pulse (R88). -/
theorem State.captureClear_inv {s : State} (hprotos : s.demods.length = s.cfg.nProto)
    (hhalted : s.halted = true → s.pulseOpen = false) (hidx : s.IndexInv) : s.captureClear.Inv := by
  refine State.inv_of_captureEmpty ?_ rfl rfl (fun d hd => ?_) hhalted hidx.captureClear
  · rw [State.captureClear_demods, List.length_map]
    exact hprotos
  · obtain ⟨d', -, rfl⟩ := List.mem_map.mp hd
    exact Demod.clear_empty s.cfg d'

/-! ## The operations that leave the capture alone -/

section
variable {s : State}

/-- No invariant speaks of the ports (log entries 3 and 4). -/
theorem State.Inv.withPorts (h : s.Inv) (input : List Pins) (events : List Event) (result : Option OpResult) :
    State.Inv { s with input := input, events := events, result := result } :=
  { h with indexes := { h.indexes with } }

theorem State.Inv.withBadcmd (h : s.Inv) (b : Bool) : State.Inv { s with badcmd := b } :=
  { h with indexes := { h.indexes with } }

theorem State.Inv.withoutPulse (h : s.Inv) : State.Inv { s with pulseOpen := false } :=
  { h with
    stopped := fun hh => ⟨rfl, (h.stopped hh).2⟩
    indexes := { h.indexes with } }

/-- Halting with no pulse and no signal open (R28 (e)). -/
theorem State.Inv.halt (h : s.Inv) (hpulse : s.pulseOpen = false) (hsig : s.sigOpen = false) :
    State.Inv { s with halted := true } :=
  { h with
    stopped := fun _ => ⟨hpulse, hsig⟩
    indexes := { h.indexes with } }

theorem State.Inv.advance (h : s.Inv) : s.advance.Inv :=
  { h with indexes := { h.indexes with idx := wrap_fits s.cfg _ } }

theorem State.Inv.risingEdge (h : s.Inv) (hrun : s.halted = false) : s.risingEdge.Inv :=
  { h with
    stopped := fun hh => absurd hh (Bool.eq_false_iff.mp hrun)
    indexes := { h.indexes with pulseStart := h.indexes.idx } }

/-! ## The operations that end a signal -/

theorem State.Inv.closeSignal (h : s.Inv) (n : Word) : (s.closeSignal n).Inv :=
  State.captureClear_inv (s := s.emitAll (s.closedEvent n :: s.doneEvents)) h.protos (fun hh => (h.stopped hh).1)
    (h.withPorts s.input _ s.result).indexes

theorem State.Inv.quietCheck (h : s.Inv) (n : Word) : (s.quietCheck n).Inv := by
  rcases s.quietCheck_cases n with ⟨-, -, e⟩ | ⟨-, e⟩ <;> rw [e]
  · exact h.closeSignal n
  · exact h

theorem State.Inv.endStream (h : s.Inv) : s.endStream.Inv := by
  cases ho : s.sigOpen with
  | false => rw [State.endStream_of_sigClosed ho]; exact h.withoutPulse.halt rfl ho
  | true => rw [State.endStream_of_sigOpen ho]; exact (h.withoutPulse.closeSignal s.idx).halt rfl rfl

theorem State.Inv.shutDown (h : s.Inv) : s.shutDown.Inv :=
  (State.captureClear_inv h.withoutPulse.protos (fun _ => rfl) h.withoutPulse.indexes).halt rfl rfl

/-! ## The falling edge -/

/-- The indexes of a completed pulse: the bounds it was held open for, and their difference (R103, R104). -/
theorem State.IndexInv.fallRecord (h : s.IndexInv) :
    Fits s.cfg s.fallRecord.start ∧ Fits s.cfg s.fallRecord.stop ∧ Fits s.cfg s.fallRecord.length :=
  ⟨h.pulseStart, h.idx, wrap_fits s.cfg _⟩

theorem State.IndexInv.closePulse (h : s.IndexInv) : s.closePulse.IndexInv := by
  rcases s.closePulse_cases with ⟨-, e⟩ | ⟨-, e⟩ <;> rw [e]
  · exact { h with }
  · exact { h with sigStart := h.pulseStart }

/-- After a pulse `m_last` is an old data edge or one of the pulse's own (R126). -/
theorem State.IndexInv.appendPulse (h : s.IndexInv) {r : PulseRecord}
    (hr : Fits s.cfg r.start ∧ Fits s.cfg r.stop ∧ Fits s.cfg r.length) : (s.appendPulse r).IndexInv := by
  refine { h with lastEnd := hr.2.1, tbl := fun e he => ?tbl, mLast := fun d' hd' => ?mLast }
  case tbl =>
    rcases List.mem_append.mp he with he | he
    · exact h.tbl e he
    · rw [List.mem_singleton.mp he]
      exact hr
  case mLast =>
    obtain ⟨d, hd, rfl | ⟨desc, rfl⟩⟩ := State.mem_demodAll hd'
    · exact h.mLast d' hd
    · rcases d.demodulate_mLast s.cfg desc r with e | e | e
      · exact e.symm ▸ h.mLast d hd
      · exact e.symm ▸ hr.1
      · exact e.symm ▸ hr.2.1

theorem State.closePulse_pulseOpen (s : State) : s.closePulse.pulseOpen = false := by
  rcases s.closePulse_cases with ⟨-, e⟩ | ⟨-, e⟩ <;> rw [e]; rfl

theorem State.closePulse_sigOpen (s : State) : s.closePulse.sigOpen = true := by
  rcases s.closePulse_cases with ⟨ho, e⟩ | ⟨-, e⟩ <;> rw [e]
  · exact ho
  · rfl

theorem State.closePulse_demods (s : State) : s.closePulse.demods = s.demods := by
  rcases s.closePulse_cases with ⟨-, e⟩ | ⟨-, e⟩ <;> rw [e]; rfl

/-- The first pulse of the table starts where the signal starts, the appended one included (R28 (b), R105). -/
theorem State.Inv.head_append_fallRecord (h : s.Inv) :
    (s.tbl ++ [s.fallRecord.event]).head?.map (·.start) = some s.closePulse.sigStart := by
  rcases s.closePulse_cases with ⟨ho, e⟩ | ⟨ho, e⟩ <;> rw [e]
  · obtain ⟨hlen, -, hhead, -⟩ := h.openTbl ho
    rw [List.head?_append_of_ne_nil _ (List.ne_nil_of_length_pos hlen)]
    exact hhead
  · rw [(h.closed ho).1]
    rfl

theorem State.Inv.takePulse (h : s.Inv) (hrun : s.halted = false) : s.takePulse.Inv := by
  have hframe := s.closePulse_frame
  have hprotos : s.closePulse.demods.length = s.closePulse.cfg.nProto := by rw [hframe.protos, hframe.cfg, h.protos]
  have hopen := s.closePulse_sigOpen
  have hnotHalted : s.closePulse.halted ≠ true := by rw [hframe.halted, hrun]; decide
  rcases s.takePulse_cases with ⟨-, e⟩ | ⟨hroom, e⟩ <;> rw [e]
  case inl =>
    exact State.captureClear_inv (s := State.emit _ { s.closePulse with tblOvf := true }) hprotos
      (fun _ => s.closePulse_pulseOpen)
      { h.indexes.closePulse with }
  case inr =>
    refine ⟨?protos, fun hc => ?closed, fun _ => ?openTbl, fun e he => ?lengths, fun hh => absurd hh hnotHalted,
      fun d' hd' => ?demod, h.indexes.closePulse.appendPulse (by rw [hframe.cfg]; exact h.indexes.fallRecord)⟩
    case protos => rw [State.appendPulse_demods, State.demodAll_length]; exact hprotos
    case closed => rw [State.appendPulse_sigOpen, hopen] at hc; cases hc
    case openTbl =>
      rw [State.appendPulse_tbl, State.appendPulse_cfg, State.appendPulse_sigStart, State.appendPulse_lastEnd,
        s.closePulse_tbl, hframe.cfg, List.length_append, List.getLast?_concat]
      exact ⟨Nat.le_add_left _ _, hroom, h.head_append_fallRecord, rfl⟩
    case lengths =>
      rw [State.appendPulse_tbl, s.closePulse_tbl] at he
      rw [State.appendPulse_cfg, hframe.cfg]
      rcases List.mem_append.mp he with he | he
      · exact h.lengths e he
      · rw [List.mem_singleton.mp he]; rfl
    case demod =>
      have hinv : ∀ d ∈ s.closePulse.demods, Demod.Inv s.closePulse.cfg d := by
        rw [s.closePulse_demods, hframe.cfg]; exact h.demod
      obtain ⟨d, hd, rfl | ⟨desc, rfl⟩⟩ := State.mem_demodAll hd'
      · exact hinv d' hd
      · exact (hinv d hd).demodulate desc _

/-! ## The step -/

theorem State.Inv.extractorStep (h : s.Inv) (hrun : s.halted = false) (hi : Bool) : (s.extractorStep hi).Inv := by
  rcases s.extractorStep_cases hi with ⟨-, -, e⟩ | ⟨-, -, e⟩ | ⟨-, -, e⟩ | ⟨-, -, e⟩ <;> rw [e]
  · exact h.risingEdge hrun
  · exact h
  · exact (h.takePulse hrun).quietCheck s.idx
  · exact h.quietCheck s.idx

theorem State.Inv.takeSample (h : s.Inv) (hrun : s.halted = false) (data : Sample) : (s.takeSample data).Inv :=
  (h.extractorStep hrun _).advance

end

/-- Settles O59: one lemma for each thing a step can do. -/
theorem stepKeepsTheInvariants : Obligations.StepKeepsTheInvariants := by
  intro s t h hstep
  obtain ⟨-, u, hu, hcases⟩ := step_cases hstep
  have hinv : u.Inv := hu ▸ h.withPorts _ [] none
  rcases hcases with rfl | rfl | ⟨hrun, data, rfl⟩ | ⟨-, rfl⟩ | ⟨-, rfl⟩ | rfl
  · exact (State.resetWith_inv u.cfg).withPorts u.input u.events u.result
  · exact hinv
  · exact hinv.takeSample hrun data
  · exact hinv.endStream
  · exact hinv.shutDown
  · exact hinv.withBadcmd true

end Sys2Proof.Machine
end

section
/-! PROOFS. The gaps of an open signal (R19) and their bounds (R28 (d)). -/

namespace Sys2Proof.Machine

/-! ## The gaps of a table -/

/-- R19: the gaps are the differences of consecutive slots. -/
theorem gapsOf_eq_zipWith (c : Config) (tbl : List PulseEvent) :
    gapsOf c tbl = List.zipWith (fun a b => c.wrap (b.start - a.stop)) tbl tbl.tail := by
  induction tbl with
  | nil => rfl
  | cons a rest ih =>
    cases rest with
    | nil => rfl
    | cons b rest => rw [gapsOf, ih]; rfl

theorem gapsOf_length (c : Config) (tbl : List PulseEvent) : (gapsOf c tbl).length = tbl.length - 1 := by
  rw [gapsOf_eq_zipWith, List.length_zipWith, List.length_tail, Nat.min_eq_right (Nat.sub_le _ _)]

theorem gapsOf_getElem? {c : Config} {tbl : List PulseEvent} {i : Nat} {a b : PulseEvent} (ha : tbl[i]? = some a)
    (hb : tbl[i + 1]? = some b) : (gapsOf c tbl)[i]? = some (c.wrap (b.start - a.stop)) := by
  rw [gapsOf_eq_zipWith, List.getElem?_zipWith, List.getElem?_tail, ha, hb]

/-- Appending a pulse adds at most one gap: that from the last pulse to it. -/
theorem mem_gapsOf_concat {c : Config} {tbl : List PulseEvent} {e : PulseEvent} {g : Word}
    (h : g ∈ gapsOf c (tbl ++ [e])) :
    g ∈ gapsOf c tbl ∨ ∃ a, tbl.getLast? = some a ∧ g = c.wrap (e.start - a.stop) := by
  induction tbl with
  | nil => exact .inl h
  | cons a rest ih =>
    cases rest with
    | nil => exact .inr ⟨a, rfl, List.mem_singleton.mp h⟩
    | cons b rest =>
      rcases List.mem_cons.mp h with rfl | h
      · exact .inl List.mem_cons_self
      · rcases ih h with hold | hnew
        · exact .inl (List.mem_cons_of_mem _ hold)
        · exact .inr (by rwa [List.getLast?_cons_cons])

/-! ## The number of low samples since the last pulse -/

/-- A gap that R28 (d) allows. -/
abbrev GapBounds (c : Config) (g : Word) : Prop := 1 ≤ g.toNat ∧ g.toNat ≤ c.quietWindow.toNat

theorem wrap_add_one_toNat (c : Config) (x : Word) :
    (c.wrap (x + 1)).toNat = ((c.wrap x).toNat + 1) % 2 ^ (c.idxW : Nat) := by
  have hdvd : 2 ^ (c.idxW : Nat) ∣ 2 ^ 32 := Nat.pow_dvd_pow 2 (by omega)
  rw [wrap_toNat, wrap_toNat, BitVec.toNat_add, Nat.mod_mod_of_dvd _ hdvd, Nat.mod_add_mod]
  rfl

/-- A count that has not reached the window goes up by one without wrapping, so it stays at least 1. -/
theorem one_le_wrap_add_one {c : Config} {x : Word} (hq : c.quietWindow.toNat < 2 ^ (c.idxW : Nat) - 1)
    (h : (c.wrap x).toNat ≤ c.quietWindow.toNat) : 1 ≤ (c.wrap (x + 1)).toNat := by
  rw [wrap_add_one_toNat, Nat.mod_eq_of_lt (by omega)]
  exact Nat.le_add_left _ _

theorem exceedsQuiet_eq_false {c : Config} {n lastEnd : Word} :
    exceedsQuiet c n lastEnd = false ↔ (c.wrap (n + 1 - lastEnd)).toNat ≤ c.quietWindow.toNat := by
  rw [exceedsQuiet, decide_eq_false_iff_not, Nat.not_lt]

/-- The count after the sample `n` is the one that the quiet check compares (R107). -/
theorem wrap_advance_sub (c : Config) (n lastEnd : Word) :
    c.wrap (c.wrap (n + 1) - lastEnd) = c.wrap (n - lastEnd + 1) := by
  rw [wrap_sub, show n + 1 - lastEnd = n - lastEnd + 1 by bv_omega]

section
variable {s : State}

/-- While a pulse is open the count stands at its rise. -/
theorem State.GapInv.count_of_pulse (h : s.GapInv) (hpulse : s.pulseOpen = true) (ho : s.sigOpen = true) :
    GapBounds s.cfg (s.cfg.wrap (s.pulseStart - s.lastEnd)) := by
  have hquiet := h.quiet ho
  rwa [hpulse] at hquiet

/-- With no pulse open the count goes on to `idx`. -/
theorem State.GapInv.count_of_noPulse (h : s.GapInv) (hpulse : s.pulseOpen = false) (ho : s.sigOpen = true) :
    GapBounds s.cfg (s.cfg.wrap (s.idx - s.lastEnd)) := by
  have hquiet := h.quiet ho
  rwa [hpulse] at hquiet

/-- What a sample without an open pulse leaves: a signal that is still open after the quiet check is within the
window. -/
theorem State.quietCheck_advance_gapInv (hpulse : s.pulseOpen = false)
    (hq : s.cfg.quietWindow.toNat < 2 ^ (s.cfg.idxW : Nat) - 1)
    (hgaps : ∀ g ∈ gapsOf s.cfg s.tbl, GapBounds s.cfg g)
    (hcount : s.sigOpen = true → (s.cfg.wrap (s.idx - s.lastEnd)).toNat ≤ s.cfg.quietWindow.toNat) :
    (s.quietCheck s.idx).advance.GapInv := by
  rcases s.quietCheck_cases s.idx with ⟨-, -, e⟩ | ⟨hwithin, e⟩ <;> rw [e]
  · exact State.gapInv_of_captureEmpty rfl rfl
  · refine ⟨hgaps, fun ho => ?_⟩
    rw [State.advance_sigOpen] at ho
    have hle := exceedsQuiet_eq_false.mp (hwithin.resolve_left (by rw [ho]; decide))
    rw [State.advance_pulseOpen, hpulse, if_neg Bool.false_ne_true, State.advance_cfg, State.advance_idx,
      State.advance_lastEnd]
    refine ⟨?_, by rwa [wrap_sub]⟩
    rw [wrap_advance_sub]
    exact one_le_wrap_add_one hq (hcount ho)

/-- While a pulse is open `idx` does not count. -/
theorem State.GapInv.advance (h : s.GapInv) (hpulse : s.pulseOpen = true) : s.advance.GapInv := by
  refine ⟨h.gaps, fun ho => ?_⟩
  rw [State.advance_pulseOpen, hpulse]
  exact h.count_of_pulse hpulse ho

/-- A rise ends the count at its sample. -/
theorem State.GapInv.risingEdge (h : s.GapInv) (hpulse : s.pulseOpen = false) : s.risingEdge.GapInv :=
  ⟨h.gaps, h.count_of_noPulse hpulse⟩

/-- The gap that a completed pulse adds is the count up to its rise (R19, R28 (b)). -/
theorem State.GapInv.gaps_fallRecord (h : s.GapInv) (hinv : s.Inv) (hpulse : s.pulseOpen = true) :
    ∀ g ∈ gapsOf s.cfg (s.tbl ++ [s.fallRecord.event]), GapBounds s.cfg g := by
  intro g hg
  rcases mem_gapsOf_concat hg with hold | ⟨a, hlast, rfl⟩
  · exact h.gaps g hold
  · cases ho : s.sigOpen with
    | false => rw [(hinv.closed ho).1] at hlast; cases hlast
    | true =>
      obtain ⟨-, -, -, hend⟩ := hinv.openTbl ho
      rw [hlast] at hend
      have hstop : a.stop = s.lastEnd := Option.some.inj hend
      rw [hstop]
      exact h.count_of_pulse hpulse ho

theorem State.GapInv.fallingEdge_advance (h : s.GapInv) (hinv : s.Inv) (hpulse : s.pulseOpen = true)
    (hq : s.cfg.quietWindow.toNat < 2 ^ (s.cfg.idxW : Nat) - 1) : s.fallingEdge.advance.GapInv := by
  have hframe := s.takePulse_frame
  rw [State.fallingEdge, ← hframe.idx]
  rcases s.takePulse_cases with ⟨-, e⟩ | ⟨-, e⟩
  · have hclosed : s.takePulse.sigOpen = false := by rw [e]; rfl
    rw [State.quietCheck_of_sigClosed hclosed]
    exact State.gapInv_of_captureEmpty hclosed (by rw [State.advance_tbl, e]; rfl)
  · refine State.quietCheck_advance_gapInv ?_ (by rwa [hframe.cfg]) ?_ (fun _ => ?_)
    · rw [e, State.appendPulse_pulseOpen, s.closePulse_pulseOpen]
    · rw [hframe.cfg, e, State.appendPulse_tbl, s.closePulse_tbl]
      exact h.gaps_fallRecord hinv hpulse
    · have hlast : s.takePulse.lastEnd = s.takePulse.idx := by rw [hframe.idx, e]; rfl
      rw [hlast, BitVec.sub_self, wrap_of_fits (x := 0#32) (fits_zero _)]
      exact Nat.zero_le _

theorem State.GapInv.takeSample (h : s.GapInv) (hinv : s.Inv)
    (hq : s.cfg.quietWindow.toNat < 2 ^ (s.cfg.idxW : Nat) - 1) (data : Sample) : (s.takeSample data).GapInv := by
  rw [State.takeSample]
  rcases s.extractorStep_cases (comparator s.cfg data) with
    ⟨-, hpulse, e⟩ | ⟨-, hpulse, e⟩ | ⟨-, hpulse, e⟩ | ⟨-, hpulse, e⟩ <;> rw [e]
  · exact (h.risingEdge hpulse).advance rfl
  · exact h.advance hpulse
  · exact h.fallingEdge_advance hinv hpulse hq
  · exact State.quietCheck_advance_gapInv hpulse hq h.gaps fun ho => (h.count_of_noPulse hpulse ho).2

theorem State.endStream_sigOpen (s : State) : s.endStream.sigOpen = false := by
  cases ho : s.sigOpen with
  | false => rw [State.endStream_of_sigClosed ho]; exact ho
  | true => rw [State.endStream_of_sigOpen ho]; rfl

end

/-- With no signal open the invariants leave no gap to bound (R28 (a)). -/
theorem State.Inv.gapInv_of_sigClosed {s : State} (h : s.Inv) (ho : s.sigOpen = false) : s.GapInv :=
  State.gapInv_of_captureEmpty ho (h.closed ho).1

/-- Settles O60: only a sample leaves a signal open that it may have changed; the others keep the table and the count,
or leave no signal. -/
theorem stepKeepsTheGapBounds : Obligations.StepKeepsTheGapBounds := by
  intro s t hinv h hq hstep
  obtain ⟨-, u, hu, hcases⟩ := step_cases hstep
  have hinvU : u.Inv := hu ▸ hinv.withPorts _ [] none
  have hU : u.GapInv := hu ▸ { h with }
  rcases hcases with rfl | rfl | ⟨-, data, rfl⟩ | ⟨-, rfl⟩ | ⟨-, rfl⟩ | rfl
  · exact State.gapInv_of_captureEmpty rfl rfl
  · exact hU
  · exact hU.takeSample hinvU (by rw [hu]; exact hq) data
  · exact hinvU.endStream.gapInv_of_sigClosed u.endStream_sigOpen
  · exact State.gapInv_of_captureEmpty rfl rfl
  · exact { hU with }

end Sys2Proof.Machine
end

section
/-! PROOFS. The encodings (R60 to R71): what encodes decodes to itself, and what decodes is its own word. -/

namespace Sys2Proof

/-! ## The selectors of a descriptor word -/

theorem decodeModulation_code (m : Modulation) : decodeModulation m.code = .ok m := by cases m <;> rfl

theorem code_of_decodeModulation {x : BitVec 2} {m : Modulation} (h : decodeModulation x = .ok m) : m.code = x := by
  revert x
  cases m <;> decide

theorem decodeModulation_eq_error {x : BitVec 2} :
    decodeModulation x = .error .reservedModulation ↔ x = 0b11#2 := by
  revert x
  decide

theorem decodeVSel_code (v : VSel) : decodeVSel v.code = v := by cases v <;> rfl

theorem code_decodeVSel (x : BitVec 2) : (decodeVSel x).code = x := by
  revert x
  decide

/-! ## Descriptor words (R64) -/

section
variable (d : Desc)

theorem encodeDesc_mod : (encodeDesc d).extractLsb' 98 2 = d.modulation.code := extract_append_high _ _

theorem encodeDesc_vsel : (encodeDesc d).extractLsb' 96 2 = d.vsel.code :=
  (extract_append_of_add_le _ _ (by decide)).trans (extract_append_high _ _)

theorem encodeDesc_short : (encodeDesc d).extractLsb' 64 32 = d.limits.short :=
  (extract_append_of_add_le _ _ (by decide)).trans <| (extract_append_of_add_le _ _ (by decide)).trans <|
    extract_append_high _ _

theorem encodeDesc_long : (encodeDesc d).extractLsb' 32 32 = d.limits.long :=
  (extract_append_of_add_le _ _ (by decide)).trans <| (extract_append_of_add_le _ _ (by decide)).trans <|
    (extract_append_of_add_le _ _ (by decide)).trans <| extract_append_high _ _

theorem encodeDesc_reset : (encodeDesc d).extractLsb' 0 32 = d.limits.reset :=
  (extract_append_of_add_le _ _ (by decide)).trans <| (extract_append_of_add_le _ _ (by decide)).trans <|
    (extract_append_of_add_le _ _ (by decide)).trans <| extract_append_low _ _

theorem decodeDesc_encodeDesc : decodeDesc (encodeDesc d) = .ok d := by
  rw [decodeDesc, descLimits, encodeDesc_mod, encodeDesc_vsel, encodeDesc_short, encodeDesc_long, encodeDesc_reset,
    decodeModulation_code, decodeVSel_code]

end

theorem decodeDesc_eq_ok {w : DescWord} {d : Desc} (h : decodeDesc w = .ok d) :
    decodeModulation (w.extractLsb' 98 2) = .ok d.modulation ∧ d.vsel = decodeVSel (w.extractLsb' 96 2) ∧
      d.limits = descLimits w := by
  rw [decodeDesc] at h
  split at h
  · next m hm => cases h; exact ⟨hm, rfl, rfl⟩
  · cases h

theorem decodeDesc_eq_error {w : DescWord} :
    decodeDesc w = .error .reservedModulation ↔ w.extractLsb' 98 2 = 0b11#2 := by
  rw [← decodeModulation_eq_error, decodeDesc]
  cases decodeModulation (w.extractLsb' 98 2) with
  | ok m => exact ⟨nofun, nofun⟩
  | error e => exact ⟨fun h => by cases h; rfl, fun h => by cases h; rfl⟩

/-- The five fields put together again are the word: each begins where the next one ends. -/
theorem encodeDesc_of_decodeDesc {w : DescWord} {d : Desc} (h : decodeDesc w = .ok d) : encodeDesc d = w := by
  obtain ⟨hmod, hvsel, hlimits⟩ := decodeDesc_eq_ok h
  rw [encodeDesc, code_of_decodeModulation hmod, hvsel, code_decodeVSel, hlimits]
  simp only [descLimits]
  rw [BitVec.extractLsb'_append_extractLsb'_eq_extractLsb', BitVec.extractLsb'_append_extractLsb'_eq_extractLsb',
    BitVec.extractLsb'_append_extractLsb'_eq_extractLsb', BitVec.extractLsb'_append_extractLsb'_eq_extractLsb']
  · exact extract_all w
  all_goals rfl

/-- Settles O4: the fields of the word of a descriptor, and the two directions of the round trip. -/
theorem descriptorWords : Obligations.DescriptorWords := by
  refine ⟨fun d => ⟨?mod, ?vsel, encodeDesc_short d, encodeDesc_long d, encodeDesc_reset d, decodeDesc_encodeDesc d⟩,
    fun _ _ => encodeDesc_of_decodeDesc, fun _ => decodeDesc_eq_error⟩
  case mod => rw [encodeDesc_mod]; cases d.modulation <;> rfl
  case vsel => rw [encodeDesc_vsel]; cases d.vsel <;> rfl

/-! ## From an instruction to its word and back -/

theorem decode_modOp (d : Desc) (p : Nat) (r : PulseRecord) :
    decode (.modOp (encodeDesc d) p r) = .ok (d.modInstr p r) := by
  rw [decode, decodeDesc_encodeDesc]

theorem decode_verOp (d : Desc) (p : Nat) : decode (.verOp (encodeDesc d) p) = .ok (d.verInstr p) := by
  rw [decode, decodeDesc_encodeDesc]

theorem decodeRdb_rdbWord (width : BitVec 5) (off : BitVec 16) (buf : List Byte) :
    decodeRdb (rdbWord width off) buf = .rdbits width off buf := by
  rw [decodeRdb, rdbWord, extract_append_high, extract_append_low]

/-- Settles O1: one case for each format; the operations without an encoding have none to decode. -/
theorem encodedInstructionDecodesToItself : Obligations.EncodedInstructionDecodesToItself := by
  intro i code h
  cases i with
  | idle | sample | eos | stop | rst | rsv5 | rsv6 | rsv7 =>
    obtain rfl := Option.some.inj h
    exact congrArg Except.ok (Machine.decodeCmd_cmdWord _ _)
  | rise | hold | fall | low =>
    obtain rfl := Option.some.inj h
    rfl
  | pwmD | pwmP | manch =>
    obtain rfl := Option.some.inj h
    exact decode_modOp _ _ _
  | vNone | vRed | vXor8 | vNibsum =>
    obtain rfl := Option.some.inj h
    exact decode_verOp _ _
  | rdbits width off buf =>
    obtain rfl := Option.some.inj h
    exact congrArg Except.ok (decodeRdb_rdbWord width off buf)
  | sigOpen | tblAppend | tblAbort | sigClose | demod | rowAdv | addBit | nextRow | bbDone | bbClear | sext | nib |
    rowVote => cases h

/-! ## From a word to its instruction and back -/

theorem encode_modInstr (d : Desc) (p : Nat) (r : PulseRecord) :
    encode (d.modInstr p r) = some (.modOp (encodeDesc d) p r) := by
  obtain ⟨m, v, lim⟩ := d
  cases m <;> rfl

theorem encode_verInstr (d : Desc) (p : Nat) : encode (d.verInstr p) = some (.verOp (encodeDesc d) p) := by
  obtain ⟨m, v, lim⟩ := d
  cases v <;> rfl

theorem encode_decodeEdge (w : EdgeWord) : encode (decodeEdge w) = some (.edge w) := by
  revert w
  decide

theorem encode_decodeRdb (w : RdbWord) (buf : List Byte) : encode (decodeRdb w buf) = some (.rdb w buf) := by
  have hword : rdbWord (w.extractLsb' 16 5) (w.extractLsb' 0 16) = w :=
    (BitVec.extractLsb'_append_extractLsb'_eq_extractLsb' rfl).trans (extract_all w)
  rw [decodeRdb, encode, hword]

theorem cmdWord_cmdOp_cmdData (w : CmdWord) : cmdWord (cmdOp w) (cmdData w) = w :=
  (BitVec.extractLsb'_append_extractLsb'_eq_extractLsb' rfl).trans (extract_all w)

/-- A `SAMPLE` word has no ignored bits (R63). -/
theorem encode_decodeCmd_of_sample {w : CmdWord} (h : cmdOp w = 0b001#3) : encode (decodeCmd w) = some (.cmd w) := by
  conv_rhs => rw [← cmdWord_cmdOp_cmdData w, h]
  rw [decodeCmd, h]
  rfl

/-- Settles O2: a command word's instruction keeps the operation code, and all of a `SAMPLE`; the words of the other
formats are their instructions' words. -/
theorem decodedWordIsItsInstructionsWord : Obligations.DecodedWordIsItsInstructionsWord := by
  intro code i h
  cases code with
  | cmd w =>
    obtain rfl := Except.ok.inj h
    obtain ⟨w', hw', hop⟩ := encode_decodeCmd w
    refine ⟨.cmd w', hw', ?_, fun hne => absurd rfl (hne w)⟩
    rintro _ ⟨⟩
    refine ⟨w', rfl, hop, fun hsample => ?_⟩
    rw [encode_decodeCmd_of_sample hsample] at hw'
    cases hw'
    rfl
  | edge w =>
    obtain rfl := Except.ok.inj h
    exact ⟨_, encode_decodeEdge w, nofun, fun _ => rfl⟩
  | modOp w p r =>
    rw [decode] at h
    split at h
    · next d hd =>
      cases h
      exact ⟨_, encode_modInstr d p r, nofun, fun _ => by rw [encodeDesc_of_decodeDesc hd]⟩
    · cases h
  | verOp w p =>
    rw [decode] at h
    split at h
    · next d hd =>
      cases h
      exact ⟨_, encode_verInstr d p, nofun, fun _ => by rw [encodeDesc_of_decodeDesc hd]⟩
    · cases h
  | rdb w buf =>
    obtain rfl := Except.ok.inj h
    exact ⟨_, encode_decodeRdb w buf, nofun, fun _ => rfl⟩

/-- Settles O5: each word is decoded by evaluation. -/
theorem writtenWordsDecode : Obligations.WrittenWordsDecode :=
  ⟨rfl, rfl, rfl, rfl, rfl, rfl, fun _ => rfl, rfl, fun _ => rfl⟩

end Sys2Proof
end

section
/-! PROOFS. The events of a `SAMPLE` (R113, R179 (a)). -/

namespace Sys2Proof.Machine

/-! ## Which events there can be -/

abbrev NoOverflow (es : List Event) : Prop := ∀ n, Event.tableOverflow n ∉ es

abbrev NoClose (es : List Event) : Prop := ∀ a b n k l, Event.signalClosed a b n k l ∉ es

theorem verdictEvents_noOverflow (c : Config) (p : Nat) (v : VSel) (d : Demod) :
    NoOverflow (verdictEvents c p v d) := by
  intro n
  rw [verdictEvents]
  split <;> simp

/-- A completion reports buffers and verdicts only (R128). -/
theorem State.doneEvents_noOverflow (s : State) : NoOverflow s.doneEvents := by
  intro n hn
  rw [State.doneEvents_eq] at hn
  obtain ⟨p, -, hp⟩ := List.mem_flatMap.mp hn
  rw [State.doneEventsOf] at hp
  split at hp
  · next desc d _ _ =>
    rcases List.mem_cons.mp hp with h | h
    · cases h
    · exact verdictEvents_noOverflow s.cfg p desc.vsel d n h
  · cases hp

/-- The quiet check emits nothing, or a `SignalClosed` and what its completions report (R107, R108). -/
theorem State.quietCheck_events (n : Word) (s : State) :
    ∃ new, (s.quietCheck n).events = s.events ++ new ∧ NoOverflow new := by
  rcases s.quietCheck_cases n with ⟨-, -, e⟩ | ⟨-, e⟩ <;> rw [e]
  · refine ⟨_, State.closeSignal_events n s, fun m hm => ?_⟩
    rcases List.mem_cons.mp hm with h | h
    · cases h
    · exact s.doneEvents_noOverflow m h
  · exact ⟨[], (List.append_nil _).symm, nofun⟩

/-! ## The falling edge -/

/-- What a falling edge does after ending its pulse: abort a full table, which leaves no signal to close, or append and
check for quiet (R103). -/
theorem State.fallingEdge_cases (s : State) :
    (s.cfg.tblCap.toNat ≤ s.tbl.length ∧ s.fallingEdge = s.closePulse.abortSignal s.idx) ∨
    (s.tbl.length < s.cfg.tblCap.toNat ∧
      s.fallingEdge = (s.closePulse.appendPulse s.fallRecord).quietCheck s.idx) := by
  rw [State.fallingEdge]
  rcases s.takePulse_cases with ⟨hfull, e⟩ | ⟨hroom, e⟩ <;> rw [e]
  · exact .inl ⟨hfull, State.quietCheck_of_sigClosed rfl _⟩
  · exact .inr ⟨hroom, rfl⟩

/-- The first pulse of a signal opens it (R103, R105). -/
theorem State.closePulse_events (s : State) :
    s.closePulse.events = s.events ++ if s.sigOpen then [] else [.signalOpened s.pulseStart] := by
  rcases s.closePulse_cases with ⟨ho, e⟩ | ⟨ho, e⟩ <;> rw [e, ho]
  · exact (List.append_nil _).symm
  · rfl

theorem State.closePulse_tblOvf (s : State) : s.closePulse.tblOvf = s.tblOvf := by
  rcases s.closePulse_cases with ⟨-, e⟩ | ⟨-, e⟩ <;> rw [e]; rfl

/-- A falling edge that aborts emits no `SignalClosed`, and one that closes no `TableOverflow` (R179 (a)). -/
theorem State.fallingEdge_events (s : State) :
    ∃ new, s.fallingEdge.events = s.events ++ new ∧ (NoOverflow new ∨ NoClose new) := by
  have hopened := s.closePulse_events
  generalize ho : (if s.sigOpen then [] else [Event.signalOpened s.pulseStart]) = opened at hopened
  have hmem : ∀ e ∈ opened, e = .signalOpened s.pulseStart := by
    rw [← ho]
    split <;> simp
  rcases s.fallingEdge_cases with ⟨-, e⟩ | ⟨-, e⟩ <;> rw [e]
  · refine ⟨opened ++ [.tableOverflow s.idx], ?_, .inr fun a b n k l h => ?_⟩
    · rw [State.abortSignal_events, hopened, List.append_assoc]
    · rcases List.mem_append.mp h with h | h
      · cases hmem _ h
      · cases List.mem_singleton.mp h
  · obtain ⟨closed, hclosed, hno⟩ := (s.closePulse.appendPulse s.fallRecord).quietCheck_events s.idx
    refine ⟨opened ++ .pulse s.fallRecord :: closed, ?_, .inl fun n h => ?_⟩
    · rw [hclosed, State.appendPulse_events, hopened, List.append_assoc, List.append_assoc]
      rfl
    · rcases List.mem_append.mp h with h | h
      · cases hmem _ h
      · rcases List.mem_cons.mp h with h | h
        · cases h
        · exact hno n h

/-- With room in the table the pulse is reported (R106). -/
theorem State.pulse_mem_fallingEdge_events {s : State} (hroom : s.tbl.length < s.cfg.tblCap.toNat) :
    Event.pulse s.fallRecord ∈ s.fallingEdge.events := by
  rcases s.fallingEdge_cases with ⟨hfull, -⟩ | ⟨-, e⟩
  · omega
  · obtain ⟨closed, hclosed, -⟩ := (s.closePulse.appendPulse s.fallRecord).quietCheck_events s.idx
    rw [e, hclosed, State.appendPulse_events]
    simp

/-! ## The sample -/

theorem State.extractorStep_events (hi : Bool) (s : State) :
    ∃ new, (s.extractorStep hi).events = s.events ++ new ∧ (NoOverflow new ∨ NoClose new) := by
  have hnone : ∃ new, s.events = s.events ++ new ∧ (NoOverflow new ∨ NoClose new) :=
    ⟨[], (List.append_nil _).symm, .inl nofun⟩
  rcases s.extractorStep_cases hi with ⟨-, -, e⟩ | ⟨-, -, e⟩ | ⟨-, -, e⟩ | ⟨-, -, e⟩ <;> rw [e]
  · exact hnone
  · exact hnone
  · exact s.fallingEdge_events
  · obtain ⟨new, hnew, hno⟩ := s.quietCheck_events s.idx
    exact ⟨new, hnew, .inl hno⟩

/-- Settles O24: the new events are those of the edge operation, and only a falling edge can abort. -/
theorem overflowAndCloseNeverMeet : Obligations.OverflowAndCloseNeverMeet := by
  intro s t data h
  cases hh : s.halted with
  | true =>
    rw [exec_sample_of_halted hh] at h
    cases h
    exact ⟨[], (List.append_nil _).symm, nofun⟩
  | false =>
    rw [exec_sample_of_running hh] at h
    cases h
    obtain ⟨new, hnew, hno⟩ := s.extractorStep_events (comparator s.cfg data)
    refine ⟨new, hnew, fun ⟨⟨n, hn⟩, ⟨a, b, m, k, l, hclosed⟩⟩ => ?_⟩
    rcases hno with hno | hno
    · exact hno n hn
    · exact hno a b m k l hclosed

end Sys2Proof.Machine
end

section
/-! PROOFS. The step (R80), and what every instruction leaves alone: the configuration (R11), `idx` (R12), `halted`
(R20) and the sticky flags (R21). -/

namespace Sys2Proof.Machine

/-! ## The step -/

theorem step_of_admissible {s : State} (h : s.cfg.admissible = true) :
    step s = runCycle (nextCycle s.input).1 (s.beginStep (nextCycle s.input).2) := if_pos h

theorem runCycle_of_reset {c : Pins} (h : c.rst = true) (s : State) : runCycle c s = exec .rst s := by
  rw [runCycle, if_pos h]
  rfl

theorem runCycle_of_valid {c : Pins} (hrst : c.rst = false) (hvalid : c.inValid = true) (s : State) :
    runCycle c s = exec (decodeCmd c.cmd) s := by
  rw [runCycle, hrst, if_neg Bool.false_ne_true, Pins.instr, Pins.word, if_pos hvalid]

/-- A cycle that presents no command is an `IDLE` (R60): the word 0 is `IDLE`'s (R61). -/
theorem runCycle_of_notValid {c : Pins} (hrst : c.rst = false) (hvalid : c.inValid = false) (s : State) :
    runCycle c s = exec .idle s := by
  have hidle : decodeCmd 0 = .idle := decodeCmd_cmdWord 0 0
  rw [runCycle, hrst, if_neg Bool.false_ne_true, Pins.instr, Pins.word, hvalid, if_neg Bool.false_ne_true, hidle]

/-- Settles O6: the presented cycle decides what `runCycle` runs; the word of a cycle that presents no command is
`IDLE`'s. -/
theorem stepRunsThePresentedCommand : Obligations.StepRunsThePresentedCommand := by
  intro s w v rest hadm
  rw [step_of_admissible hadm]
  refine ⟨fun h => ?command, fun h => ?nothing, fun h => ?reset, fun h => ?undriven⟩
  case command => rw [h]; exact runCycle_of_valid rfl rfl _
  case nothing => rw [h]; exact runCycle_of_notValid rfl rfl _
  case reset => rw [h]; exact runCycle_of_reset rfl _
  case undriven => rw [h, nextCycle, runCycle_of_notValid rfl rfl, State.beginStep, ← h]

/-- Every cycle's command runs to completion (R80). -/
theorem runCycle_next (c : Pins) (s : State) : ∃ t, runCycle c s = .next t := by
  rw [runCycle]
  split
  · exact ⟨_, rfl⟩
  · rw [Pins.instr]
    have hhalted (a b : State) : ∃ t, (if s.halted then Host.Outcome.next a else .next b : Result) = .next t := by
      cases s.halted
      · exact ⟨b, rfl⟩
      · exact ⟨a, rfl⟩
    rcases decodeCmd_cases c.word with e | e | e | e | e | e | e | e <;> rw [e]
    · exact ⟨_, rfl⟩
    · exact hhalted _ _
    · exact hhalted _ _
    · exact hhalted _ _
    all_goals exact ⟨_, rfl⟩

/-- Settles O7: `Config.admissible` is the three bounds, and under them the step is `runCycle`. -/
theorem stepCompletesOrRefusesTheConfiguration : Obligations.StepCompletesOrRefusesTheConfiguration := by
  refine fun s => ⟨fun hcap hrows hcols => ?_, fun hzero => ?_⟩
  · rw [step_of_admissible (decide_eq_true ⟨hcap, hrows, hcols⟩)]
    exact runCycle_next _ _
  · have hadm : s.cfg.admissible = false := decide_eq_false (by omega)
    rw [step, hadm, if_neg Bool.false_ne_true]

/-! ## The operations on one protocol -/

/-- An operation on a protocol that does not exist faults (log entry 11). -/
theorem State.withProto_absent {s : State} {p : Nat} (h : s.cfg.nProto ≤ p) (k : Desc → Demod → Result) :
    s.withProto p k = .fault .noSuchProtocol := by
  rw [State.withProto, List.getElem?_eq_none h]

/-- Settles O53: every meaning with a `p` goes through `State.withProto`; the others by their own test. -/
theorem operandsThatDoNotExist : Obligations.OperandsThatDoNotExist := by
  refine ⟨?protocol, fun s n v _ => ⟨_, exec_sext n v s⟩, fun s r hfull => ?table, fun s buf j hout => ?nibble⟩
  case protocol =>
    rintro i s p (⟨v, lim, r, rfl | rfl | rfl⟩ | ⟨m, lim, rfl | rfl | rfl | rfl⟩ | ⟨r, rfl | rfl⟩ | ⟨b, rfl⟩ | rfl |
      rfl | rfl | rfl) hp
    all_goals exact State.withProto_absent hp _
  case table => rw [exec, execTblAppend, State.tblFull, hfull, decide_eq_true le_rfl, if_pos rfl]
  case nibble => exact if_neg (Nat.not_lt.mpr hout)

/-! ## Who writes the control state -/

/-- `idx` after an instruction (R12, R82, R85, R87). -/
def idxAfter (s : State) : Instr → Word
  | .sample _ => if s.halted then s.idx else s.cfg.wrap (s.idx + 1)
  | .rst => 0
  | _ => s.idx

/-- `halted` after an instruction (R20). -/
def haltedAfter (s : State) : Instr → Bool
  | .eos | .stop => true
  | .rst => false
  | _ => s.halted

/-- `badcmd` after an instruction (R21). -/
def badcmdAfter (s : State) : Instr → Bool
  | .rsv5 | .rsv6 | .rsv7 => true
  | .rst => false
  | _ => s.badcmd

/-- The instructions that can abort a signal for a full table (R109). -/
def canOverflow : Instr → Bool
  | .sample _ | .fall | .tblAbort _ => true
  | _ => false

theorem idxAfter_sample (s : State) (data : Sample) :
    idxAfter s (.sample data) = if s.halted then s.idx else s.cfg.wrap (s.idx + 1) := rfl

theorem idxAfter_of_ne {i : Instr} (hsample : ∀ data, i ≠ .sample data) (hrst : i ≠ .rst) (s : State) :
    idxAfter s i = s.idx := by
  cases i with
  | sample data => exact absurd rfl (hsample data)
  | rst => exact absurd rfl hrst
  | _ => rfl

theorem haltedAfter_of_ne {i : Instr} (heos : i ≠ .eos) (hstop : i ≠ .stop) (hrst : i ≠ .rst) (s : State) :
    haltedAfter s i = s.halted := by
  cases i with
  | eos => exact absurd rfl heos
  | stop => exact absurd rfl hstop
  | rst => exact absurd rfl hrst
  | _ => rfl

/-- `badcmd` is set by the reserved operation codes, cleared by reset, and otherwise kept. -/
theorem badcmdAfter_cases (s : State) (i : Instr) :
    ((i = .rsv5 ∨ i = .rsv6 ∨ i = .rsv7) ∧ badcmdAfter s i = true) ∨ i = .rst ∨ badcmdAfter s i = s.badcmd := by
  cases i with
  | rsv5 => exact .inl ⟨.inl rfl, rfl⟩
  | rsv6 => exact .inl ⟨.inr (.inl rfl), rfl⟩
  | rsv7 => exact .inl ⟨.inr (.inr rfl), rfl⟩
  | rst => exact .inr (.inl rfl)
  | _ => exact .inr (.inr rfl)

theorem canOverflow_eq_true {i : Instr} (h : canOverflow i = true) :
    (∃ n, i = .tblAbort n) ∨ i = .fall ∨ ∃ data, i = .sample data := by
  cases i with
  | sample data => exact .inr (.inr ⟨data, rfl⟩)
  | fall => exact .inr (.inl rfl)
  | tblAbort n => exact .inl ⟨n, rfl⟩
  | _ => cases h

/-- What instruction `i` does to the control state: the fields of spec/10_state.md sections 1 to 3. -/
structure ControlAfter (i : Instr) (s t : State) : Prop where
  cfg    : t.cfg = s.cfg
  input  : t.input = s.input
  idx    : t.idx = idxAfter s i
  halted : t.halted = haltedAfter s i
  badcmd : t.badcmd = badcmdAfter s i
  /-- `tbl_ovf` is cleared by reset only, and set with a `TableOverflow` event (R21, R109). -/
  tblOvf : if i = .rst then t.tblOvf = false else t.tblOvf = s.tblOvf ∨
    (canOverflow i = true ∧ t.tblOvf = true ∧ ∃ n, Event.tableOverflow n ∈ t.events)

/-- All the control state as before. -/
structure SameControl (s t : State) : Prop where
  cfg    : t.cfg = s.cfg
  input  : t.input = s.input
  idx    : t.idx = s.idx
  halted : t.halted = s.halted
  badcmd : t.badcmd = s.badcmd
  tblOvf : t.tblOvf = s.tblOvf

theorem SameControl.after {i : Instr} {s t : State} (h : SameControl s t) (hrst : i ≠ .rst)
    (hidx : idxAfter s i = s.idx) (hhalted : haltedAfter s i = s.halted) (hbadcmd : badcmdAfter s i = s.badcmd) :
    ControlAfter i s t where
  cfg := h.cfg
  input := h.input
  idx := h.idx.trans hidx.symm
  halted := h.halted.trans hhalted.symm
  badcmd := h.badcmd.trans hbadcmd.symm
  tblOvf := by rw [if_neg hrst]; exact .inl h.tblOvf

theorem SameControl.refl (s : State) : SameControl s s := ⟨rfl, rfl, rfl, rfl, rfl, rfl⟩

theorem setDemod_sameControl (p : Nat) (d : Demod) (s : State) : SameControl s (s.setDemod p d) :=
  ⟨rfl, rfl, rfl, rfl, rfl, rfl⟩

theorem emitAll_sameControl (es : List Event) (s : State) : SameControl s (s.emitAll es) :=
  ⟨rfl, rfl, rfl, rfl, rfl, rfl⟩

theorem answer_sameControl (v : OpResult) (s : State) : SameControl s (s.answer v) :=
  ⟨rfl, rfl, rfl, rfl, rfl, rfl⟩

theorem closeSignal_sameControl (n : Word) (s : State) : SameControl s (s.closeSignal n) :=
  ⟨rfl, rfl, rfl, rfl, rfl, rfl⟩

theorem quietCheck_sameControl (n : Word) (s : State) : SameControl s (s.quietCheck n) := by
  rcases s.quietCheck_cases n with ⟨-, -, e⟩ | ⟨-, e⟩ <;> rw [e]
  · exact closeSignal_sameControl n s
  · exact SameControl.refl s

/-- An operation on a protocol leaves the control state alone when what it does with the protocol's demodulator
does. -/
theorem withProto_sameControl {s t : State} {p : Nat} {f : Desc → Demod → State}
    (hf : ∀ desc d, SameControl s (f desc d)) (h : s.withProto p (fun desc d => .next (f desc d)) = .next t) :
    SameControl s t := by
  obtain ⟨desc, d, -, -, hk⟩ := State.withProto_next h
  cases hk
  exact hf desc d

/-! ## Each instruction -/

/-- The overflow flag after a falling edge: set only by an abort, whose event says so (R109). -/
theorem State.fallingEdge_tblOvf (s : State) :
    s.fallingEdge.tblOvf = s.tblOvf ∨
    (s.fallingEdge.tblOvf = true ∧ ∃ n, Event.tableOverflow n ∈ s.fallingEdge.events) := by
  rcases s.fallingEdge_cases with ⟨-, e⟩ | ⟨-, e⟩ <;> rw [e]
  · exact .inr ⟨rfl, s.idx, List.mem_append_right _ (List.mem_singleton_self _)⟩
  · exact .inl ((quietCheck_sameControl _ _).tblOvf.trans s.closePulse_tblOvf)

theorem State.extractorStep_tblOvf (hi : Bool) (s : State) :
    (s.extractorStep hi).tblOvf = s.tblOvf ∨
    ((s.extractorStep hi).tblOvf = true ∧ ∃ n, Event.tableOverflow n ∈ (s.extractorStep hi).events) := by
  rcases s.extractorStep_cases hi with ⟨-, -, e⟩ | ⟨-, -, e⟩ | ⟨-, -, e⟩ | ⟨-, -, e⟩ <;> rw [e]
  · exact .inl rfl
  · exact .inl rfl
  · exact s.fallingEdge_tblOvf
  · exact .inl (quietCheck_sameControl _ _).tblOvf

theorem takeSample_controlAfter {s : State} (hrun : s.halted = false) (data : Sample) :
    ControlAfter (.sample data) s (s.takeSample data) := by
  have hframe := s.extractorStep_frame (comparator s.cfg data)
  rw [State.takeSample_eq]
  exact {
    cfg := hframe.cfg
    input := hframe.input
    idx := by rw [idxAfter_sample, hrun, if_neg Bool.false_ne_true]
    halted := hframe.halted
    badcmd := hframe.badcmd
    tblOvf := (s.extractorStep_tblOvf _).imp_right fun h => ⟨rfl, h⟩ }

theorem fallingEdge_controlAfter (s : State) : ControlAfter .fall s s.fallingEdge := by
  have hframe := s.fallingEdge_frame
  exact ⟨hframe.cfg, hframe.input, hframe.idx, hframe.halted, hframe.badcmd,
    s.fallingEdge_tblOvf.imp_right fun h => ⟨rfl, h⟩⟩

theorem endStream_controlAfter (s : State) : ControlAfter .eos s s.endStream := by
  cases ho : s.sigOpen with
  | false => rw [State.endStream_of_sigClosed ho]; exact ⟨rfl, rfl, rfl, rfl, rfl, .inl rfl⟩
  | true => rw [State.endStream_of_sigOpen ho]; exact ⟨rfl, rfl, rfl, rfl, rfl, .inl rfl⟩

/-- What every instruction does to the control state: the commands and the overflow abort write it, all others leave it
alone. -/
theorem exec_controlAfter {i : Instr} {s t : State} (h : exec i s = .next t) : ControlAfter i s t := by
  cases i with
  | idle | hold =>
    cases h
    exact (SameControl.refl s).after nofun rfl rfl rfl
  | sample data =>
    cases hh : s.halted with
    | true =>
      rw [exec_sample_of_halted hh] at h
      cases h
      exact (SameControl.refl s).after nofun (if_pos hh) rfl rfl
    | false =>
      rw [exec_sample_of_running hh] at h
      cases h
      exact takeSample_controlAfter hh data
  | eos =>
    cases hh : s.halted with
    | true =>
      rw [exec_eos_of_halted hh] at h
      cases h
      exact (SameControl.refl s).after nofun rfl hh.symm rfl
    | false =>
      rw [exec_eos_of_running hh] at h
      cases h
      exact endStream_controlAfter s
  | stop =>
    cases hh : s.halted with
    | true =>
      rw [exec_stop_of_halted hh] at h
      cases h
      exact (SameControl.refl s).after nofun rfl hh.symm rfl
    | false =>
      rw [exec_stop_of_running hh] at h
      cases h
      exact ⟨rfl, rfl, rfl, rfl, rfl, .inl rfl⟩
  | rst =>
    cases h
    exact ⟨rfl, rfl, rfl, rfl, rfl, rfl⟩
  | rsv5 | rsv6 | rsv7 =>
    cases h
    exact ⟨rfl, rfl, rfl, rfl, rfl, .inl rfl⟩
  | rise | sigOpen | sigClose =>
    cases h
    exact SameControl.after ⟨rfl, rfl, rfl, rfl, rfl, rfl⟩ nofun rfl rfl rfl
  | fall =>
    cases h
    exact fallingEdge_controlAfter s
  | low =>
    cases h
    exact (quietCheck_sameControl _ s).after nofun rfl rfl rfl
  | pwmD | pwmP | manch | demod | rowAdv | addBit | nextRow | bbClear =>
    exact (withProto_sameControl (fun _ _ => setDemod_sameControl _ _ s) h).after nofun rfl rfl rfl
  | vNone | vRed | vXor8 | vNibsum | bbDone =>
    exact (withProto_sameControl (fun _ _ => emitAll_sameControl _ s) h).after nofun rfl rfl rfl
  | rowVote =>
    exact (withProto_sameControl (fun _ _ => answer_sameControl _ s) h).after nofun rfl rfl rfl
  | rdbits | sext =>
    cases h
    exact (answer_sameControl _ s).after nofun rfl rfl rfl
  | nib buf j =>
    rw [exec, execNib] at h
    split at h <;> cases h <;> exact (answer_sameControl _ s).after nofun rfl rfl rfl
  | tblAppend r =>
    rw [exec, execTblAppend] at h
    split at h <;> cases h
    exact SameControl.after ⟨rfl, rfl, rfl, rfl, rfl, rfl⟩ nofun rfl rfl rfl
  | tblAbort n =>
    cases h
    exact ⟨rfl, rfl, rfl, rfl, rfl, .inr ⟨rfl, rfl, n, List.mem_append_right _ (List.mem_singleton_self _)⟩⟩

/-! ## The rules about all instructions -/

/-- Settles O54. -/
theorem noInstructionChangesTheConfiguration : Obligations.NoInstructionChangesTheConfiguration :=
  fun _ _ _ h => ⟨(exec_controlAfter h).cfg, (exec_controlAfter h).input⟩

/-- A sample advances `idx` modulo `2^IDX_W` (R12, R82). -/
theorem State.advance_idx_toNat (s : State) : s.advance.idx.toNat = (s.idx.toNat + 1) % 2 ^ (s.cfg.idxW : Nat) := by
  rw [State.advance_idx, wrap_add_one_toNat, wrap_toNat, Nat.mod_add_mod]

/-- Settles O55: the three cases of `idxAfter`. -/
theorem onlySampleAndResetWriteIdx : Obligations.OnlySampleAndResetWriteIdx := by
  intro i s t h
  have hidx := (exec_controlAfter h).idx
  refine ⟨?sample, ?reset, fun hsample hrst => ?other⟩
  case sample =>
    rintro data rfl
    rw [hidx, idxAfter_sample, ← State.advance_idx, ← State.advance_idx_toNat]
    exact apply_ite BitVec.toNat _ _ _
  case reset => rintro rfl; exact hidx
  case other => exact hidx.trans (idxAfter_of_ne hsample hrst s)

/-- Settles O56: the cases of `haltedAfter`. -/
theorem onlyEosAndStopHalt : Obligations.OnlyEosAndStopHalt := by
  intro i s t h
  have hhalted := (exec_controlAfter h).halted
  refine ⟨?stops, ?reset, fun heos hstop hrst => ?other⟩
  case stops => rintro (rfl | rfl) <;> exact hhalted
  case reset => rintro rfl; exact hhalted
  case other => exact hhalted.trans (haltedAfter_of_ne heos hstop hrst s)

/-- Settles O57: the cases of `badcmdAfter`, and the overflow's event. -/
theorem stickyFlags : Obligations.StickyFlags := by
  intro i s t h
  have hctl := exec_controlAfter h
  have hbadcmd := hctl.badcmd
  have hovf := hctl.tblOvf
  refine ⟨fun hrst hset => ?badcmdStays, fun hrst hset => ?tblOvfStays, ?reset, ?reserved, ?abort,
    fun hset hclear => ?badcmdSet, fun hset hclear => ?tblOvfSet⟩
  case badcmdStays =>
    rcases badcmdAfter_cases s i with ⟨-, e⟩ | e | e
    · exact hbadcmd.trans e
    · exact absurd e hrst
    · exact hbadcmd.trans (e.trans hset)
  case tblOvfStays =>
    rw [if_neg hrst] at hovf
    rcases hovf with e | ⟨-, e, -⟩
    · exact e.trans hset
    · exact e
  case reset => rintro rfl; exact ⟨hbadcmd, hovf⟩
  case reserved => rintro (rfl | rfl | rfl) <;> exact hbadcmd
  case abort => rintro n rfl; cases h; rfl
  case badcmdSet =>
    rcases badcmdAfter_cases s i with ⟨hi, -⟩ | rfl | e
    · exact hi
    · rw [hbadcmd] at hset; cases hset
    · rw [hbadcmd, e, hclear] at hset; cases hset
  case tblOvfSet =>
    split at hovf
    · rw [hovf] at hset; cases hset
    · rcases hovf with e | ⟨hi, -, hevent⟩
      · rw [e, hclear] at hset; cases hset
      · exact ⟨canOverflow_eq_true hi, hevent⟩

end Sys2Proof.Machine
end

section
/-! PROOFS. The widths of R3 below their defaults (log entry 7): samples of `SAMPLE_W` bits, and indexes, lengths, gaps,
counts and limits of `IDX_W` bits. -/

namespace Sys2Proof.Machine

/-! ## The extractor -/

theorem State.quietCheck_pulseOpen (n : Word) (s : State) : (s.quietCheck n).pulseOpen = s.pulseOpen := by
  rcases s.quietCheck_cases n with ⟨-, -, e⟩ | ⟨-, e⟩ <;> rw [e]; rfl

theorem State.fallingEdge_pulseOpen (s : State) : s.fallingEdge.pulseOpen = false := by
  rcases s.fallingEdge_cases with ⟨-, e⟩ | ⟨-, e⟩ <;> rw [e]
  · exact s.closePulse_pulseOpen
  · exact (State.quietCheck_pulseOpen _ _).trans s.closePulse_pulseOpen

/-- A pulse is open after a sample exactly when the sample is high (R62, R100). -/
theorem State.extractorStep_pulseOpen (hi : Bool) (s : State) : (s.extractorStep hi).pulseOpen = hi := by
  rcases s.extractorStep_cases hi with ⟨rfl, -, e⟩ | ⟨rfl, ho, e⟩ | ⟨rfl, -, e⟩ | ⟨rfl, ho, e⟩ <;> rw [e]
  · rfl
  · exact ho
  · exact s.fallingEdge_pulseOpen
  · exact (State.quietCheck_pulseOpen _ _).trans ho

/-- The record of a completed pulse by its fields as numbers. -/
theorem eq_fallRecord {s : State} {r : PulseRecord} (hstart : r.start = s.pulseStart) (hstop : r.stop = s.idx)
    (hlength : r.length.toNat = (s.idx - s.pulseStart).toNat % 2 ^ (s.cfg.idxW : Nat))
    (hfirst : s.sigOpen = false → r.gap = none)
    (hgap : s.sigOpen = true →
      ∃ g, r.gap = some g ∧ g.toNat = (s.pulseStart - s.lastEnd).toNat % 2 ^ (s.cfg.idxW : Nat)) :
    r = s.fallRecord := by
  obtain ⟨start, stop, length, gap⟩ := r
  obtain rfl : length = s.cfg.wrap (s.idx - s.pulseStart) :=
    BitVec.eq_of_toNat_eq (hlength.trans (wrap_toNat s.cfg _).symm)
  have hgap' : gap = if s.sigOpen then some (s.cfg.wrap (s.pulseStart - s.lastEnd)) else none := by
    cases ho : s.sigOpen with
    | false => exact hfirst ho
    | true =>
      obtain ⟨g, hg, hnat⟩ := hgap ho
      exact hg.trans (congrArg some (BitVec.eq_of_toNat_eq (hnat.trans (wrap_toNat s.cfg _).symm)))
  rw [State.fallRecord, hgap', ← hstart, ← hstop]

theorem exceedsQuiet_eq (c : Config) (n lastEnd : Word) :
    exceedsQuiet c n lastEnd =
      decide (c.quietWindow.toNat < (n + 1 - lastEnd).toNat % 2 ^ (c.idxW : Nat)) := by
  rw [exceedsQuiet, wrap_toNat]

/-! ## The demodulator -/

section
variable {c : Config} {d : Demod} {lim : Limits} {t : Word}

/-- With an earlier data edge the interval decides, modulo `2^IDX_W` (R126). -/
theorem Demod.isDataEdge_of_mValid (hm : d.mValid = true) : d.isDataEdge c lim t = true ↔
    3 * (lim.short.toNat % 2 ^ (c.idxW : Nat)) < 2 * ((t - d.mLast).toNat % 2 ^ (c.idxW : Nat)) := by
  rw [Demod.isDataEdge, hm, exceedsHalfBits, wrap_toNat, wrapLimits_short, Bool.not_true, Bool.false_or,
    decide_eq_true_iff]

theorem Demod.manchEdge_of_dataEdge (h : d.isDataEdge c lim t = true) (b : Bool) :
    (d.manchEdge c lim t b).mLast = t := by
  rw [Demod.manchEdge, if_pos h]

theorem Demod.manchEdge_of_noDataEdge (h : ¬ d.isDataEdge c lim t = true) (b : Bool) : d.manchEdge c lim t b = d := by
  rw [Demod.manchEdge, if_neg h]

theorem Demod.manchEdge_mLast (b : Bool) :
    (d.manchEdge c lim t b).mLast = d.mLast ∨ (d.manchEdge c lim t b).mLast = t := by
  rcases Demod.manchEdge_cases c lim t b d with e | e <;> rw [e]
  · exact .inl rfl
  · exact .inr rfl

end

section
variable (c : Config) (lim : Limits)

/-- Limits that are the low `IDX_W` bits of others. -/
theorem eq_wrapLimits {c : Config} {lim lim' : Limits}
    (hshort : lim'.short.toNat = lim.short.toNat % 2 ^ (c.idxW : Nat))
    (hlong : lim'.long.toNat = lim.long.toNat % 2 ^ (c.idxW : Nat))
    (hreset : lim'.reset.toNat = lim.reset.toNat % 2 ^ (c.idxW : Nat)) : lim' = c.wrapLimits lim := by
  obtain ⟨short, long, reset⟩ := lim'
  rw [Config.wrapLimits, Limits.mk.injEq]
  exact ⟨BitVec.eq_of_toNat_eq (hshort.trans (wrap_toNat c _).symm),
    BitVec.eq_of_toNat_eq (hlong.trans (wrap_toNat c _).symm),
    BitVec.eq_of_toNat_eq (hreset.trans (wrap_toNat c _).symm)⟩

theorem isLong_wrapLimits : isLong c (c.wrapLimits lim) = isLong c lim := by
  funext x
  rw [isLong, isLong, wrapLimits_wrapLimits]

theorem exceedsReset_wrapLimits : exceedsReset c (c.wrapLimits lim) = exceedsReset c lim := by
  funext x
  rw [exceedsReset, exceedsReset, wrapLimits_wrapLimits]

theorem exceedsHalfBits_wrapLimits : exceedsHalfBits c (c.wrapLimits lim) = exceedsHalfBits c lim := by
  funext x
  rw [exceedsHalfBits, exceedsHalfBits, wrapLimits_wrapLimits]

variable (r : PulseRecord) (d : Demod)

theorem Demod.pwmD_wrapLimits : d.pwmD c (c.wrapLimits lim) r = d.pwmD c lim r := by
  simp only [Demod.pwmD, exceedsReset_wrapLimits, isLong_wrapLimits]

theorem Demod.pwmP_wrapLimits : d.pwmP c (c.wrapLimits lim) r = d.pwmP c lim r := by
  rw [Demod.pwmP, Demod.pwmP, isLong_wrapLimits]

theorem Demod.manchEdge_wrapLimits (t : Word) (b : Bool) :
    d.manchEdge c (c.wrapLimits lim) t b = d.manchEdge c lim t b := by
  rw [Demod.manchEdge, Demod.manchEdge, Demod.isDataEdge, Demod.isDataEdge, exceedsHalfBits_wrapLimits]

theorem Demod.manch_wrapLimits : d.manch c (c.wrapLimits lim) r = d.manch c lim r := by
  simp only [Demod.manch, Demod.manchEdge_wrapLimits]

end

/-- Settles O25: one clause for each operation, the reductions by `wrap_toNat`. -/
theorem indexArithmeticIsModuloIdxW : Obligations.IndexArithmeticIsModuloIdxW := by
  intro s
  refine ⟨fun data hrun => ?sample, fun r hroom hstart hstop hlength hfirst hgap => ?fall,
    fun ho => ⟨fun hlt => ?lowCloses, fun hle => ?lowWaits⟩, fun v lim p r d hp hd hm => ?manch,
    fun v lim lim' p r hshort hlong hreset => ?limits, fun p r g desc d hdesc hd hg => ?rowAdv,
    fun tbl => ⟨gapsOf_length s.cfg tbl, fun i a b ha hb => ⟨_, gapsOf_getElem? ha hb, wrap_toNat s.cfg _⟩⟩⟩
  case sample =>
    refine ⟨_, exec_sample_of_running hrun data, ?_, s.extractorStep_pulseOpen _⟩
    rw [State.takeSample_eq, ← State.advance_idx, State.advance_idx_toNat]
  case fall =>
    obtain rfl := eq_fallRecord hstart hstop hlength hfirst hgap
    exact ⟨s.fallingEdge, rfl, State.pulse_mem_fallingEdge_events hroom⟩
  case lowCloses =>
    refine ⟨s.closeSignal s.idx, rfl, ?_⟩
    rw [exec_low, State.quietCheck_of_exceeds ho ((exceedsQuiet_eq _ _ _).trans (decide_eq_true hlt))]
  case lowWaits =>
    rw [exec_low, State.quietCheck_of_within ((exceedsQuiet_eq _ _ _).trans (decide_eq_false (Nat.not_lt.mpr hle)))]
  case manch =>
    have hedge (t : Word) := Demod.isDataEdge_of_mValid (c := s.cfg) (lim := lim) (t := t) hm
    refine ⟨_, exec_manch hp hd v lim r, fun hrise => ?_, fun hrise => ?_⟩
    · rw [Demod.manch, Demod.manchEdge_of_noDataEdge (mt (hedge _).mp (Nat.not_lt.mpr hrise))]
      exact ⟨fun hfall => Demod.manchEdge_of_noDataEdge (mt (hedge _).mp (Nat.not_lt.mpr hfall)) _,
        fun hfall => Demod.manchEdge_of_dataEdge ((hedge _).mpr hfall) _⟩
    · have hlast := Demod.manchEdge_of_dataEdge ((hedge _).mpr hrise) s.cfg.manchRiseBit
      exact (Demod.manchEdge_mLast _).imp_left fun h => h.trans hlast
  case limits =>
    obtain rfl := eq_wrapLimits hshort hlong hreset
    simp only [exec, execPwmD, execPwmP, execManch, Demod.pwmD_wrapLimits, Demod.pwmP_wrapLimits,
      Demod.manch_wrapLimits, and_self]
  case rowAdv =>
    rw [exec_rowAdv hdesc hd r, Demod.rowAdv_of_gap hg, exceedsReset, wrapLimits_reset]
    refine ⟨fun hlt => ?_, fun hle => ?_⟩
    · rw [if_pos (decide_eq_true hlt)]
      rfl
    · rw [decide_eq_false (Nat.not_lt.mpr hle), if_neg Bool.false_ne_true, State.setDemod_self hd]

end Sys2Proof.Machine
end

section
/-! PROOFS. What the operations on one protocol leave alone, and the independence of the protocols (R130). -/

namespace Sys2Proof.Machine

/-! ## The frame of an operation on one protocol -/

theorem withProto_setDemod_next {s t : State} {p : Nat} {f : Desc → Demod → Demod}
    (h : s.withProto p (fun desc d => .next (s.setDemod p (f desc d))) = .next t) : ∃ d', t = s.setDemod p d' := by
  obtain ⟨desc, d, -, -, hk⟩ := State.withProto_next h
  cases hk
  exact ⟨_, rfl⟩

/-- Settles O35: each of the operations replaces the demodulator of its protocol. -/
theorem demodulatorOperationsFrame : Obligations.DemodulatorOperationsFrame := by
  intro i s t p hi h
  have hset : ∃ d', t = s.setDemod p d' := by
    rcases hi with ⟨v, lim, r, rfl | rfl | rfl⟩ | ⟨r, rfl | rfl⟩ | ⟨b, rfl⟩ | rfl | rfl
    all_goals exact withProto_setDemod_next h
  obtain ⟨d', rfl⟩ := hset
  exact ⟨rfl, List.length_set, fun q hq => List.getElem?_set_ne (Ne.symm hq)⟩

/-! ## Where the operations store -/

section
variable {c : Config} {d : Demod} {lim : Limits} {r : PulseRecord}

theorem Demod.rowAdv_bb : (d.rowAdv c lim r).bb = d.bb := by
  rcases Demod.rowAdv_cases c lim r d with e | e <;> rw [e]; rfl

/-- The two edges of a pulse store at most at the cursor before each of them (R126). -/
theorem Demod.manch_read (hwf : d.bb.wf = true) {a : Nat} (ha : a ≠ bbAddr c d.row d.col)
    (ha' : a ≠ bbAddr c (d.manchEdge c lim r.start c.manchRiseBit).row (d.manchEdge c lim r.start c.manchRiseBit).col) :
    (d.manch c lim r).bb.read a = d.bb.read a :=
  (Demod.manchEdge_read (Demod.manchEdge_wf hwf) ha').trans (Demod.manchEdge_read hwf ha)

theorem Demod.modulate_read {desc : Desc} (hwf : d.bb.wf = true) {a : Nat} (ha : a ≠ bbAddr c d.row d.col)
    (ha' : desc.modulation = .manch →
      a ≠ bbAddr c (d.manchEdge c desc.limits r.start c.manchRiseBit).row
        (d.manchEdge c desc.limits r.start c.manchRiseBit).col) :
    (d.modulate c desc r).bb.read a = d.bb.read a := by
  rw [Demod.modulate]
  cases hm : desc.modulation with
  | pwmD => exact Demod.pwmD_read hwf ha
  | pwmP => exact Demod.addBit_read hwf ha
  | manch => exact Demod.manch_read hwf ha (ha' hm)

end

/-- The demodulator that an operation on its protocol answers. -/
theorem eq_of_next_setDemod {s t : State} {p : Nat} {d d' x : Demod} (hd : s.demods[p]? = some d)
    (hd' : t.demods[p]? = some d') (h : (.next (s.setDemod p x) : Result) = .next t) : d' = x := by
  cases h
  exact Option.some.inj (hd'.symm.trans (State.setDemod_getElem? hd x))

/-- Settles O36: each operation's demodulator, and the bytes that it stores. -/
theorem bitBufferStoresOnlyAtTheCursor : Obligations.BitBufferStoresOnlyAtTheCursor := by
  intro s t p v lim r b desc d d' hdesc hd hd' hwf
  obtain ⟨hp, -⟩ := List.getElem?_eq_some_iff.mp hdesc
  refine ⟨fun h a ha => ?bit, fun h a ha ha' => ?manch, fun h a => ?row, fun h a ha ha' => ?demod⟩
  case bit =>
    rw [exec_addBit hp hd, exec_pwmD hp hd, exec_pwmP hp hd] at h
    rcases h with h | h | h <;> obtain rfl := eq_of_next_setDemod hd hd' h
    · exact Demod.addBit_read hwf ha
    · exact Demod.pwmD_read hwf ha
    · exact Demod.addBit_read hwf ha
  case manch =>
    rw [exec_manch hp hd] at h
    obtain rfl := eq_of_next_setDemod hd hd' h
    exact Demod.manch_read hwf ha ha'
  case row =>
    rw [exec_nextRow hp hd, exec_rowAdv hdesc hd] at h
    rcases h with h | h <;> obtain rfl := eq_of_next_setDemod hd hd' h
    · rfl
    · rw [Demod.rowAdv_bb]
  case demod =>
    rw [exec_demod hdesc hd] at h
    obtain rfl := eq_of_next_setDemod hd hd' h
    rw [Demod.demodulate, Demod.modulate_read (by rwa [Demod.rowAdv_bb]) ha ha', Demod.rowAdv_bb]

/-! ## Identical protocols -/

/-- Protocols `p` and `q` have the same descriptor and the same demodulator. -/
def State.Alike (p q : Nat) (s : State) : Prop :=
  s.cfg.descs[p]? = s.cfg.descs[q]? ∧ s.demods[p]? = s.demods[q]?

section
variable {p q : Nat} {s : State}

theorem State.Alike.captureClear (h : s.Alike p q) : s.captureClear.Alike p q := by
  refine ⟨h.1, ?_⟩
  rw [State.captureClear_demods, List.getElem?_map, List.getElem?_map, h.2]

/-- A pulse is demodulated with a protocol's own descriptor and demodulator, and with nothing else of it (R130). -/
theorem State.Alike.demodAll (h : s.Alike p q) (r : PulseRecord) : (s.demodAll r).Alike p q := by
  refine ⟨h.1, ?_⟩
  rw [State.demodAll, State.mapDemods, List.getElem?_mapIdx, List.getElem?_mapIdx, h.1, h.2]

theorem State.Alike.appendPulse (h : s.Alike p q) (r : PulseRecord) : (s.appendPulse r).Alike p q :=
  ⟨h.1, (h.demodAll r).2⟩

theorem State.Alike.quietCheck (h : s.Alike p q) (n : Word) : (s.quietCheck n).Alike p q := by
  rcases s.quietCheck_cases n with ⟨-, -, e⟩ | ⟨-, e⟩ <;> rw [e]
  · exact h.captureClear
  · exact h

theorem State.Alike.closePulse (h : s.Alike p q) : s.closePulse.Alike p q := by
  rw [State.Alike, s.closePulse_frame.cfg, s.closePulse_demods]
  exact h

theorem State.Alike.fallingEdge (h : s.Alike p q) : s.fallingEdge.Alike p q := by
  rcases s.fallingEdge_cases with ⟨-, e⟩ | ⟨-, e⟩ <;> rw [e]
  · exact h.closePulse.captureClear
  · exact (h.closePulse.appendPulse s.fallRecord).quietCheck s.idx

theorem State.Alike.extractorStep (h : s.Alike p q) (hi : Bool) : (s.extractorStep hi).Alike p q := by
  rcases s.extractorStep_cases hi with ⟨-, -, e⟩ | ⟨-, -, e⟩ | ⟨-, -, e⟩ | ⟨-, -, e⟩ <;> rw [e]
  · exact h
  · exact h
  · exact h.fallingEdge
  · exact h.quietCheck s.idx

theorem State.Alike.endStream (h : s.Alike p q) : s.endStream.Alike p q := by
  cases ho : s.sigOpen with
  | false => rw [State.endStream_of_sigClosed ho]; exact h
  | true => rw [State.endStream_of_sigOpen ho]; exact h.captureClear

/-- After reset every demodulator is the empty one. -/
theorem State.Alike.resetAll (h : s.Alike p q) (hp : p < s.cfg.nProto) (hq : q < s.cfg.nProto) :
    s.resetAll.Alike p q := by
  refine ⟨h.1, ?_⟩
  rw [State.resetAll_demods, List.getElem?_replicate_of_lt hp, List.getElem?_replicate_of_lt hq]

end

/-- Settles O37: one lemma for each thing a step can do. -/
theorem identicalDescriptorsGiveIdenticalBuffers : Obligations.IdenticalDescriptorsGiveIdenticalBuffers := by
  intro s t p q hp hq hdesc hdemod hstep
  obtain ⟨-, u, rfl, hcases⟩ := step_cases hstep
  have h : (s.beginStep (nextCycle s.input).2).Alike p q := ⟨hdesc, hdemod⟩
  rcases hcases with rfl | rfl | ⟨-, data, rfl⟩ | ⟨-, rfl⟩ | ⟨-, rfl⟩ | rfl
  · exact (h.resetAll hp hq).2
  · exact h.2
  · exact (h.extractorStep _).2
  · exact h.endStream.2
  · exact h.captureClear.2
  · exact h.2

end Sys2Proof.Machine
end

section
/-! PROOFS. What holds of every verifier: its record (R69), the empty buffer (R128), no `BOUNDS` under a well-formed
configuration (R146), and that a verdict depends on the buffer alone (R140). -/

namespace Sys2Proof.Machine

/-! ## The record -/

/-- Settles O39: the record of each end, field by field; the count of payload items by the kind of payload. -/
theorem verdictRecordFields : Obligations.VerdictRecordFields :=
  fun _ _ => ⟨fun payload => by cases payload <;> rfl, fun _ _ => rfl, rfl, rfl, rfl, rfl, rfl, rfl, rfl, rfl⟩

/-! ## The empty buffer -/

/-- Settles O42: a buffer with no bit has no available row, which every verifier checks first. -/
theorem emptyBufferIsRejectedWithNoRows : Obligations.EmptyBufferIsRejectedWithNoRows := by
  intro s m lim p d hp hd hempty
  have hverifier {v : VSel} (hv : v ≠ .vNone) :
      (s.withProto p fun _ d => .next (s.emitAll (verdictEvents s.cfg p v d))) =
        .next { s with events := s.events ++ [.verdict (Verdict.ofJudgement p v (.reject .noRows 0))] } := by
    rw [exec_verifier hp hd, verdictEvents_of_noBits hempty hv]
  exact ⟨hverifier nofun, hverifier nofun, hverifier nofun⟩

/-! ## Checks that cannot end with `BOUNDS` -/

/-- The check does not end with `reject(BOUNDS, info)`. -/
def Check.NoBounds {α : Type} (x : Check α) : Prop := ∀ info, x ≠ .error (.bounds, info)

section
variable {α β : Type}

theorem Check.noBounds_ok (a : α) : Check.NoBounds (.ok a) := nofun

theorem Check.noBounds_error {code : Reason} (h : code ≠ .bounds) (info : Nat) :
    Check.NoBounds (.error (code, info) : Check α) := by
  rintro _ ⟨⟩
  exact h rfl

theorem Check.NoBounds.bind {x : Check α} {f : α → Check β} (hx : x.NoBounds) (hf : ∀ a, x = .ok a → (f a).NoBounds) :
    Check.NoBounds (x >>= f) := by
  cases x with
  | ok a => exact hf a rfl
  | error e => exact fun info h => hx info (by cases h; rfl)

/-- A check whose own reason is another one. -/
theorem Check.NoBounds.require {code : Reason} (h : code ≠ .bounds) (cond : Bool) (info : Nat) {k : Unit → Check α}
    (hk : (k ()).NoBounds) : Check.NoBounds (require cond code info >>= k) := by
  cases cond with
  | false => exact Check.noBounds_error h info
  | true => exact hk

/-- A check of the bounds that holds. -/
theorem Check.NoBounds.inside {cond : Bool} (h : cond = true) (info : Nat) {k : Unit → Check α}
    (hk : (k ()).NoBounds) : Check.NoBounds (Sys2Proof.Machine.require cond .bounds info >>= k) := by
  rw [require_pass h]
  exact hk

end

section
variable {buf : List Byte} {w : Nat} (hw : w ≤ 16)
include hw

theorem readField_noBounds {off : Nat} (h : off + w ≤ 8 * buf.length) : (readField buf w off).NoBounds := by
  rw [readField_inside hw h]
  exact Check.noBounds_ok _

theorem readItem_noBounds {bit : Nat} (h : bit + w + 1 ≤ 8 * buf.length) (i : Nat) :
    (readItem buf w i bit).NoBounds := by
  rw [readItem_inside hw h]
  split
  · exact Check.noBounds_ok _
  · exact Check.noBounds_error (by decide) i

theorem readItems_noBounds {count bit : Nat} (h : bit + (w + 1) * count ≤ 8 * buf.length) (i : Nat) :
    (readItems buf w count i bit).NoBounds := by
  induction count generalizing i bit with
  | zero => exact Check.noBounds_ok _
  | succ n ih =>
    rw [Nat.mul_succ] at h
    exact (readItem_noBounds hw (by omega) i).bind fun _ _ =>
      (ih (by omega) (i + 1)).bind fun _ _ => Check.noBounds_ok _

end

/-! ## The verifiers under a well-formed configuration -/

theorem checkRed_noBounds {c : Config} (hcols : ∀ col ∈ c.redHdrCols, col < c.bbCols)
    (hfield : (c.tempNib + 2) / 2 < c.bbCols) (d : Demod) : (checkRed c d).NoBounds := by
  rw [checkRed]
  cases d.avail c with
  | nil => exact Check.noBounds_error (by decide) 0
  | cons a rest =>
    exact .require (by decide) _ _ <| .inside (redColumnsInside_iff.mpr ⟨hcols, hfield⟩) _ <|
      .require (by decide) _ _ <| Check.noBounds_ok _

theorem checkVote_noBounds {c : Config} (hcols : voteCols c ≤ c.bbCols) (d : Demod) : (checkVote c d).NoBounds := by
  refine .require (by decide) _ _ <| .inside (decide_eq_true hcols) _ ?_
  split
  · exact Check.noBounds_ok _
  · exact Check.noBounds_error (by decide) 0

/-- The combined buffer is as long as the message, so only the row vote looks at the bounds (R145 step 2). -/
theorem checkXor8_noBounds {c : Config} (hcols : voteCols c ≤ c.bbCols) (d : Demod) : (checkXor8 c d).NoBounds := by
  refine (checkVote_noBounds hcols d).bind fun comb hvote => ?_
  have hin := vote_holds_message hvote
  exact (readItems_noBounds (by decide) (by omega) 0).bind fun _ _ =>
    (readField_noBounds (by decide) (by omega)).bind fun _ _ => .require (by decide) _ _ <| Check.noBounds_ok _

/-- A row that holds the message of either length holds all that is read of it (R148 steps 2 and 4). -/
theorem checkNibsumRow_noBounds {c : Config} (hlong : nibTotal c c.nibLongLen ≤ 8 * c.bbCols)
    (hshort : nibTotal c c.nibShortLen ≤ 8 * c.bbCols) (d : Demod) (a : Nat) : (checkNibsumRow c d a).NoBounds := by
  have htype : c.nibStart + 5 ≤ 8 * c.bbCols := by rw [nibTotal] at hlong; omega
  have hrow := d.rowBytes_length c a
  rw [checkNibsumRow_eq]
  refine .inside (decide_eq_true htype) _ <|
    (readItem_noBounds (by decide) (by omega) 0).bind fun dec0 _ => ?_
  have hin : nibTotal c (nibCount c dec0) ≤ 8 * c.bbCols := by
    rw [nibCount]
    split
    · exact hlong
    · exact hshort
  have hmessage := row_holds_message hin d a
  exact .inside (decide_eq_true hin) _ <| .require (by decide) _ _ <|
    (readItems_noBounds (by decide) (by omega) 1).bind fun _ _ => .require (by decide) _ _ <|
    (readField_noBounds (by decide) (by omega)).bind fun _ _ => .require (by decide) _ _ <| Check.noBounds_ok _

theorem checkNibsum_noBounds {c : Config} (hlong : nibTotal c c.nibLongLen ≤ 8 * c.bbCols)
    (hshort : nibTotal c c.nibShortLen ≤ 8 * c.bbCols) (d : Demod) : (checkNibsum c d).NoBounds := by
  rw [checkNibsum]
  cases d.avail c with
  | nil => exact Check.noBounds_error (by decide) 0
  | cons a rest => exact checkNibsumRow_noBounds hlong hshort d a

theorem Check.NoBounds.judge {x : Check Payload} (h : x.NoBounds) (info : Nat) :
    some x.judge ≠ some (.reject .bounds info) := by
  cases x with
  | ok payload => nofun
  | error e =>
    obtain ⟨code, info'⟩ := e
    rintro ⟨⟩
    exact h info rfl

/-- Settles O46: the conditions of R4 are the bounds that the verifiers check. -/
theorem wellFormedConfigurationNeverReportsBounds : Obligations.WellFormedConfigurationNeverReportsBounds := by
  intro c d v info hwf
  simp only [Config.wellFormed, Bool.and_eq_true, List.all_eq_true, decide_eq_true_eq] at hwf
  obtain ⟨⟨-, hcols⟩, hfield, hxor, hlong, hshort, -, -⟩ := hwf
  have hvote : voteCols c ≤ c.bbCols := by rw [voteCols]; omega
  cases v with
  | vNone => nofun
  | vRed => exact (checkRed_noBounds hcols hfield d).judge info
  | vXor8 => exact (checkXor8_noBounds hvote d).judge info
  | vNibsum => exact (checkNibsum_noBounds hlong hshort d).judge info

/-! ## The buffer alone -/

/-- The two demodulators hold the same bytes and the same bit counts. -/
structure Demod.SameBuffer (d d' : Demod) : Prop where
  read    : ∀ a, d.bb.read a = d'.bb.read a
  rowBits : d.rowBits = d'.rowBits

section
variable {d d' : Demod} (h : d.SameBuffer d') (c : Config)
include h

theorem Demod.SameBuffer.byte : d.byte c = d'.byte c := by
  funext r col
  exact h.read _

theorem Demod.SameBuffer.rowBytes : d.rowBytes c = d'.rowBytes c := by
  funext r
  rw [Demod.rowBytes, Demod.rowBytes, h.byte]

theorem Demod.SameBuffer.rowBitsAt : d.rowBitsAt = d'.rowBitsAt := by
  funext r
  rw [Demod.rowBitsAt, Demod.rowBitsAt, h.rowBits]

theorem Demod.SameBuffer.avail : d.avail c = d'.avail c := by
  rw [Demod.avail, Demod.avail, h.rowBitsAt]

theorem Demod.SameBuffer.checkRed : checkRed c d = checkRed c d' := by
  simp only [Sys2Proof.Machine.checkRed, redAgree, h.byte, h.rowBytes, h.avail]

theorem Demod.SameBuffer.checkXor8 : checkXor8 c d = checkXor8 c d' := by
  have hbyte : voteByte c d = voteByte c d' := by
    funext voters col
    rw [voteByte, voteByte, h.byte]
  rw [Sys2Proof.Machine.checkXor8, Sys2Proof.Machine.checkXor8, checkVote, checkVote, h.avail, hbyte]

theorem Demod.SameBuffer.checkNibsum : checkNibsum c d = checkNibsum c d' := by
  simp only [Sys2Proof.Machine.checkNibsum, checkNibsumRow, h.rowBytes, h.rowBitsAt, h.avail]

theorem Demod.SameBuffer.verdictEvents (p : Nat) (v : VSel) : verdictEvents c p v d = verdictEvents c p v d' := by
  have hverify : verify c d v = verify c d' v := by
    cases v with
    | vNone => rfl
    | vRed => rw [verify, verify, h.checkRed]
    | vXor8 => rw [verify, verify, h.checkXor8]
    | vNibsum => rw [verify, verify, h.checkNibsum]
  rw [Sys2Proof.Machine.verdictEvents, Sys2Proof.Machine.verdictEvents, hverify]

end

/-- Settles O47: the appended events are those of `verdictEvents`, a function of the buffer and the configuration. -/
theorem verdictDependsOnTheBufferAlone : Obligations.VerdictDependsOnTheBufferAlone := by
  intro i s s' p d d' hi hcfg hp hd hd' hread hbits
  have hsame : d.SameBuffer d' := ⟨hread, hbits⟩
  have hverifier (v : VSel) : ∃ new,
      (s.withProto p fun _ d => .next (s.emitAll (verdictEvents s.cfg p v d))) =
        .next { s with events := s.events ++ new } ∧
      (s'.withProto p fun _ d => .next (s'.emitAll (verdictEvents s'.cfg p v d))) =
        .next { s' with events := s'.events ++ new } := by
    refine ⟨_, exec_verifier hp hd, ?_⟩
    rw [exec_verifier (hcfg ▸ hp) hd', hsame.verdictEvents, hcfg]
  obtain ⟨m, lim, rfl | rfl | rfl | rfl⟩ := hi
  · exact hverifier .vNone
  · exact hverifier .vRed
  · exact hverifier .vXor8
  · exact hverifier .vNibsum

end Sys2Proof.Machine
end

section
/-! PROOFS. The reader's round trip (R94), and direct access against `read_bits` (R42). -/

namespace Sys2Proof.Machine

/-! ## The round trip -/

section
variable {buf : List Byte} {w off : Nat} (hw : w ≤ 16) (hin : off + w ≤ 8 * buf.length)
include hw hin

theorem writeBits_readBits : writeBits buf w off (readBits buf w off).value.toNat = buf := by
  refine ext_streamBit (writeBits_length _ _ _ _) fun k => ?_
  rw [streamBit_writeBits hin, readBits_toNat hw hin, readLoop_testBit]
  split
  · next hk => rw [decide_eq_true (by omega), Bool.true_and, Nat.add_sub_cancel' hk.1]
  · rfl

theorem readBits_writeBits (val : Nat) : (readBits (writeBits buf w off val) w off).err = .none ∧
    (readBits (writeBits buf w off val) w off).value.toNat = val % 2 ^ w := by
  have hin' : off + w ≤ 8 * (writeBits buf w off val).length := by rwa [writeBits_length]
  refine ⟨by rw [readBits_inside hw hin'], ?_⟩
  rw [readBits_toNat hw hin']
  refine Nat.eq_of_testBit_eq fun i => ?_
  rw [readLoop_testBit, Nat.testBit_mod_two_pow, streamBit_writeBits hin]
  by_cases hi : i < w
  · rw [if_pos (by omega), Nat.add_sub_cancel_left]
  · rw [decide_eq_false hi, Bool.false_and, Bool.false_and]

/-- A field of two parts: below the first part's width a bit is the first part's, from there on the second's. -/
theorem readBits_append {w₁ w₂ : Nat} (hsum : w₁ + w₂ = w) : (readBits buf w off).value =
    (readBits buf w₁ off).value ||| ((readBits buf w₂ (off + w₁)).value <<< w₁) := by
  refine BitVec.eq_of_getLsbD_eq fun i hi => ?_
  rw [BitVec.getLsbD_or, BitVec.getLsbD_shiftLeft, readBits_getLsbD hw hin, readBits_getLsbD (by omega) (by omega),
    readBits_getLsbD (by omega) (by omega), decide_eq_true hi, Bool.true_and]
  by_cases hlow : i < w₁
  · simp [hlow, show i < w by omega]
  · have hoff : off + w₁ + (i - w₁) = off + i := by omega
    have hwidth : i - w₁ < w₂ ↔ i < w := by omega
    simp [hlow, hoff, hwidth]

end

/-- Settles O49: the three laws, each compared bit by bit. -/
theorem readerRoundTrip : Obligations.ReaderRoundTrip :=
  fun _ _ _ hw hin => ⟨writeBits_readBits hw hin, readBits_writeBits hw hin, fun _ _ => readBits_append hw hin⟩

/-! ## Direct access -/

/-- Stream bit `k` is in byte `k / 8`, most significant bit first (R41). -/
theorem streamBit_eq {buf : List Byte} {k : Nat} {x : Byte} (h : buf[k / 8]? = some x) :
    streamBit buf k = x.getLsbD (7 - k % 8) := by
  rw [streamBit, List.getD_eq_getElem?_getD, h, Option.getD_some]

/-- Settles O50: both are stream bits of one byte, counted from its most significant bit. -/
theorem directAccessIsNotReversed : Obligations.DirectAccessIsNotReversed := by
  refine fun buf => ⟨fun c i x hx hi => ?byte, fun j i hj hi => ?nibble⟩
  case byte =>
    obtain ⟨hc, -⟩ := List.getElem?_eq_some_iff.mp hx
    rw [readBits_getLsbD (by decide) (by omega), decide_eq_true hi, Bool.true_and,
      streamBit_eq (x := x) (by rwa [show (8 * c + i) / 8 = c by omega]), show (8 * c + i) % 8 = i by omega]
  case nibble =>
    have hx := List.getElem?_eq_getElem hj
    rw [readBits_getLsbD (by decide) (by omega), decide_eq_true hi, Bool.true_and,
      streamBit_eq (x := buf[j / 2]) (by rwa [show (4 * j + i) / 8 = j / 2 by omega]), nibAt_eq hx]
    split
    · rw [BitVec.getLsbD_extractLsb', decide_eq_true (by omega), Bool.true_and]
      congr 1
      omega
    · rw [BitVec.getLsbD_extractLsb', decide_eq_true (by omega), Bool.true_and]
      congr 1
      omega

end Sys2Proof.Machine
end
